-- ==== Sys2Proof/Word.lean ====
section
/-! DEFINITION. The word types of the WS281x bit-pattern encoder: the widths that the spec's registers, operands and
messages share (00_scope.md rules R4 and R7, 10_state.md, 30_encoding.md). -/

namespace Sys2Proof

/-- One byte of a message, a frame or a status snapshot (20_memory.md rule R60). -/
abbrev Byte := BitVec 8

/-- A channel id: 8 bits (10_state.md rule R20). -/
abbrev ChanId := BitVec 8

/-- A chip id, a layout id or a predefined-type index: 8 bits (20_memory.md rule R73). -/
abbrev RomId := BitVec 8

/-- A duration of 32 bits, in nanoseconds (30_encoding.md rule R109). -/
abbrev Ns32 := BitVec 32

/-- A time stamp, a deadline or a duration of 64 bits, in nanoseconds (20_memory.md rule R62). -/
abbrev Ns64 := BitVec 64

/-- The 64 slots of a waveform word: slot position `p` is bit `63 - p` (20_memory.md rule R66). -/
abbrev Slots := BitVec 64

end Sys2Proof
end

