-- ==== Sys2Proof/Syntax.lean ====
section
/-! DEFINITION. The operations of the block: one constructor of `Instr` per row of spec/opcode_table.json (30_encoding.md
rule R112), with the operands its message format gives it (rules R91 to R97), and the ports the operations belong to
(rule R90). -/

namespace Sys2Proof

/-- The ports of rule R90. `internal` is no port of the block: the operations of class "internal" never appear on a port
(30_encoding.md rule R112), and this name stands for the model's way of running one on its own. Assumption log 4. -/
inductive Port where
  | host
  | platform
  | output
  | internal
  deriving DecidableEq, Repr

/-- The mnemonics of the opcode table (30_encoding.md rule R112). -/
inductive Op where
  | cfg
  | submit
  | status
  | statusRead
  | shutdown
  | complete
  | wake
  | genConfigure
  | genLoad
  | genEnable
  | genDisable
  | tmrArm
  | tmrCancel
  | romChip
  | romLayout
  | romPredef
  | encBit0
  | encBit1
  | encPad
  | encode
  deriving DecidableEq, Repr

/-- One operation with its operands. -/
inductive Instr where
  /-- CFG: `W0` to `W3` (rules R92 and R97). -/
  | cfg (ch : ChanId) (w0 w1 w2 w3 : BitVec 32)
  /-- SUBMIT: `NOW` and the frame `IN` (rule R93). -/
  | submit (ch : ChanId) (now : Ns64) (frame : List Byte)
  /-- STATUS (rule R94). -/
  | status (ch : ChanId)
  /-- STATUS_READ: `MAXLEN` (rule R94). -/
  | statusRead (ch : ChanId) (maxLen : BitVec 32)
  /-- SHUTDOWN (rule R94). -/
  | shutdown (ch : ChanId)
  /-- COMPLETE: `NOW` (rule R95). -/
  | complete (ch : ChanId) (now : Ns64)
  /-- WAKE: `NOW` (rule R95). -/
  | wake (ch : ChanId) (now : Ns64)
  /-- GEN_CONFIGURE: `ACTIVE_NS`, `PASSIVE_NS` and `INV` (rule R96). -/
  | genConfigure (ch : ChanId) (activeNs passiveNs : Ns32) (inv : Bool)
  /-- GEN_LOAD: `BITS` (rule R96). -/
  | genLoad (ch : ChanId) (bits : Slots)
  /-- GEN_ENABLE (rule R96). -/
  | genEnable (ch : ChanId)
  /-- GEN_DISABLE (rule R96). -/
  | genDisable (ch : ChanId)
  /-- TMR_ARM: `DEADLINE` (rule R96). -/
  | tmrArm (ch : ChanId) (deadline : Ns64)
  /-- TMR_CANCEL (rule R96). -/
  | tmrCancel (ch : ChanId)
  /-- ROM_CHIP: the chip id (rule R112). -/
  | romChip (id : RomId)
  /-- ROM_LAYOUT: the layout id (rule R112). -/
  | romLayout (id : RomId)
  /-- ROM_PREDEF: the predefined-type index (rule R112). -/
  | romPredef (ix : RomId)
  /-- ENC_BIT0 (rule R112). -/
  | encBit0
  /-- ENC_BIT1 (rule R112). -/
  | encBit1
  /-- ENC_PAD (rule R112). -/
  | encPad
  /-- ENCODE (rule R112): its operands are the encoder's own (41_encoder.md rule R160). -/
  | encode
  deriving DecidableEq, Repr

/-- The table row an operation belongs to. -/
def Instr.op : Instr → Op
  | .cfg _ _ _ _ _ => .cfg
  | .submit _ _ _ => .submit
  | .status _ => .status
  | .statusRead _ _ => .statusRead
  | .shutdown _ => .shutdown
  | .complete _ _ => .complete
  | .wake _ _ => .wake
  | .genConfigure _ _ _ _ => .genConfigure
  | .genLoad _ _ => .genLoad
  | .genEnable _ => .genEnable
  | .genDisable _ => .genDisable
  | .tmrArm _ _ => .tmrArm
  | .tmrCancel _ => .tmrCancel
  | .romChip _ => .romChip
  | .romLayout _ => .romLayout
  | .romPredef _ => .romPredef
  | .encBit0 => .encBit0
  | .encBit1 => .encBit1
  | .encPad => .encPad
  | .encode => .encode

end Sys2Proof
end

