-- ==== Sys2Proof/WellFormed.lean ====
section
/-! DEFINITION. Which operations are legal encodings. A field's width is its type's; what is left to check are the operand
values that 30_encoding.md calls reserved or illegal (rules R94, R97, R115 and R117). An operation that fails a check is
still a message of the right length: it decodes, and its meaning answers the error code the spec gives it. -/

namespace Sys2Proof

/-- The reserved bits of CFG, `W0[7]`, `W1[31:12]` and `W2[31:8]`, are 0 (rule R97). -/
def cfgReservedClear (w0 w1 w2 : BitVec 32) : Bool :=
  !w0.getLsbD 7 && w1 >>> 12 == 0 && w2 >>> 8 == 0

/-- CFG does not select the reserved mode: not `MODE = 3` with `P_SEL = 1` (rule R117). -/
def cfgModeLegal (w0 : BitVec 32) : Bool :=
  !(w0.getLsbD 4 && w0.getLsbD 2 && w0.getLsbD 1)

/-- The legal operations. -/
def Instr.wellFormed : Instr → Bool
  | .cfg _ w0 w1 w2 _ => cfgReservedClear w0 w1 w2 && cfgModeLegal w0
  | .submit _ _ _ => true
  | .status _ => true
  | .statusRead _ maxLen => maxLen != 0
  | .shutdown _ => true
  | .complete _ _ => true
  | .wake _ _ => true
  | .genConfigure _ _ _ _ => true
  | .genLoad _ _ => true
  | .genEnable _ => true
  | .genDisable _ => true
  | .tmrArm _ _ => true
  | .tmrCancel _ => true
  | .romChip _ => true
  | .romLayout _ => true
  | .romPredef _ => true
  | .encBit0 => true
  | .encBit1 => true
  | .encPad => true
  | .encode => true

end Sys2Proof
end

