-- ==== Sys2Proof/Decode.lean ====
section
/-! DEFINITION. Decoding and encoding of messages (30_encoding.md). The decoder is total on any bytes and rejects by name;
after it stands the encoder, written from the same tables. Every multi-byte field is big-endian (20_memory.md rule R67). -/

namespace Sys2Proof

/-! ### Byte order (rule R67) -/

/-- Byte `i` of a byte string. Only read where a length check has shown that the byte is there. -/
def byteAt (m : List Byte) (i : Nat) : Byte := m.getD i 0

/-- The 32-bit big-endian field that starts at byte `i`. -/
def word32At (m : List Byte) (i : Nat) : BitVec 32 :=
  byteAt m i ++ byteAt m (i + 1) ++ byteAt m (i + 2) ++ byteAt m (i + 3)

/-- The 64-bit big-endian field that starts at byte `i`. -/
def word64At (m : List Byte) (i : Nat) : BitVec 64 :=
  word32At m i ++ word32At m (i + 4)

/-- The two bytes of a 16-bit field, most significant first. -/
def bytes16 (w : BitVec 16) : List Byte :=
  [w.extractLsb' 8 8, w.extractLsb' 0 8]

/-- The four bytes of a 32-bit field, most significant first. -/
def bytes32 (w : BitVec 32) : List Byte :=
  [w.extractLsb' 24 8, w.extractLsb' 16 8, w.extractLsb' 8 8, w.extractLsb' 0 8]

/-- The eight bytes of a 64-bit field, most significant first. -/
def bytes64 (w : BitVec 64) : List Byte :=
  bytes32 (w.extractLsb' 32 32) ++ bytes32 (w.extractLsb' 0 32)

/-! ### The opcode map (rule R112) and the message lengths (rule R91) -/

/-- A row of the opcode map. `len` is the message's length in bytes, opcode included; `open_` marks the one message whose
length is "from `len` up" (SUBMIT). -/
structure OpRow where
  op    : Op
  opc   : Byte
  port  : Port
  len   : Nat
  open_ : Bool
  deriving DecidableEq, Repr

/-- The rows of the host command port and the platform event port. -/
def inputRows : List OpRow :=
  [ ⟨.cfg, 0x01, .host, 18, false⟩,
    ⟨.submit, 0x02, .host, 10, true⟩,
    ⟨.status, 0x03, .host, 2, false⟩,
    ⟨.statusRead, 0x04, .host, 6, false⟩,
    ⟨.shutdown, 0x05, .host, 2, false⟩,
    ⟨.complete, 0x10, .platform, 10, false⟩,
    ⟨.wake, 0x11, .platform, 10, false⟩ ]

/-- The rows of the output command port. -/
def outputRows : List OpRow :=
  [ ⟨.genConfigure, 0x80, .output, 11, false⟩,
    ⟨.genLoad, 0x81, .output, 10, false⟩,
    ⟨.genEnable, 0x82, .output, 2, false⟩,
    ⟨.genDisable, 0x83, .output, 2, false⟩,
    ⟨.tmrArm, 0x90, .output, 10, false⟩,
    ⟨.tmrCancel, 0x91, .output, 2, false⟩ ]

/-- The rows of the internal operations: the opcode and an id or index, or the opcode alone. -/
def internalRows : List OpRow :=
  [ ⟨.romChip, 0xA0, .internal, 2, false⟩,
    ⟨.romLayout, 0xA1, .internal, 2, false⟩,
    ⟨.romPredef, 0xA2, .internal, 2, false⟩,
    ⟨.encBit0, 0xB0, .internal, 1, false⟩,
    ⟨.encBit1, 0xB1, .internal, 1, false⟩,
    ⟨.encPad, 0xB2, .internal, 1, false⟩,
    ⟨.encode, 0xB3, .internal, 1, false⟩ ]

/-- The opcode map of rule R112. -/
def opRows : List OpRow := inputRows ++ outputRows ++ internalRows

/-- The row that an opcode byte selects, if any. -/
def rowOf (opc : Byte) : Option OpRow := opRows.find? (fun r => r.opc == opc)

/-- The message length rule R91 gives a row. -/
def OpRow.fits (r : OpRow) (n : Nat) : Bool := if r.open_ then r.len ≤ n else n == r.len

/-! ### The decoder -/

/-- Why a byte string is no message. -/
inductive DecodeError where
  /-- An opcode that is not the port's own (rule R114), or no opcode byte (DEDUCED from rule R113: assumption log 25). -/
  | badOpcode
  /-- The length is not the one rule R91 gives the opcode (rule R115). -/
  | badLength
  /-- A field holds a value its format does not admit: `INV` of GEN_CONFIGURE is neither 0 nor 1 (rule R96). -/
  | badField
  deriving DecidableEq, Repr

/-- The operands of a message `m` of the right length, by its operation (rules R92 to R97 and R112). -/
def decodeFields (op : Op) (m : List Byte) : Except DecodeError Instr :=
  match op with
  | .cfg => .ok (.cfg (byteAt m 1) (word32At m 2) (word32At m 6) (word32At m 10) (word32At m 14))
  | .submit => .ok (.submit (byteAt m 1) (word64At m 2) (m.drop 10))
  | .status => .ok (.status (byteAt m 1))
  | .statusRead => .ok (.statusRead (byteAt m 1) (word32At m 2))
  | .shutdown => .ok (.shutdown (byteAt m 1))
  | .complete => .ok (.complete (byteAt m 1) (word64At m 2))
  | .wake => .ok (.wake (byteAt m 1) (word64At m 2))
  | .genConfigure =>
    if byteAt m 10 = 0 then .ok (.genConfigure (byteAt m 1) (word32At m 2) (word32At m 6) false)
    else if byteAt m 10 = 1 then .ok (.genConfigure (byteAt m 1) (word32At m 2) (word32At m 6) true)
    else .error .badField
  | .genLoad => .ok (.genLoad (byteAt m 1) (word64At m 2))
  | .genEnable => .ok (.genEnable (byteAt m 1))
  | .genDisable => .ok (.genDisable (byteAt m 1))
  | .tmrArm => .ok (.tmrArm (byteAt m 1) (word64At m 2))
  | .tmrCancel => .ok (.tmrCancel (byteAt m 1))
  | .romChip => .ok (.romChip (byteAt m 1))
  | .romLayout => .ok (.romLayout (byteAt m 1))
  | .romPredef => .ok (.romPredef (byteAt m 1))
  | .encBit0 => .ok .encBit0
  | .encBit1 => .ok .encBit1
  | .encPad => .ok .encPad
  | .encode => .ok .encode

/-- Decode a byte string with a row already found: length first, then the fields. -/
def decodeRow (r : OpRow) (m : List Byte) : Except DecodeError Instr :=
  if r.fits m.length then decodeFields r.op m else .error .badLength

/-- Decode a message of any port: the opcode, the length, the fields (rule R119). -/
def decode (m : List Byte) : Except DecodeError Instr :=
  match m with
  | [] => .error .badOpcode
  | opc :: _ =>
    match rowOf opc with
    | none => .error .badOpcode
    | some r => decodeRow r m

/-- Decode a message that arrived on a port (rule R113): an opcode of another port is illegal there (rule R114), and that
check comes before the length. -/
def decodeOn (p : Port) (m : List Byte) : Except DecodeError Instr :=
  match m with
  | [] => .error .badOpcode
  | opc :: _ =>
    match rowOf opc with
    | none => .error .badOpcode
    | some r => if r.port = p then decodeRow r m else .error .badOpcode

/-! ### The encoder -/

/-- The opcode byte of an operation (rule R112). -/
def Op.opc : Op → Byte
  | .cfg => 0x01
  | .submit => 0x02
  | .status => 0x03
  | .statusRead => 0x04
  | .shutdown => 0x05
  | .complete => 0x10
  | .wake => 0x11
  | .genConfigure => 0x80
  | .genLoad => 0x81
  | .genEnable => 0x82
  | .genDisable => 0x83
  | .tmrArm => 0x90
  | .tmrCancel => 0x91
  | .romChip => 0xA0
  | .romLayout => 0xA1
  | .romPredef => 0xA2
  | .encBit0 => 0xB0
  | .encBit1 => 0xB1
  | .encPad => 0xB2
  | .encode => 0xB3

/-- The bytes after the opcode (rules R92 to R96 and R112). -/
def encodeFields : Instr → List Byte
  | .cfg ch w0 w1 w2 w3 => ch :: (bytes32 w0 ++ bytes32 w1 ++ bytes32 w2 ++ bytes32 w3)
  | .submit ch now frame => ch :: (bytes64 now ++ frame)
  | .status ch => [ch]
  | .statusRead ch maxLen => ch :: bytes32 maxLen
  | .shutdown ch => [ch]
  | .complete ch now => ch :: bytes64 now
  | .wake ch now => ch :: bytes64 now
  | .genConfigure ch a p inv => ch :: (bytes32 a ++ bytes32 p ++ [if inv then 1 else 0])
  | .genLoad ch bits => ch :: bytes64 bits
  | .genEnable ch => [ch]
  | .genDisable ch => [ch]
  | .tmrArm ch d => ch :: bytes64 d
  | .tmrCancel ch => [ch]
  | .romChip id => [id]
  | .romLayout id => [id]
  | .romPredef ix => [ix]
  | .encBit0 => []
  | .encBit1 => []
  | .encPad => []
  | .encode => []

/-- The message of an operation. -/
def encode (i : Instr) : List Byte := i.op.opc :: encodeFields i

/-- The port an operation's messages travel on (rule R112, column "class"). -/
def portOf (i : Instr) : Port := ((rowOf i.op.opc).map OpRow.port).getD .internal

/-! ### The opcode table's numbering of bits -/

/-- The bytes of an instruction whose bits are `w` as spec/opcode_table.json numbers them: bit 0 is the least significant
bit of byte 0. Bits at `nbits` and above are 0, up to the length rule R91 gives the opcode. -/
def tableBytes (nbits w : Nat) : List Byte :=
  let v := w % 2 ^ nbits
  let len := ((rowOf (BitVec.ofNat 8 v)).map OpRow.len).getD 1
  (List.range (max (nbits / 8) len)).map (fun i => BitVec.ofNat 8 (v / 2 ^ (8 * i)))

/-- The instruction the decoder reads from those bits. -/
def decodeTableWord (nbits w : Nat) : Option Instr :=
  match decode (tableBytes nbits w) with
  | .ok i => some i
  | .error _ => none

end Sys2Proof
end

