-- ==== Sys2Proof/Config.lean ====
section
/-! DEFINITION. The parameters of the block (00_scope.md rules R4 and R5): the entries of the timing-profile ROM as data
types, the two bounds the spec gives a number for, and the parameters it leaves OPEN as constants WITHOUT a body, so that
no proof can see a value of one. -/

namespace Sys2Proof

/-- A chip entry, `ChipTimingProfile` (30_encoding.md rule R109). -/
structure ChipProfile where
  t0ActiveNs           : Ns32
  tPassiveMinNs        : Ns32
  doublePassiveForZero : Bool
  tPassiveMaxNs        : Ns32
  tResetNs             : Ns32
  deriving DecidableEq, Repr, Inhabited

/-- A layout entry, `LayoutProfile` (30_encoding.md rule R110): the channel count `C` and `MAP[0..C-1]`. -/
structure LayoutProfile where
  channels : Nat
  map      : List Nat
  deriving DecidableEq, Repr, Inhabited

/-- The three tables of the timing-profile ROM (40_profile_rom.md rule R130), each a partial map held as a list of
(key, entry) pairs. A predefined entry is the pair (layout id, chip id) (30_encoding.md rule R111). -/
structure RomTables where
  chips   : List (RomId × ChipProfile)
  layouts : List (RomId × LayoutProfile)
  predefs : List (RomId × (RomId × RomId))
  deriving DecidableEq, Repr, Inhabited

/-- A rendered status report (10_state.md rule R47: `SNAP`, a byte string). `SNAP_OFF` has 32 bits and does not wrap
(00_scope.md rule R8), so it counts the bytes of a text below 2^32 bytes; a longer text is no value of this type. DEDUCED:
assumption log 13. -/
structure StatusText where
  bytes : List Byte := []
  fits  : bytes.length < 2 ^ 32 := by decide
  deriving DecidableEq, Repr, Inhabited

namespace Config

/-- `LEDMAX_LIMIT`: the top of the LED-count range (00_scope.md rules R4 and R5). -/
def ledMaxLimit : Nat := 2048

/-- `DEFAULT_RETRIES`: the retry budget when CFG gives none (00_scope.md rules R4 and R5). -/
def defaultRetries : BitVec 8 := 3

/-- `NUM_CHANNELS - 1`, the last channel id of the registry: OPEN, so that `NUM_CHANNELS` is 1 to 256 (00_scope.md rule
R5). Assumption log 2. -/
opaque lastChannel : BitVec 8

/-- `RENDER_STATUS`: from the 72-byte snapshot record to the report's text: OPEN (00_scope.md rule R5, 43_session.md rule
R261). Assumption log 3. -/
opaque renderStatus : List Byte → StatusText

/-- The level of each channel's generator output before the first GEN_CONFIGURE (`true` is high), by channel id: any value
(70_reset_and_hazards.md rule R354, 93_implementation_defined.md section 2). Assumption log 21. -/
opaque idleLevel : Nat → Bool

end Config

end Sys2Proof
end

