-- ==== Sys2Proof/Machine/Rom.lean ====
section
/-! DEFINITION. The timing-profile ROM (40_profile_rom.md): when its contents are well-formed (70_reset_and_hazards.md rule
R353), the ROM as the block holds it, and its three lookups (rules R131 to R133). -/

namespace Sys2Proof.Machine

/-- Keys strictly rising: a partial map has one list that stands for it. -/
abbrev RisingKeys {α : Type} (t : List (RomId × α)) : Prop := t.Pairwise (fun a b => a.1 < b.1)

/-- A table maps an id. -/
def hasKey {α : Type} (t : List (RomId × α)) (id : RomId) : Bool := t.any (fun e => e.1 == id)

/-- A chip entry of rule R135. -/
def ChipProfile.wf (p : ChipProfile) : Bool := p.tPassiveMinNs ≤ p.tPassiveMaxNs

/-- A layout entry of rule R137. -/
def LayoutProfile.wf (l : LayoutProfile) : Bool :=
  (l.channels == 3 || l.channels == 4) && l.map.length == l.channels && l.map.all (· < l.channels)

/-- Conditions 1 to 4 of rule R353 (condition 5 is about the sessions: rule R6). -/
def RomTables.wf (t : RomTables) : Bool :=
  decide (RisingKeys t.chips) && decide (RisingKeys t.layouts) && decide (RisingKeys t.predefs)
    && !hasKey t.chips 0 && !hasKey t.layouts 0
    && t.chips.all (fun e => ChipProfile.wf e.2)
    && t.layouts.all (fun e => LayoutProfile.wf e.2)
    && t.predefs.all (fun e => hasKey t.layouts e.2.1 && hasKey t.chips e.2.2)

/-- The ROM of a block: tables that rule R353 admits. An ill-formed ROM is no value of this type, and `launch` refuses it. -/
structure Rom where
  tables : RomTables := ⟨[], [], []⟩
  ok     : RomTables.wf tables = true := by decide
  deriving DecidableEq, Repr, Inhabited

end Sys2Proof.Machine

namespace Sys2Proof

/-- `CHIP_ROM`, `LAYOUT_ROM` and `PREDEF_ROM` as the platform supplies them: OPEN (00_scope.md rule R5, 40_profile_rom.md
rules R130 and R140), but for the launch premise of rule R353, which the type holds. Assumption log 1. -/
opaque Config.rom : Machine.Rom

end Sys2Proof

namespace Sys2Proof.Machine

/-- The entry a partial map gives a key. -/
def entryOf {α : Type} (t : List (RomId × α)) (id : RomId) : Option α :=
  (t.find? (fun e => e.1 == id)).map Prod.snd

/-- ROM_CHIP (rule R131). -/
def Rom.chip (r : Rom) (id : RomId) : Option ChipProfile :=
  if id = 0 then none else entryOf r.tables.chips id

/-- ROM_LAYOUT (rule R132). -/
def Rom.layout (r : Rom) (id : RomId) : Option LayoutProfile :=
  if id = 0 then none else entryOf r.tables.layouts id

/-- ROM_PREDEF (rule R133): index 0 is not reserved. -/
def Rom.predef (r : Rom) (ix : RomId) : Option (RomId × RomId) := entryOf r.tables.predefs ix

/-- `CMAX` (00_scope.md rule R6): the largest channel count of any layout. It exists only when there is a layout
(rule R353, condition 5). -/
def Rom.cmax (r : Rom) : Option Nat :=
  match r.tables.layouts with
  | [] => none
  | ls => some (ls.foldr (fun e m => max e.2.channels m) 0)

end Sys2Proof.Machine
end

