-- ==== Sys2Proof/Machine/State.lean ====
section
/-! DEFINITION. The state of the block (10_state.md) and of the two devices each channel has (42_engine.md section 6), the
reasons a step can stop, and the state after power-on (70_reset_and_hazards.md rule R350). Plain data throughout. -/

namespace Sys2Proof.Machine

/-! ### The reasons a step can stop -/

/-- Faults. -/
inductive Fault where
  /-- LoadNext would read a buffer entry that holds no word of the buffered frame: one at or past `WCOUNT`, or one that
  nothing has written. Raised by SUBMIT, COMPLETE and WAKE, only in states that no run reaches. 93_implementation_defined.md
  section 2: "a model that reads one has a bug and records a `fault`". Safe. -/
  | staleWord (index : Nat)
  /-- An output command names a channel that has no pulse generator and no timer (70_reset_and_hazards.md rule R354: one of
  each for every id below `NUM_CHANNELS`). Raised by the six output commands; the block never emits one. Safe. -/
  | noDevice (ch : ChanId)
  /-- The encoder closes a word while its channel holds no session: there is no `BUF` and no `CAP`
  (10_state.md rule R53). Raised by ENC_BIT0, ENC_BIT1, ENC_PAD and ENCODE run on their own. Safe. -/
  | noBuffer (ch : ChanId)
  deriving DecidableEq, Repr

/-- Refusals. -/
inductive Refusal where
  /-- exec's answer for an instruction without a meaning. Safe. -/
  | notModelled (mnemonic : String)
  /-- A session's registers name a chip or layout that the ROM does not hold, which rules R25, R39 and R54 exclude. Raised by
  SUBMIT, COMPLETE and WAKE. 93_implementation_defined.md section 3, "Register combinations outside the invariants of rule
  R54": "`refuse` if supplied as a launch state". Safe. -/
  | danglingProfile (ch : ChanId)
  /-- CFG selects VARIABLE mode and `LAYOUT_ROM` is empty, so that `CMAX` does not exist. Raised by CFG.
  70_reset_and_hazards.md rule R353, condition 5: "A model refuses a ROM that breaks any of the five." Safe. -/
  | noLayoutForVariable (ch : ChanId)
  /-- The ROM that the block is to be launched with breaks one of the conditions of 70_reset_and_hazards.md rule R353. Raised by
  `launchFrom`, before any step. Safe. -/
  | illFormedRom
  /-- The state that a run is to start from has no channel or more than 256 of them (00_scope.md rule R5), or a session that is
  not FATAL with registers that 10_state.md rule R54 excludes. Raised by `launchFrom`, before any step.
  93_implementation_defined.md section 3: "`refuse` if supplied as a launch state". Safe. -/
  | illFormedLaunch
  /-- Bytes that are no message reached a port that answers none: the output commands' devices, or the internal operations.
  Raised by the step; the block sends no such bytes. Safe. -/
  | notAMessage (port : Port)
  deriving DecidableEq, Repr

/-! ### The registers of a session -/

/-- `ST` (10_state.md rule R30, 42_engine.md rule R190). -/
inductive EngineState where
  | idle
  | sending
  | await
  | failed
  deriving DecidableEq, Repr

/-- `CFG_MODE` (10_state.md rule R24): 0 PREDEF, 1 PAIR, 2 VARIABLE. -/
inductive Mode where
  /-- PREDEF: a legacy predefined-type index. -/
  | predef
  /-- PAIR: an explicit layout and chip. -/
  | pair
  /-- VARIABLE: the in-band header of each frame. -/
  | perFrame
  deriving DecidableEq, Repr

/-- The configuration registers (10_state.md rules R22 to R29). -/
structure CfgRegs where
  /-- `CFG_INV` -/
  inv       : Bool
  /-- `CFG_LEDMAX` -/
  ledMax    : BitVec 12
  /-- `CFG_MODE` -/
  mode      : Mode
  /-- `CFG_LAYOUT` -/
  layout    : RomId
  /-- `CFG_CHIP` -/
  chip      : RomId
  /-- `CFG_MAXRETRY` -/
  maxRetry  : BitVec 8
  /-- `CFG_MAXPASS_NS` -/
  maxPassNs : Ns32
  /-- `CAP` -/
  cap       : BitVec 16
  deriving DecidableEq, Repr

/-- The registers of the pulse-timing state machine (10_state.md rules R30 to R38). -/
structure EngineRegs where
  /-- `ST` -/
  st          : EngineState
  /-- `NOT_READY` -/
  notReady    : Bool
  /-- `PEND_NEW` -/
  pendNew     : Bool
  /-- `PEND_RETRY` -/
  pendRetry   : Bool
  /-- `FATAL` -/
  fatal       : Bool
  /-- `WCOUNT` -/
  wcount      : BitVec 16
  /-- `NEXT` -/
  next        : BitVec 16
  /-- `REMAIN` -/
  remain      : BitVec 16
  /-- `RETRY` -/
  retry       : BitVec 16
  /-- `EXPECT_T` -/
  expectT     : Ns64
  /-- `FRAME_T0` -/
  frameT0     : Ns64
  /-- `TMR_ARMED` -/
  tmrArmed    : Bool
  /-- `TMR_DEADLINE` -/
  tmrDeadline : Ns64
  deriving DecidableEq, Repr

/-- The frame latches (10_state.md rules R39 and R40). -/
structure FrameLatches where
  /-- `F_LAYOUT` -/
  layout    : RomId
  /-- `F_CHIP` -/
  chip      : RomId
  /-- `F_MAXPASS_NS` -/
  maxPassNs : Ns32
  /-- `F_MAXRETRY` -/
  maxRetry  : BitVec 8
  deriving DecidableEq, Repr

/-- A waveform word `{BITS, DUR}` (30_encoding.md rule R107). -/
structure WaveWord where
  bits : Slots
  dur  : Ns64
  deriving DecidableEq, Repr

/-- The output buffer `BUF` (10_state.md rule R41) as a sparse memory: (index, word) pairs with strictly rising indices. An
index that is not listed is unwritten. -/
abbrev Buffer := List (Nat × WaveWord)

/-- The statistics (10_state.md rules R42 to R46). The optional ones hold a value or `none` (rule R45); the three delays are
two's complement. -/
structure Stats where
  /-- `S_UPDATES` -/
  updates     : BitVec 32
  /-- `S_OVERRUNS` -/
  overruns    : BitVec 32
  /-- `S_RETRIES` -/
  retries     : BitVec 32
  /-- `S_ERRORS` -/
  errors      : BitVec 32
  /-- `S_IRQS` -/
  irqs        : BitVec 32
  /-- `S_LAST_RETRIES` -/
  lastRetries : BitVec 16
  /-- `S_LAST_VIOL` -/
  lastViol    : Option (BitVec 64)
  /-- `S_MIN_DELAY` -/
  minDelay    : Option (BitVec 64)
  /-- `S_MAX_DELAY` -/
  maxDelay    : Option (BitVec 64)
  /-- `S_LAST_UPD` -/
  lastUpd     : Option Ns64
  /-- `S_MIN_UPD` -/
  minUpd      : Option Ns64
  /-- `S_MAX_UPD` -/
  maxUpd      : Option Ns64
  deriving DecidableEq, Repr

/-- The status-read buffer (10_state.md rule R47): `SNAP`, `SNAP_OFF`, `SNAP_VALID`. -/
structure SnapBuf where
  text  : StatusText
  off   : BitVec 32
  valid : Bool
  deriving DecidableEq, Repr

/-- A channel session (10_state.md). -/
structure Session where
  cfg   : CfgRegs
  eng   : EngineRegs
  latch : FrameLatches
  buf   : Buffer
  stats : Stats
  snap  : SnapBuf
  deriving DecidableEq, Repr

/-! ### The devices of a channel -/

/-- `GEN`, a channel's pulse generator (42_engine.md section 6). -/
structure Gen where
  /-- `GEN.ACTIVE_NS` -/
  activeNs  : Ns32
  /-- `GEN.PASSIVE_NS` -/
  passiveNs : Ns32
  /-- `GEN.INV` -/
  inv       : Bool
  /-- `GEN.EN` -/
  en        : Bool
  /-- `GEN.WORD` -/
  word      : Option Slots
  deriving DecidableEq, Repr

/-- `TMR`, a channel's timer (42_engine.md section 6): `TMR.REQ`. -/
structure Timer where
  req : Option Ns64
  deriving DecidableEq, Repr

/-- One channel: its registry slot (10_state.md rule R20) and its two devices (70_reset_and_hazards.md rule R354). -/
structure Channel where
  session : Option Session
  gen     : Gen
  tmr     : Timer
  deriving DecidableEq, Repr

/-! ### The encoder -/

/-- The encoder's working registers (10_state.md rule R48): `E_POS`, `E_ACC`, `E_NA`, `E_K`. -/
structure EncRegs where
  pos : BitVec 6
  acc : Slots
  na  : BitVec 7
  k   : BitVec 16
  deriving DecidableEq, Repr

/-- The working registers before a run (41_encoder.md rule R160). -/
def EncRegs.zero : EncRegs := ⟨0, 0, 0, 0⟩

/-- The encoder unit: its working registers and the operands of its last run (41_encoder.md rule R160: `E` and `P`; `CAP` and
`BUF` are those of channel `ch`'s session). The operands' latch is the model's own. Assumption log 4. -/
structure EncUnit where
  regs  : EncRegs
  ch    : ChanId
  chip  : ChipProfile
  bytes : List Byte
  deriving DecidableEq, Repr

/-! ### The block's surroundings -/

/-- What an internal operation returned (00_scope.md rule R9, "`return v` ends the step with the answer `v`"). The model's own
field: no rule of the block reads it. Assumption log 4. -/
inductive Ret where
  | nothing
  | chip (entry : Option ChipProfile)
  | layout (entry : Option LayoutProfile)
  | predef (entry : Option (RomId × RomId))
  | words (k : BitVec 16)
  | capacity (k : BitVec 16)
  deriving DecidableEq, Repr

/-- What the surroundings may do next: send a message to a port, deliver an event that is pending, or a device's own move
(42_engine.md rules R206 and R209, 60_exceptions.md rules R308 and R318). `place` says how many of the inputs behind a move
are handled before the event it raises: the platform may deliver events in any order (rules R308 and R309). -/
inductive Input where
  /-- A message arrives on a port. On the platform port it is one that no device's move has raised: a stray signal to come. -/
  | message (port : Port) (bytes : List Byte)
  /-- An event a device has raised, which is pending until a step handles it (rule R308): a message on the platform port. -/
  | raised (bytes : List Byte)
  /-- A stray signal that is pending (rule R308): raised by a device, but for no word and for no request. -/
  | stray (bytes : List Byte)
  /-- The generator of channel `ch` reaches the end of slot 63 and raises COMPLETE, with the timestamp `now`. -/
  | genDone (ch : ChanId) (now : Ns64) (place : Nat)
  /-- The generator of channel `ch` reaches the end of slot 63 and loses the signal (70_reset_and_hazards.md rule R359). -/
  | genLost (ch : ChanId)
  /-- The timer of channel `ch` fires and raises WAKE, with the timestamp `now`. -/
  | tmrFire (ch : ChanId) (now : Ns64) (place : Nat)
  deriving DecidableEq, Repr

end Sys2Proof.Machine

namespace Sys2Proof.Machine

/-- The state of the machine. -/
structure State where
  /-- The timing-profile ROM (20_memory.md rules R60 and R63). -/
  rom      : Rom
  /-- `CAP_WORDS` (00_scope.md rule R5) where it is not the default: ((ledmax, c), words). -/
  capTable : List ((Nat × Nat) × BitVec 16)
  /-- The registry (10_state.md rule R20) with each channel's devices. Its length is `NUM_CHANNELS`. -/
  chans    : List Channel
  /-- The encoder. -/
  enc      : EncUnit
  /-- What the last internal operation returned. The model's own. -/
  ret      : Ret
  /-- The output command stream (00_scope.md rule R3): every command sent so far, oldest first. -/
  outs     : List (List Byte)
  /-- The answers sent on the host command port so far, oldest first. -/
  answers  : List (List Byte)
  /-- What the surroundings do next, in the order the sessions' locks admit it (20_memory.md rule R78). The model's own. -/
  inbox    : List Input
  deriving DecidableEq, Repr

/-- A pulse generator at power-on: it holds no word and is not enabled. The spec gives its durations no value (assumption log
5), and the level it holds its output at is open (assumption log 21): polarity `level` puts the passive level there. -/
def Gen.powerOn (level : Bool) : Gen := ⟨0, 0, level, false, none⟩

/-- A timer at power-on: no request (70_reset_and_hazards.md rule R350, "no event is pending"). -/
def Timer.powerOn : Timer := ⟨none⟩

/-- A channel at power-on: an empty slot (rule R350). -/
def Channel.powerOn (level : Bool) : Channel := ⟨none, Gen.powerOn level, Timer.powerOn⟩

/-- The channels `first`, `first + 1`, … at power-on. -/
def powerOnChannels (first : Nat) : Nat → List Channel
  | 0 => []
  | n + 1 => Channel.powerOn (Config.idleLevel first) :: powerOnChannels (first + 1) n

/-- The encoder before any run. Assumption log 5. -/
def EncUnit.powerOn : EncUnit := ⟨EncRegs.zero, 0, ⟨0, 0, false, 0, 0⟩, []⟩

/-- `NUM_CHANNELS` as the platform fixes it. -/
def State.suppliedChannels : Nat := Config.lastChannel.toNat + 1

/-- Power-on (70_reset_and_hazards.md rule R350): `NUM_CHANNELS` empty slots, the ROM with its contents, no session, no
output command and no event pending. -/
def State.reset : State :=
  { rom := Config.rom
    capTable := []
    chans := powerOnChannels 0 State.suppliedChannels
    enc := EncUnit.powerOn
    ret := .nothing
    outs := []
    answers := []
    inbox := [] }

end Sys2Proof.Machine
end

