-- ==== Sys2Proof/Machine/Operands.lean ====
section
/-! DEFINITION. The operands: the CFG fields (30_encoding.md rule R97) and their checks (43_session.md rules R242 to R244),
the two frame formats (rules R100 to R106, R246 to R252), the remap and the bit order (41_encoder.md rules R151 and R152),
and the result codes (60_exceptions.md rule R300). -/

namespace Sys2Proof.Machine

/-- The result codes of rule R300. -/
inductive Code where
  | ok
  | cfgLedCount
  | cfgId
  | cfgInsufficient
  | cfgReserved
  | cfgExists
  | frameMalformed
  | frameId
  | noSession
  | badOpcode
  | badLength
  | badChannel
  | capacity
  | fatal
  deriving DecidableEq, Repr

/-- The byte of a result code (rule R300). -/
def Code.byte : Code → Byte
  | .ok => 0x00
  | .cfgLedCount => 0x01
  | .cfgId => 0x02
  | .cfgInsufficient => 0x03
  | .cfgReserved => 0x04
  | .cfgExists => 0x05
  | .frameMalformed => 0x10
  | .frameId => 0x11
  | .noSession => 0x20
  | .badOpcode => 0x21
  | .badLength => 0x22
  | .badChannel => 0x23
  | .capacity => 0x30
  | .fatal => 0x31

/-! ### CFG -/

/-- `INV`, `W0[0]`. -/
def cfgInv (w0 : BitVec 32) : Bool := w0.getLsbD 0

/-- `MODE`, `W0[2:1]`. -/
def cfgModeBits (w0 : BitVec 32) : BitVec 2 := w0.extractLsb' 1 2

/-- `P_LED`, `W0[3]`. -/
def cfgHasLed (w0 : BitVec 32) : Bool := w0.getLsbD 3

/-- `P_SEL`, `W0[4]`. -/
def cfgHasSel (w0 : BitVec 32) : Bool := w0.getLsbD 4

/-- `P_RETRY`, `W0[5]`. -/
def cfgHasRetry (w0 : BitVec 32) : Bool := w0.getLsbD 5

/-- `P_PASS`, `W0[6]`. -/
def cfgHasPass (w0 : BitVec 32) : Bool := w0.getLsbD 6

/-- `PREDEF`, `W0[15:8]`. -/
def cfgPredef (w0 : BitVec 32) : RomId := w0.extractLsb' 8 8

/-- `LAYOUT`, `W0[23:16]`. -/
def cfgLayout (w0 : BitVec 32) : RomId := w0.extractLsb' 16 8

/-- `CHIP`, `W0[31:24]`. -/
def cfgChip (w0 : BitVec 32) : RomId := w0.extractLsb' 24 8

/-- `LEDCOUNT`, `W1[11:0]`. -/
def cfgLedCount (w1 : BitVec 32) : BitVec 12 := w1.extractLsb' 0 12

/-- `MAXRETRY`, `W2[7:0]`. -/
def cfgMaxRetry (w2 : BitVec 32) : BitVec 8 := w2.extractLsb' 0 8

/-- A reserved bit is set: `W0[7]`, `W1[31:12]` or `W2[31:8]` (rule R97). -/
def cfgReservedSet (w0 w1 w2 : BitVec 32) : Bool :=
  w0.getLsbD 7 || w1.extractLsb' 12 20 != 0 || w2.extractLsb' 8 24 != 0

/-- The mode that `MODE` names; 3 is reserved (rule R97). -/
def modeOf (b : BitVec 2) : Option Mode :=
  if b = 0 then some .predef else if b = 1 then some .pair else if b = 2 then some .perFrame else none

/-- The selection of rule R243, with check 4 of rule R242: the layout id and the chip id of a mode. -/
def cfgSelection (rom : Rom) (m : Mode) (w0 : BitVec 32) : Except Code (RomId × RomId) :=
  match m with
  | .predef =>
    match rom.predef (cfgPredef w0) with
    | some e => .ok e
    | none => .error .cfgId
  | .pair =>
    if (rom.layout (cfgLayout w0)).isSome && (rom.chip (cfgChip w0)).isSome then .ok (cfgLayout w0, cfgChip w0)
    else .error .cfgId
  | .perFrame => .ok (0, 0)

/-- The checks of rule R242, in its order. The answer is the mode and the two ids of rule R243. -/
def cfgCheck (rom : Rom) (w0 w1 w2 : BitVec 32) : Except Code (Mode × RomId × RomId) :=
  if cfgReservedSet w0 w1 w2 || (cfgHasSel w0 && (modeOf (cfgModeBits w0)).isNone) then .error .cfgReserved
  else if !cfgHasLed w0 || !cfgHasSel w0 then .error .cfgInsufficient
  else if cfgLedCount w1 = 0 || Config.ledMaxLimit < (cfgLedCount w1).toNat then .error .cfgLedCount
  else
    match modeOf (cfgModeBits w0) with
    | none => .error .cfgReserved
    | some m =>
      match cfgSelection rom m w0 with
      | .error e => .error e
      | .ok ids => .ok (m, ids)

/-- `ceil(a / b)` (00_scope.md rule R8). -/
def ceilDiv (a b : Nat) : Nat := (a + b - 1) / b

/-- The default of `CAP_WORDS`: the exact worst case of the encoder (00_scope.md rule R5, 41_encoder.md rule R166). -/
def capWordsDefault (ledMax c : Nat) : Nat := ceilDiv (ledMax * c * 8) 21

/-- `CAP_WORDS` (00_scope.md rule R5): the platform's value where its table gives one, else the default. -/
def capWords (table : List ((Nat × Nat) × BitVec 16)) (ledMax c : Nat) : BitVec 16 :=
  match table.find? (fun e => e.1 == (ledMax, c)) with
  | some e => e.2
  | none => BitVec.ofNat 16 (capWordsDefault ledMax c)

/-- The channel count that sizes a session's buffer (rule R244): the fixed layout's `C`, or `CMAX` in VARIABLE mode. It is
`none` only when VARIABLE mode meets an empty `LAYOUT_ROM`. -/
def cfgChannels (rom : Rom) (m : Mode) (lay : RomId) : Option Nat :=
  match m with
  | .perFrame => rom.cmax
  | .predef => (rom.layout lay).map LayoutProfile.channels
  | .pair => (rom.layout lay).map LayoutProfile.channels

/-- The configuration registers CFG writes (rule R241). -/
def cfgRegs (m : Mode) (ids : RomId × RomId) (cap : BitVec 16) (w0 w1 w2 w3 : BitVec 32) : CfgRegs :=
  { inv := cfgInv w0
    ledMax := cfgLedCount w1
    mode := m
    layout := ids.1
    chip := ids.2
    maxRetry := if cfgHasRetry w0 then cfgMaxRetry w2 else Config.defaultRetries
    maxPassNs := if cfgHasPass w0 then w3 else 0
    cap := cap }

/-! ### Frames -/

/-- What a frame says before the ROM is asked: the ids, the two overrides (0 where the format has none) and the payload. -/
structure FrameHead where
  layout  : RomId
  chip    : RomId
  passUs  : BitVec 16
  retries : BitVec 8
  payload : List Byte
  deriving DecidableEq, Repr

/-- Byte `i` of the frame. Read only below `len(IN)`. -/
def frameByte (frame : List Byte) (i : Nat) : Byte := frame.getD i 0

/-- The header length `H = IN[0]` (rule R101). -/
def headerLen (frame : List Byte) : Nat := (frameByte frame 0).toNat

/-- A variable-mode frame is malformed (rule R247): `len(IN) < 1`, `H < 5` or `len(IN) < H + 1`. -/
def frameMalformed (frame : List Byte) : Bool :=
  frame.length < 1 || headerLen frame < 5 || frame.length < headerLen frame + 1

/-- The in-band header (rules R101 to R105 and R247 to R251). -/
def variableHead (frame : List Byte) : Except Code FrameHead :=
  if frameMalformed frame then .error .frameMalformed
  else
    .ok
      { layout := frameByte frame 1
        chip := frameByte frame 2
        passUs := frameByte frame 3 ++ frameByte frame 4
        retries := frameByte frame 5
        payload := frame.drop (headerLen frame + 1) }

/-- A fixed-mode frame (rules R100 and R246): all of it is payload, and the ids are the configuration's. -/
def fixedHead (cfg : CfgRegs) (frame : List Byte) : FrameHead :=
  { layout := cfg.layout, chip := cfg.chip, passUs := 0, retries := 0, payload := frame }

/-- The frame format that the session's mode selects (rule R119). -/
def frameHead (cfg : CfgRegs) (frame : List Byte) : Except Code FrameHead :=
  match cfg.mode with
  | .perFrame => variableHead frame
  | .predef => .ok (fixedHead cfg frame)
  | .pair => .ok (fixedHead cfg frame)

/-- The tolerance `mp` of a frame: rule R249 in VARIABLE mode, rule R246 in the fixed modes. -/
def frameTolerance (cfg : CfgRegs) (h : FrameHead) (p : ChipProfile) : Ns32 :=
  match cfg.mode with
  | .perFrame => if h.passUs = 0 then p.tPassiveMaxNs else BitVec.ofNat 32 (h.passUs.toNat * 1000)
  | .predef => if cfg.maxPassNs = 0 then p.tPassiveMaxNs else cfg.maxPassNs
  | .pair => if cfg.maxPassNs = 0 then p.tPassiveMaxNs else cfg.maxPassNs

/-- The retry budget `mr` of a frame: rule R250 in VARIABLE mode, rule R246 in the fixed modes. -/
def frameBudget (cfg : CfgRegs) (h : FrameHead) : BitVec 8 :=
  match cfg.mode with
  | .perFrame => if h.retries = 0 then cfg.maxRetry else h.retries
  | .predef => cfg.maxRetry
  | .pair => cfg.maxRetry

/-- The LED count of a frame (rules R106 and R252). -/
def ledCount (cfg : CfgRegs) (l : LayoutProfile) (payload : List Byte) : Nat :=
  min (payload.length / l.channels) cfg.ledMax.toNat

/-! ### The encoder's input -/

/-- The output bytes of LED `i` (rule R151): `E[i*C + j] = PAY[i*C + MAP[j]]`. -/
def remapLed (l : LayoutProfile) (payload : List Byte) (i : Nat) : List Byte :=
  l.map.map (fun off => payload.getD (i * l.channels + off) 0)

/-- The remap of `N` LEDs (rule R151). -/
def remap (l : LayoutProfile) (n : Nat) (payload : List Byte) : List Byte :=
  (List.range n).flatMap (remapLed l payload)

/-- The bits of a byte, bit 7 first (rules R65 and R152). -/
def byteBits (b : Byte) : List Bool :=
  [b.getLsbD 7, b.getLsbD 6, b.getLsbD 5, b.getLsbD 4, b.getLsbD 3, b.getLsbD 2, b.getLsbD 1, b.getLsbD 0]

/-- The bits of a byte sequence in the order the encoder takes them (rule R152). -/
def bitsOf (e : List Byte) : List Bool := e.flatMap byteBits

end Sys2Proof.Machine
end

