-- ==== Sys2Proof/Machine/Flags.lean ====
section
/-! DEFINITION. The block has no condition codes (10_state.md rule R50). This file holds what stands in their place: the
verdicts a COMPLETE and a WAKE compute, the optional statistics, and the flags and valid bits the snapshot record shows
(30_encoding.md rule R99). -/

namespace Sys2Proof.Machine

/-! ### Verdicts -/

/-- The delay of a completion signal, a signed number of ns (42_engine.md rule R195): negative means early. -/
def delayOf (now expectT : Ns64) : Int := (now.toNat : Int) - (expectT.toNat : Int)

/-- Within tolerance (42_engine.md rules R195 and R196): a signed delay against an unsigned tolerance, as integers. -/
def withinTolerance (delay : Int) (maxPass : Ns32) : Bool := delay ≤ (maxPass.toNat : Int)

/-- The retry budget is exhausted: `RETRY > F_MAXRETRY` after the increment (42_engine.md rule R199). -/
def budgetExhausted (retry : BitVec 16) (maxRetry : BitVec 8) : Bool := maxRetry.toNat < retry.toNat

/-- The timer's request is due (42_engine.md rule R201): armed, and not before the deadline. -/
def wakeDue (e : EngineRegs) (now : Ns64) : Bool := e.tmrArmed && e.tmrDeadline ≤ now

/-- The reset and failure window (60_exceptions.md rule R316): `tResetNs`. -/
def resetWindow (p : ChipProfile) : Nat := p.tResetNs.toNat

/-- The retry window (42_engine.md rule R200): `floor(3 * tResetNs / 2)`. -/
def retryWindow (p : ChipProfile) : Nat := 3 * p.tResetNs.toNat / 2

/-- A deadline: a time plus a window. -/
def deadlineAt (now : Ns64) (window : Nat) : Ns64 := now + BitVec.ofNat 64 window

/-! ### The optional statistics (10_state.md rule R45) -/

/-- A delay as the signed 64-bit register holds it. -/
def delayWord (d : Int) : BitVec 64 := BitVec.ofInt 64 d

/-- The minimum of a signed optional statistic and a new delay; the first one is taken as it is. -/
def minDelayWith (old : Option (BitVec 64)) (d : Int) : Option (BitVec 64) :=
  match old with
  | none => some (delayWord d)
  | some o => some (if d < o.toInt then delayWord d else o)

/-- The maximum of a signed optional statistic and a new delay. -/
def maxDelayWith (old : Option (BitVec 64)) (d : Int) : Option (BitVec 64) :=
  match old with
  | none => some (delayWord d)
  | some o => some (if o.toInt < d then delayWord d else o)

/-- The minimum of an unsigned optional statistic and a new duration. -/
def minUpdWith (old : Option Ns64) (d : Ns64) : Option Ns64 :=
  match old with
  | none => some d
  | some o => some (if d < o then d else o)

/-- The maximum of an unsigned optional statistic and a new duration. -/
def maxUpdWith (old : Option Ns64) (d : Ns64) : Option Ns64 :=
  match old with
  | none => some d
  | some o => some (if o < d then d else o)

/-! ### The snapshot record (30_encoding.md rule R99) -/

/-- `READY`: 1 when `NOT_READY = 0`. -/
def readyByte (e : EngineRegs) : Byte := if e.notReady then 0 else 1

/-- `VALID`: bit 0 LAST_VIOL, bit 1 MIN_DELAY, bit 2 MAX_DELAY, bit 3 LAST_UPD, bit 4 MIN_UPD, bit 5 MAX_UPD, bits 7:6 zero. -/
def validByte (t : Stats) : Byte :=
  (0 : BitVec 2) ++ BitVec.ofBool t.maxUpd.isSome ++ BitVec.ofBool t.minUpd.isSome ++ BitVec.ofBool t.lastUpd.isSome
    ++ BitVec.ofBool t.maxDelay.isSome ++ BitVec.ofBool t.minDelay.isSome ++ BitVec.ofBool t.lastViol.isSome

/-- "A field whose valid bit is 0 reads as 0." -/
def optField (v : Option (BitVec 64)) : BitVec 64 := v.getD 0

end Sys2Proof.Machine
end

