-- ==== Sys2Proof/Machine/Ops.lean ====
section
/-! DEFINITION. The operations the meanings share: outcomes, the output buffer, the registry, the two devices, the answers,
the engine's internal procedures (42_engine.md section 2), and the capacity fault (60_exceptions.md rule R305), which is the
block's one exception. The block has no return from an exception (rule R312): only SHUTDOWN ends the fault state. -/

namespace Sys2Proof.Machine

/-- A part of a step: a value, or the reason the step stops. -/
abbrev Result (α : Type) := Host.Outcome α Fault Refusal

/-- Go on with the value, if there is one. -/
def andThen {α β : Type} (r : Result α) (f : α → Result β) : Result β :=
  match r with
  | .next a => f a
  | .fault e => .fault e
  | .refused e => .refused e

/-! ### The output buffer as a memory (10_state.md rule R41, 20_memory.md rule R69) -/

/-- The canonical form: indices strictly rising. An unlisted index is unwritten, so no entry stands for nothing. -/
abbrev Memory.wf (m : Buffer) : Prop := m.Pairwise (fun a b => a.1 < b.1)

/-- `BUF[k]`, or `none` where nothing has been written. -/
def Memory.read (m : Buffer) (k : Nat) : Option WaveWord := (m.find? (fun e => e.1 == k)).map Prod.snd

/-- `BUF[k] <- w`. -/
def Memory.write (m : Buffer) (k : Nat) (w : WaveWord) : Buffer :=
  match m with
  | [] => [(k, w)]
  | e :: rest =>
    if k < e.1 then (k, w) :: e :: rest
    else if k = e.1 then (k, w) :: rest
    else e :: Memory.write rest k w

/-! ### The registry (10_state.md rule R20) -/

/-- Channel `ch`, if `ch < NUM_CHANNELS`. -/
def State.channel? (s : State) (ch : ChanId) : Option Channel := s.chans[ch.toNat]?

/-- The session in slot `ch`, if there is one. -/
def State.session? (s : State) (ch : ChanId) : Option Session := (s.channel? ch).bind Channel.session

/-- Put a channel back. -/
def State.setChannel (s : State) (ch : ChanId) (c : Channel) : State :=
  { s with chans := s.chans.set ch.toNat c }

/-! ### The devices (42_engine.md section 6) -/

/-- GEN_CONFIGURE (rule R205). -/
def Gen.configure (g : Gen) (activeNs passiveNs : Ns32) (inv : Bool) : Gen :=
  { g with activeNs := activeNs, passiveNs := passiveNs, inv := inv }

/-- GEN_LOAD (rule R206). The block never loads a word while the generator is still sending one (60_exceptions.md rule R317), as
long as the surroundings keep their duties. The rules do not say what the generator does otherwise: that the new word takes the
place of the old one, which raises no COMPLETE, is a DESIGN CHOICE (assumption log 18). -/
def Gen.load (g : Gen) (bits : Slots) : Gen := { g with word := some bits }

/-- GEN_ENABLE (rule R207). -/
def Gen.enable (g : Gen) : Gen := { g with en := true }

/-- GEN_DISABLE (rule R208). -/
def Gen.disable (g : Gen) : Gen := { g with en := false, word := none }

/-- The end of slot 63 (rule R206): the word is sent once. -/
def Gen.finish (g : Gen) : Gen := { g with word := none }

/-- The generator is sending a word (rules R206 and R207): enabled, with a word loaded. -/
def Gen.busy (g : Gen) : Bool := g.en && g.word.isSome

/-- TMR_ARM (rule R209): it replaces any earlier request. -/
def Timer.arm (_t : Timer) (deadline : Ns64) : Timer := ⟨some deadline⟩

/-- TMR_CANCEL (rule R210). -/
def Timer.cancel (_t : Timer) : Timer := ⟨none⟩

/-- The timer may fire at `now` (rule R209): a request is pending and its deadline is reached. -/
def Timer.due (t : Timer) (now : Ns64) : Bool :=
  match t.req with
  | some d => d ≤ now
  | none => false

/-- The active level (`true` is high): high with `INV = 0`, low with `INV = 1` (rule R205). -/
def Gen.activeLevel (g : Gen) : Bool := !g.inv

/-- The passive level: low with `INV = 0`, high with `INV = 1` (rule R205). -/
def Gen.passiveLevel (g : Gen) : Bool := g.inv

/-- The slots of a word as the generator sends them (rule R206, 70_reset_and_hazards.md rule R365), slot 0 first: the output
level and how long it is held. -/
def Gen.wave (g : Gen) (bits : Slots) : List (Bool × Nat) :=
  (List.range 64).map (fun p =>
    if bits.getLsbD (63 - p) then (g.activeLevel, g.activeNs.toNat) else (g.passiveLevel, g.passiveNs.toNat))

/-- The output of a generator until its next command: the slots of the word it sends, if it sends one, and then the level it
holds, which is passive from the end of slot 63 until the next GEN_LOAD begins (rule R206), and passive while it is disabled
(rule R208). Rule R205 gives a GEN_CONFIGURE an effect on the words loaded after it, and says nothing of one loaded before: that
such a word is sent with the durations and the polarity in force, from slot 0 on, is a DESIGN CHOICE (assumption log 21). -/
def Gen.output (g : Gen) : List (Bool × Nat) × Bool :=
  match g.word with
  | some bits => (if g.en then g.wave bits else [], g.passiveLevel)
  | none => ([], g.passiveLevel)

/-- What an output command does to the device that receives it (rules R205 to R210). An operation that is no output command
does nothing to a device. -/
def deviceEffect (i : Instr) (c : Channel) : Channel :=
  match i with
  | .genConfigure _ a p inv => { c with gen := c.gen.configure a p inv }
  | .genLoad _ bits => { c with gen := c.gen.load bits }
  | .genEnable _ => { c with gen := c.gen.enable }
  | .genDisable _ => { c with gen := c.gen.disable }
  | .tmrArm _ d => { c with tmr := c.tmr.arm d }
  | .tmrCancel _ => { c with tmr := c.tmr.cancel }
  | .cfg _ _ _ _ _ => c
  | .submit _ _ _ => c
  | .status _ => c
  | .statusRead _ _ => c
  | .shutdown _ => c
  | .complete _ _ => c
  | .wake _ _ => c
  | .romChip _ => c
  | .romLayout _ => c
  | .romPredef _ => c
  | .encBit0 => c
  | .encBit1 => c
  | .encPad => c
  | .encode => c

/-- The devices after a step's output commands, in the order they were emitted (20_memory.md rule R79). -/
def deviceEffects (cmds : List Instr) (c : Channel) : Channel := cmds.foldl (fun c i => deviceEffect i c) c

/-- An output command reaches the devices of its channel. -/
def toDevice (ch : ChanId) (f : Channel → Channel) (s : State) : Result State :=
  match s.channel? ch with
  | some c => .next (s.setChannel ch (f c))
  | none => .fault (.noDevice ch)

/-! ### Ending a step -/

/-- The answer on the host command port (30_encoding.md rule R98): the code, and after `OK` the rest. -/
def answer (code : Code) (rest : List Byte) (s : State) : State :=
  { s with answers := s.answers ++ [code.byte :: rest] }

/-- An answer that changes nothing else (60_exceptions.md rule R311). -/
def answerOnly (code : Code) (s : State) : Result State := .next (answer code [] s)

/-- The end of a session's step: its slot's new contents, and the output commands it emitted, in order. They join the output
stream and reach the channel's devices. -/
def commit (ch : ChanId) (c : Channel) (session : Option Session) (cmds : List Instr) (s : State) : State :=
  { s with
    chans := s.chans.set ch.toNat (deviceEffects cmds { c with session := session })
    outs := s.outs ++ cmds.map encode }

/-- The checks before a host command's own rule (30_encoding.md rule R113, step 3; 43_session.md rule R240): the channel id,
then the session. CFG and SHUTDOWN have their own. -/
def withSession (ch : ChanId) (s : State) (f : Channel → Session → Result State) : Result State :=
  match s.channel? ch with
  | none => answerOnly .badChannel s
  | some c =>
    match c.session with
    | none => answerOnly .noSession s
    | some ss => if ss.eng.fatal then answerOnly .fatal s else f c ss

/-- An event's session (60_exceptions.md rules R306 and R322): an event to a bad channel, an empty slot or a fatal session is
ignored. -/
def onEvent (ch : ChanId) (s : State) (f : Channel → Session → Result State) : Result State :=
  match s.channel? ch with
  | none => .next s
  | some c =>
    match c.session with
    | none => .next s
    | some ss => if ss.eng.fatal then .next s else f c ss

/-! ### The engine's procedures -/

/-- A part of a session's step: the session so far and the output commands it emits, in order. -/
abbrev SessionStep := Session × List Instr

/-- The chip entry of the frame in the buffer, `CHIP_ROM[F_CHIP]` (42_engine.md rule R215). -/
def frameChip (rom : Rom) (ch : ChanId) (ss : Session) : Result ChipProfile :=
  match rom.chip ss.latch.chip with
  | some p => .next p
  | none => .refused (.danglingProfile ch)

/-- The word LoadNext reads: `BUF[NEXT]`, for `NEXT < WCOUNT` (42_engine.md rule R193). -/
def nextWord (buf : Buffer) (e : EngineRegs) : Option WaveWord :=
  if e.next < e.wcount then Memory.read buf e.next.toNat else none

/-- The registers after LoadNext has handed over a word of duration `dur` (42_engine.md rule R193). -/
def EngineRegs.loaded (e : EngineRegs) (now dur : Ns64) : EngineRegs :=
  { e with expectT := now + dur, next := e.next + 1, remain := e.remain - 1 }

/-- LoadNext (42_engine.md rule R193). -/
def loadNext (ch : ChanId) (now : Ns64) (ss : Session) : Result SessionStep :=
  match nextWord ss.buf ss.eng with
  | some w => .next ({ ss with eng := ss.eng.loaded now w.dur }, [.genLoad ch w.bits])
  | none => .fault (.staleWord ss.eng.next.toNat)

/-- The cursor at the start of an attempt (42_engine.md rule R192). -/
def EngineRegs.rewound (e : EngineRegs) : EngineRegs := { e with next := 0, remain := e.wcount }

/-- The engine is SENDING and not ready (42_engine.md rule R192). -/
def EngineRegs.started (e : EngineRegs) : EngineRegs := { e with st := .sending, notReady := true }

/-- StartAttempt (42_engine.md rule R192), with the frame's chip entry. -/
def startAttempt (ch : ChanId) (p : ChipProfile) (now : Ns64) (ss : Session) : Result SessionStep :=
  andThen (loadNext ch now { ss with eng := ss.eng.rewound }) fun (ss', load) =>
    .next ({ ss' with eng := ss'.eng.started },
      [Instr.genConfigure ch p.t0ActiveNs p.tPassiveMinNs ss.cfg.inv] ++ load ++ [Instr.genEnable ch])

/-- The registers after Arm(`t`) (42_engine.md rule R194). -/
def EngineRegs.armed (e : EngineRegs) (t : Ns64) : EngineRegs := { e with tmrArmed := true, tmrDeadline := t }

/-- The statistics of a completed frame (42_engine.md rule R197). -/
def Stats.finished (t : Stats) (d : Ns64) (retry : BitVec 16) : Stats :=
  { t with
    updates := t.updates + 1
    lastUpd := some d
    minUpd := minUpdWith t.minUpd d
    maxUpd := maxUpdWith t.maxUpd d
    lastRetries := retry }

/-- FinishFrame (42_engine.md rule R197). -/
def finishFrame (ch : ChanId) (p : ChipProfile) (now : Ns64) (ss : Session) : SessionStep :=
  let t := deadlineAt now (resetWindow p)
  ({ ss with
     stats := ss.stats.finished (now - ss.eng.frameT0) ss.eng.retry
     eng := { ss.eng with st := .await, pendNew := false, pendRetry := false }.armed t },
   [.tmrArm ch t])

/-- The statistics of a violation (42_engine.md rule R198). -/
def Stats.violated (t : Stats) (delay : Int) : Stats :=
  { t with retries := t.retries + 1, lastViol := some (delayWord delay) }

/-- The statistics of an abandoned frame (42_engine.md rule R198, exhaustion branch). -/
def Stats.abandoned (t : Stats) (retry : BitVec 16) : Stats :=
  { t with errors := t.errors + 1, lastRetries := retry }

/-- Violation (42_engine.md rule R198). -/
def violation (ch : ChanId) (p : ChipProfile) (now : Ns64) (delay : Int) (ss : Session) : SessionStep :=
  let retry := ss.eng.retry + 1
  if budgetExhausted retry ss.latch.maxRetry then
    let t := deadlineAt now (resetWindow p)
    ({ ss with
       stats := (ss.stats.violated delay).abandoned retry
       eng := { ss.eng with retry := retry, remain := 0, st := .failed, pendRetry := false }.armed t },
     [.tmrArm ch t])
  else
    let t := deadlineAt now (retryWindow p)
    ({ ss with
       stats := ss.stats.violated delay
       eng := { ss.eng with retry := retry, remain := 0, st := .await, pendRetry := true }.armed t },
     [.tmrArm ch t])

/-- Abort (42_engine.md rule R203). -/
def abort (ch : ChanId) (ss : Session) : SessionStep :=
  if ss.eng.st = .sending then
    ({ ss with eng := { ss.eng with remain := 0, pendRetry := false } }, [.genDisable ch])
  else
    ({ ss with eng := { ss.eng with pendRetry := false } }, [])

/-- Accept (42_engine.md rule R204), with the new frame's chip entry. -/
def accept (ch : ChanId) (p : ChipProfile) (now : Ns64) (ss : Session) : Result SessionStep :=
  match ss.eng.st with
  | .await => .next ({ ss with eng := { ss.eng with pendNew := true, st := .await } }, [])
  | .failed => .next ({ ss with eng := { ss.eng with pendNew := true, st := .await } }, [])
  | .idle => startAttempt ch p now { ss with eng := { ss.eng with frameT0 := now } }
  | .sending => startAttempt ch p now { ss with eng := { ss.eng with frameT0 := now } }

/-- Taking the capacity fault (60_exceptions.md rule R305), the block's one exception: what the step did before it stays. -/
def capacityFault (ch : ChanId) (ss : Session) : SessionStep :=
  ({ ss with
     eng :=
       { ss.eng with
         fatal := true
         notReady := true
         pendNew := false
         pendRetry := false
         remain := 0
         tmrArmed := false } },
   if ss.eng.tmrArmed then [.tmrCancel ch] else [])

/-! ### The registers of a new session (10_state.md rule R52) -/

/-- The engine's registers at session reset. -/
def EngineRegs.created : EngineRegs :=
  { st := .idle
    notReady := false
    pendNew := false
    pendRetry := false
    fatal := false
    wcount := 0
    next := 0
    remain := 0
    retry := 0
    expectT := 0
    frameT0 := 0
    tmrArmed := false
    tmrDeadline := 0 }

/-- The statistics at session reset. -/
def Stats.created : Stats :=
  { updates := 0
    overruns := 0
    retries := 0
    errors := 0
    irqs := 0
    lastRetries := 0
    lastViol := none
    minDelay := none
    maxDelay := none
    lastUpd := none
    minUpd := none
    maxUpd := none }

/-- A new session: IDLE, ready, no frame, every statistic 0 or `none` (70_reset_and_hazards.md rule R351). -/
def Session.created (cfg : CfgRegs) : Session :=
  { cfg := cfg
    eng := EngineRegs.created
    latch := ⟨0, 0, 0, 0⟩
    buf := []
    stats := Stats.created
    snap := ⟨⟨[], by decide⟩, 0, false⟩ }

end Sys2Proof.Machine
end

