-- ==== Sys2Proof/Machine/Slots.lean ====
section
/-! DEFINITION. The bit-pattern encoder (41_encoder.md) as pure functions over its working registers and `BUF`: the slot
primitives (rules R154 to R156), the per-bit operations and the whole frame (rules R157 to R160). A run is given the frame's
chip entry `P` and `CAP`. The error side carries the run as the capacity fault found it. -/

namespace Sys2Proof.Machine

/-- The encoder's working registers and the buffer it writes. -/
structure EncRun where
  regs : EncRegs
  buf  : Buffer
  deriving DecidableEq, Repr

/-- `WordDur(na)` (rule R156). -/
def wordDur (p : ChipProfile) (na : Nat) : Nat := na * p.t0ActiveNs.toNat + (64 - na) * p.tPassiveMinNs.toNat

/-- `E_ACC[63 - E_POS] <- s` (rule R154). -/
def putSlot (acc : Slots) (pos : BitVec 6) (s : Bool) : Slots :=
  let m := BitVec.twoPow 64 (63 - pos.toNat)
  if s then acc ||| m else acc &&& ~~~m

/-- CloseWord (rule R155): the capacity check comes first. -/
def closeWord (p : ChipProfile) (cap : BitVec 16) (x : EncRun) : Except EncRun EncRun :=
  if cap ≤ x.regs.k then .error x
  else
    .ok
      { regs := ⟨0, 0, 0, x.regs.k + 1⟩
        buf := Memory.write x.buf x.regs.k.toNat ⟨x.regs.acc, BitVec.ofNat 64 (wordDur p x.regs.na.toNat)⟩ }

/-- EmitSlot (rule R154). `E_POS` reaches 64 exactly when it was 63. -/
def emitSlot (p : ChipProfile) (cap : BitVec 16) (s : Bool) (x : EncRun) : Except EncRun EncRun :=
  let regs : EncRegs :=
    { x.regs with acc := putSlot x.regs.acc x.regs.pos s, na := if s then x.regs.na + 1 else x.regs.na }
  if x.regs.pos = 63 then closeWord p cap { x with regs := regs }
  else .ok { x with regs := { regs with pos := x.regs.pos + 1 } }

/-- Up to `n` passive slots of a bit's trailing phase: a fresh word drops the rest (rules R157 and R161). -/
def trailing (p : ChipProfile) (cap : BitVec 16) (n : Nat) (x : EncRun) : Except EncRun EncRun :=
  match n with
  | 0 => .ok x
  | n + 1 =>
    if x.regs.pos = 0 then .ok x
    else
      match emitSlot p cap false x with
      | .ok y => trailing p cap n y
      | .error y => .error y

/-- ENC_BIT0 (rule R157). -/
def encodeZero (p : ChipProfile) (cap : BitVec 16) (x : EncRun) : Except EncRun EncRun :=
  match emitSlot p cap true x with
  | .ok y => trailing p cap (if p.doublePassiveForZero then 2 else 1) y
  | .error y => .error y

/-- The leading passive slot that keeps a 1-bit off slot position 63 (rules R158 and R162). -/
def leadingSlot (p : ChipProfile) (cap : BitVec 16) (x : EncRun) : Except EncRun EncRun :=
  if x.regs.pos = 63 then emitSlot p cap false x else .ok x

/-- ENC_BIT1 (rule R158). -/
def encodeOne (p : ChipProfile) (cap : BitVec 16) (x : EncRun) : Except EncRun EncRun :=
  match leadingSlot p cap x with
  | .error y => .error y
  | .ok x1 =>
    match emitSlot p cap true x1 with
    | .error y => .error y
    | .ok x2 =>
      match emitSlot p cap true x2 with
      | .error y => .error y
      | .ok x3 => trailing p cap 1 x3

/-- ENC_PAD (rule R159): passive slots until the word closes. A word has 64 slots, so 64 are enough. -/
def encodePad (p : ChipProfile) (cap : BitVec 16) (x : EncRun) : Except EncRun EncRun := trailing p cap 64 x

/-- One bit of the frame (rule R160). -/
def encodeBit (p : ChipProfile) (cap : BitVec 16) (b : Bool) (x : EncRun) : Except EncRun EncRun :=
  if b then encodeOne p cap x else encodeZero p cap x

/-- The bits of the frame, in order (rule R160). -/
def encodeBits (p : ChipProfile) (cap : BitVec 16) (bits : List Bool) (x : EncRun) : Except EncRun EncRun :=
  match bits with
  | [] => .ok x
  | b :: rest =>
    match encodeBit p cap b x with
    | .ok y => encodeBits p cap rest y
    | .error y => .error y

/-- ENCODE (rule R160): a whole frame `E`, from fresh working registers. The word count `K` is the result's `E_K`. -/
def encodeFrame (p : ChipProfile) (cap : BitVec 16) (e : List Byte) (buf : Buffer) : Except EncRun EncRun :=
  match encodeBits p cap (bitsOf e) ⟨EncRegs.zero, buf⟩ with
  | .ok y => encodePad p cap y
  | .error y => .error y

/-- The slots one bit takes when it starts at slot position `q` (the corner cases of rules R157 and R158), the inserted slot
counted as the bit's own (rule R165). -/
def bitSlots (dbl : Bool) (q : Nat) (b : Bool) : Nat :=
  if b then (if q ≤ 61 then 3 else if q = 62 then 2 else 4)
  else if dbl then (if q ≤ 61 then 3 else if q = 62 then 2 else 1)
  else (if q ≤ 62 then 2 else 1)

/-- `S` (rule R165): the slots a bit sequence takes before ENC_PAD, from slot number `n` of the frame on. -/
def slotTotal (dbl : Bool) (bits : List Bool) (n : Nat) : Nat :=
  match bits with
  | [] => n
  | b :: rest => slotTotal dbl rest (n + bitSlots dbl (n % 64) b)

end Sys2Proof.Machine
end

