-- ==== Sys2Proof/Machine/EncoderOps.lean ====
section
/-! DEFINITION. The four encoder operations run on their own (41_encoder.md rules R157 to R160), on the encoder unit's
registers and the buffer of the session that the unit's channel holds. SUBMIT runs the same pure functions inside its one step. -/

namespace Sys2Proof.Machine

/-- `CAP` of the encoder's session. Without a session there is no buffer, so that any CloseWord finds `E_K >= CAP`. -/
def encCap (s : State) : BitVec 16 :=
  match s.session? s.enc.ch with
  | some ss => ss.cfg.cap
  | none => 0

/-- The run that the encoder unit is in. It is on the buffer of the session that the unit's channel holds now: after a SHUTDOWN
and a new CFG of that channel, on the new session's `BUF` and `CAP`, with the operands of the old SUBMIT. The rules give these
operations no effect outside a SUBMIT, so that is a DESIGN CHOICE: assumption log 4. -/
def encRun (s : State) : EncRun :=
  match s.session? s.enc.ch with
  | some ss => ⟨s.enc.regs, ss.buf⟩
  | none => ⟨s.enc.regs, []⟩

/-- The end of an operation: the working registers and the session's buffer. Rules R160 and R48 discard the working registers
at the end of the SUBMIT step; an operation that runs on its own, ENCODE among them, leaves them as it ends, with `E_K = K`
after ENCODE. The buffer is written whether or not the session is FATAL: 43_session.md rule R263 lets only SHUTDOWN act on a
FATAL session, and speaks of no operation that is a step of its own. DESIGN CHOICES: assumption log 4. -/
def encDone (x : EncRun) (ret : Ret) (s : State) : State :=
  match s.channel? s.enc.ch with
  | none => { s with enc := { s.enc with regs := x.regs }, ret := ret }
  | some c =>
    match c.session with
    | none => { s with enc := { s.enc with regs := x.regs }, ret := ret }
    | some ss =>
      commit s.enc.ch c (some { ss with buf := x.buf }) [] { s with enc := { s.enc with regs := x.regs }, ret := ret }

/-- The capacity fault of an operation (60_exceptions.md rule R305), for the session whose buffer is full. -/
def encFull (x : EncRun) (s : State) : Result State :=
  match s.channel? s.enc.ch with
  | none => .fault (.noBuffer s.enc.ch)
  | some c =>
    match c.session with
    | none => .fault (.noBuffer s.enc.ch)
    | some ss =>
      let (ss', cmds) := capacityFault s.enc.ch { ss with buf := x.buf }
      .next
        (commit s.enc.ch c (some ss') cmds
          { s with enc := { s.enc with regs := EncRegs.zero }, ret := .capacity x.regs.k })

/-- Finish an operation either way. -/
def encFinish (r : Except EncRun EncRun) (ret : EncRun → Ret) (s : State) : Result State :=
  match r with
  | .ok x => .next (encDone x (ret x) s)
  | .error x => encFull x s

/-- ENC_BIT0 (rule R157). -/
def execEncBit0 (s : State) : Host.Outcome State Fault Refusal :=
  encFinish (encodeZero s.enc.chip (encCap s) (encRun s)) (fun _ => .nothing) s

/-- ENC_BIT1 (rule R158). -/
def execEncBit1 (s : State) : Host.Outcome State Fault Refusal :=
  encFinish (encodeOne s.enc.chip (encCap s) (encRun s)) (fun _ => .nothing) s

/-- ENC_PAD (rule R159). -/
def execEncPad (s : State) : Host.Outcome State Fault Refusal :=
  encFinish (encodePad s.enc.chip (encCap s) (encRun s)) (fun _ => .nothing) s

/-- ENCODE (rule R160): the answer is `K`. Run on its own it keeps its working registers (`encDone`). -/
def execEncode (s : State) : Host.Outcome State Fault Refusal :=
  encFinish (encodeFrame s.enc.chip (encCap s) s.enc.bytes (encRun s).buf) (fun x => .words x.regs.k) s

end Sys2Proof.Machine
end

