-- ==== Sys2Proof/Machine/HostCommands.lean ====
section
/-! DEFINITION. The five host commands (43_session.md): CFG, SUBMIT, STATUS, STATUS_READ and SHUTDOWN. -/

namespace Sys2Proof.Machine

/-! ### CFG -/

/-- The channel with a new session in its slot (43_session.md rule R241, 10_state.md rule R52). -/
def createSession (ch : ChanId) (c : Channel) (m : Mode) (ids : RomId × RomId) (w0 w1 w2 w3 : BitVec 32) (s : State) :
    Result State :=
  match cfgChannels s.rom m ids.1 with
  | none => .refused (.noLayoutForVariable ch)
  | some n =>
    let cap := capWords s.capTable (cfgLedCount w1).toNat n
    .next (answer .ok [] (commit ch c (some (Session.created (cfgRegs m ids cap w0 w1 w2 w3))) [] s))

/-- CFG (rule R241). -/
def execCfg (ch : ChanId) (w0 w1 w2 w3 : BitVec 32) (s : State) : Host.Outcome State Fault Refusal :=
  match s.channel? ch with
  | none => answerOnly .badChannel s
  | some c =>
    match c.session with
    | some ss => if ss.eng.fatal then answerOnly .fatal s else answerOnly .cfgExists s
    | none =>
      match cfgCheck s.rom w0 w1 w2 with
      | .error e => answerOnly e s
      | .ok (m, ids) => createSession ch c m ids w0 w1 w2 w3 s

/-! ### SUBMIT -/

/-- What a frame comes to: a result code that rejects it, or its ids, entries, latches and payload. -/
structure Frame where
  layoutId : RomId
  chipId   : RomId
  layout   : LayoutProfile
  chip     : ChipProfile
  maxPass  : Ns32
  maxRetry : BitVec 8
  payload  : List Byte
  deriving DecidableEq, Repr

/-- The first lines of rule R245: the frame's format, then its ids (rules R246 to R251). -/
def parseFrame (rom : Rom) (cfg : CfgRegs) (frame : List Byte) : Except Code Frame :=
  match frameHead cfg frame with
  | .error e => .error e
  | .ok h =>
    match rom.layout h.layout, rom.chip h.chip with
    | some l, some p =>
      .ok
        { layoutId := h.layout
          chipId := h.chip
          layout := l
          chip := p
          maxPass := frameTolerance cfg h p
          maxRetry := frameBudget cfg h
          payload := h.payload }
    | _, _ => .error .frameId

/-- The LED count `N` of a frame (rule R252). -/
def Frame.leds (f : Frame) (cfg : CfgRegs) : Nat := ledCount cfg f.layout f.payload

/-- The byte sequence `E` the encoder takes (41_encoder.md rule R151). -/
def Frame.encoded (f : Frame) (cfg : CfgRegs) : List Byte := remap f.layout (f.leds cfg) f.payload

/-- The overrun count (rule R254). -/
def countOverrun (ss : Session) : Session :=
  if ss.eng.st = .idle then ss
  else { ss with stats := { ss.stats with overruns := ss.stats.overruns + 1 } }

/-- The words, the count and the latches of an accepted frame (rules R245 and R255). -/
def latchFrame (f : Frame) (x : EncRun) (ss : Session) : Session :=
  { ss with
    buf := x.buf
    latch := ⟨f.layoutId, f.chipId, f.maxPass, f.maxRetry⟩
    eng := { ss.eng with wcount := x.regs.k, retry := 0 } }

/-- The encoder after a SUBMIT: the working registers are discarded (41_encoder.md rule R160). -/
def encDiscarded (ch : ChanId) (p : ChipProfile) (e : List Byte) : EncUnit := ⟨EncRegs.zero, ch, p, e⟩

/-- A frame with at least one LED (rule R245 from the overrun count on). -/
def submitFrame (ch : ChanId) (now : Ns64) (f : Frame) (c : Channel) (ss : Session) (s : State) : Result State :=
  let (ss1, cmds1) := abort ch (countOverrun ss)
  let e := f.encoded ss.cfg
  let s1 := { s with enc := encDiscarded ch f.chip e }
  match encodeFrame f.chip ss.cfg.cap e ss1.buf with
  | .error x =>
    let (ss2, cmds2) := capacityFault ch { ss1 with buf := x.buf }
    .next (answer .capacity [] (commit ch c (some ss2) (cmds1 ++ cmds2) s1))
  | .ok x =>
    andThen (accept ch f.chip now (latchFrame f x ss1)) fun (ss2, cmds2) =>
      .next (answer .ok (bytes32 (x.regs.k.setWidth 32)) (commit ch c (some ss2) (cmds1 ++ cmds2) s1))

/-- SUBMIT to a live session (rule R245). In the fixed modes a frame has no bad id (rule R246): ids the ROM does not hold are
then a state outside rule R25. -/
def submitSession (ch : ChanId) (now : Ns64) (frame : List Byte) (c : Channel) (ss : Session) (s : State) : Result State :=
  match parseFrame s.rom ss.cfg frame with
  | .error e =>
    if ss.cfg.mode ≠ .perFrame then .refused (.danglingProfile ch) else answerOnly e s
  | .ok f =>
    if f.leds ss.cfg = 0 then .next (answer .ok (bytes32 0) s)
    else submitFrame ch now f c ss s

/-- SUBMIT (rule R245). -/
def execSubmit (ch : ChanId) (now : Ns64) (frame : List Byte) (s : State) : Host.Outcome State Fault Refusal :=
  withSession ch s fun c ss => submitSession ch now frame c ss s

/-! ### STATUS and STATUS_READ -/

/-- The snapshot record, 72 bytes (30_encoding.md rule R99). -/
def snapshotRecord (ss : Session) : List Byte :=
  [readyByte ss.eng] ++ bytes16 ss.stats.lastRetries ++ [validByte ss.stats]
    ++ bytes64 (optField ss.stats.lastViol) ++ bytes64 (optField ss.stats.minDelay) ++ bytes64 (optField ss.stats.maxDelay)
    ++ bytes64 (optField ss.stats.lastUpd) ++ bytes64 (optField ss.stats.minUpd) ++ bytes64 (optField ss.stats.maxUpd)
    ++ bytes32 ss.stats.updates ++ bytes32 ss.stats.overruns ++ bytes32 ss.stats.retries ++ bytes32 ss.stats.errors
    ++ bytes32 ss.stats.irqs

/-- STATUS (rule R259). -/
def execStatus (ch : ChanId) (s : State) : Host.Outcome State Fault Refusal :=
  withSession ch s fun _ ss => .next (answer .ok (snapshotRecord ss) s)

/-- The snapshot a STATUS_READ reads from: the one in hand, or a fresh one (rule R261). -/
def freshSnap (ss : Session) : SnapBuf :=
  if ss.snap.valid then ss.snap else ⟨Config.renderStatus (snapshotRecord ss), 0, true⟩

/-- The bytes of a read: `n = min(MAXLEN, len(SNAP) - SNAP_OFF)` (rule R261). -/
def chunkLen (b : SnapBuf) (maxLen : BitVec 32) : Nat := min maxLen.toNat (b.text.bytes.length - b.off.toNat)

/-- The chunk of a read. -/
def chunkOf (b : SnapBuf) (maxLen : BitVec 32) : List Byte := (b.text.bytes.drop b.off.toNat).take (chunkLen b maxLen)

/-- The snapshot after a read: the offset moves on, and a read of 0 bytes ends the snapshot (rule R261). The offset does not
wrap (`advanceSnap_off`): a text has fewer than 2^32 bytes. -/
def advanceSnap (b : SnapBuf) (maxLen : BitVec 32) : SnapBuf :=
  ⟨b.text, b.off + BitVec.ofNat 32 (chunkLen b maxLen), chunkLen b maxLen != 0⟩

/-- STATUS_READ to a live session (rule R261). -/
def readSession (ch : ChanId) (maxLen : BitVec 32) (c : Channel) (ss : Session) (s : State) : Result State :=
  let b := freshSnap ss
  .next (answer .ok (chunkOf b maxLen) (commit ch c (some { ss with snap := advanceSnap b maxLen }) [] s))

/-- STATUS_READ (rule R261). `MAXLEN = 0` answers `E_BAD_LENGTH` before the channel and the session are looked at
(30_encoding.md rule R115, 60_exceptions.md rule R310). -/
def execStatusRead (ch : ChanId) (maxLen : BitVec 32) (s : State) : Host.Outcome State Fault Refusal :=
  if maxLen = 0 then answerOnly .badLength s
  else withSession ch s fun c ss => readSession ch maxLen c ss s

/-! ### SHUTDOWN -/

/-- The commands of SHUTDOWN (rule R262): stop a SENDING generator, cancel an armed timer. -/
def shutdownCommands (ch : ChanId) (e : EngineRegs) : List Instr :=
  (if e.st = .sending then [.genDisable ch] else []) ++ (if e.tmrArmed then [.tmrCancel ch] else [])

/-- SHUTDOWN (rule R262), the one command a FATAL session accepts. -/
def execShutdown (ch : ChanId) (s : State) : Host.Outcome State Fault Refusal :=
  match s.channel? ch with
  | none => answerOnly .badChannel s
  | some c =>
    match c.session with
    | none => answerOnly .noSession s
    | some ss => .next (answer .ok [] (commit ch c none (shutdownCommands ch ss.eng) s))

end Sys2Proof.Machine
end

