-- ==== Sys2Proof/Machine/Lookups.lean ====
section
/-! DEFINITION. The three ROM lookups (40_profile_rom.md rules R131 to R133). A lookup writes no state of the block; what it
returns stands in the model's own field `ret` (assumption log 4). -/

namespace Sys2Proof.Machine

/-- ROM_CHIP (rule R131). -/
def execRomChip (id : RomId) (s : State) : Host.Outcome State Fault Refusal :=
  .next { s with ret := .chip (s.rom.chip id) }

/-- ROM_LAYOUT (rule R132). -/
def execRomLayout (id : RomId) (s : State) : Host.Outcome State Fault Refusal :=
  .next { s with ret := .layout (s.rom.layout id) }

/-- ROM_PREDEF (rule R133). -/
def execRomPredef (ix : RomId) (s : State) : Host.Outcome State Fault Refusal :=
  .next { s with ret := .predef (s.rom.predef ix) }

end Sys2Proof.Machine
end

