-- ==== Sys2Proof/Machine/OutputCommands.lean ====
section
/-! DEFINITION. The six output commands at the devices that receive them (42_engine.md rules R205 to R210). The block's own
steps emit them through `commit`, which applies the same device functions. -/

namespace Sys2Proof.Machine

/-- GEN_CONFIGURE (rule R205). -/
def execGenConfigure (ch : ChanId) (activeNs passiveNs : Ns32) (inv : Bool) (s : State) :
    Host.Outcome State Fault Refusal :=
  toDevice ch (deviceEffect (.genConfigure ch activeNs passiveNs inv)) s

/-- GEN_LOAD (rule R206). -/
def execGenLoad (ch : ChanId) (bits : Slots) (s : State) : Host.Outcome State Fault Refusal :=
  toDevice ch (deviceEffect (.genLoad ch bits)) s

/-- GEN_ENABLE (rule R207). -/
def execGenEnable (ch : ChanId) (s : State) : Host.Outcome State Fault Refusal :=
  toDevice ch (deviceEffect (.genEnable ch)) s

/-- GEN_DISABLE (rule R208). -/
def execGenDisable (ch : ChanId) (s : State) : Host.Outcome State Fault Refusal :=
  toDevice ch (deviceEffect (.genDisable ch)) s

/-- TMR_ARM (rule R209). -/
def execTmrArm (ch : ChanId) (deadline : Ns64) (s : State) : Host.Outcome State Fault Refusal :=
  toDevice ch (deviceEffect (.tmrArm ch deadline)) s

/-- TMR_CANCEL (rule R210). -/
def execTmrCancel (ch : ChanId) (s : State) : Host.Outcome State Fault Refusal :=
  toDevice ch (deviceEffect (.tmrCancel ch)) s

end Sys2Proof.Machine
end

