-- ==== Sys2Proof/Machine/PlatformEvents.lean ====
section
/-! DEFINITION. The two platform events (42_engine.md rules R195 and R201): COMPLETE and WAKE. -/

namespace Sys2Proof.Machine

/-! ### COMPLETE -/

/-- The count of completion signals (rule R195). -/
def Stats.signalled (t : Stats) : Stats := { t with irqs := t.irqs + 1 }

/-- The delay statistics of a completion within tolerance (rule R195). -/
def Stats.delayed (t : Stats) (d : Int) : Stats :=
  { t with minDelay := minDelayWith t.minDelay d, maxDelay := maxDelayWith t.maxDelay d }

/-- A completion within tolerance: the next word, or the end of the frame (rule R195). -/
def completeInTime (rom : Rom) (ch : ChanId) (now : Ns64) (delay : Int) (ss : Session) : Result SessionStep :=
  let ss1 := { ss with stats := ss.stats.delayed delay }
  if ss.eng.remain ≠ 0 then loadNext ch now ss1
  else andThen (frameChip rom ch ss1) fun p => .next (finishFrame ch p now ss1)

/-- A completion later than the tolerance (rule R198). -/
def completeLate (rom : Rom) (ch : ChanId) (now : Ns64) (delay : Int) (ss : Session) : Result SessionStep :=
  andThen (frameChip rom ch ss) fun p => .next (violation ch p now delay ss)

/-- COMPLETE to a live session (rule R195). -/
def completeSession (rom : Rom) (ch : ChanId) (now : Ns64) (ss : Session) : Result SessionStep :=
  let ss1 := { ss with stats := ss.stats.signalled }
  if ss.eng.st ≠ .sending then .next (ss1, [])
  else
    let delay := delayOf now ss.eng.expectT
    if withinTolerance delay ss.latch.maxPassNs then completeInTime rom ch now delay ss1
    else completeLate rom ch now delay ss1

/-- COMPLETE (rule R195). -/
def execComplete (ch : ChanId) (now : Ns64) (s : State) : Host.Outcome State Fault Refusal :=
  onEvent ch s fun c ss =>
    andThen (completeSession s.rom ch now ss) fun (ss', cmds) => .next (commit ch c (some ss') cmds s)

/-! ### WAKE -/

/-- WAKE to a live session (rule R201). -/
def wakeSession (rom : Rom) (ch : ChanId) (now : Ns64) (ss : Session) : Result SessionStep :=
  if !wakeDue ss.eng now then .next (ss, [])
  else if ss.eng.pendRetry then
    andThen (frameChip rom ch ss) fun p =>
      startAttempt ch p now { ss with eng := { ss.eng with tmrArmed := false, pendRetry := false } }
  else if ss.eng.pendNew then
    andThen (frameChip rom ch ss) fun p =>
      startAttempt ch p now { ss with eng := { ss.eng with tmrArmed := false, pendNew := false, frameT0 := now } }
  else .next ({ ss with eng := { ss.eng with tmrArmed := false, st := .idle, notReady := false } }, [])

/-- WAKE (rule R201). -/
def execWake (ch : ChanId) (now : Ns64) (s : State) : Host.Outcome State Fault Refusal :=
  onEvent ch s fun c ss =>
    andThen (wakeSession s.rom ch now ss) fun (ss', cmds) => .next (commit ch c (some ss') cmds s)

end Sys2Proof.Machine
end

