-- ==== Sys2Proof/Machine/Dispatch.lean ====
section
/-! DEFINITION. The meaning of every operation of spec/opcode_table.json (30_encoding.md rule R112), one arm each. -/

namespace Sys2Proof.Machine

def exec (i : Instr) (s : State) : Host.Outcome State Fault Refusal :=
  match i with
  -- host commands (43_session.md)
  | .cfg ch w0 w1 w2 w3 => Sys2Proof.Machine.execCfg ch w0 w1 w2 w3 s
  | .submit ch now frame => Sys2Proof.Machine.execSubmit ch now frame s
  | .status ch => Sys2Proof.Machine.execStatus ch s
  | .statusRead ch maxLen => Sys2Proof.Machine.execStatusRead ch maxLen s
  | .shutdown ch => Sys2Proof.Machine.execShutdown ch s
  -- platform events (42_engine.md)
  | .complete ch now => Sys2Proof.Machine.execComplete ch now s
  | .wake ch now => Sys2Proof.Machine.execWake ch now s
  -- output commands (42_engine.md section 6)
  | .genConfigure ch activeNs passiveNs inv => Sys2Proof.Machine.execGenConfigure ch activeNs passiveNs inv s
  | .genLoad ch bits => Sys2Proof.Machine.execGenLoad ch bits s
  | .genEnable ch => Sys2Proof.Machine.execGenEnable ch s
  | .genDisable ch => Sys2Proof.Machine.execGenDisable ch s
  | .tmrArm ch deadline => Sys2Proof.Machine.execTmrArm ch deadline s
  | .tmrCancel ch => Sys2Proof.Machine.execTmrCancel ch s
  -- ROM lookups (40_profile_rom.md)
  | .romChip id => Sys2Proof.Machine.execRomChip id s
  | .romLayout id => Sys2Proof.Machine.execRomLayout id s
  | .romPredef ix => Sys2Proof.Machine.execRomPredef ix s
  -- encoder operations (41_encoder.md)
  | .encBit0 => Sys2Proof.Machine.execEncBit0 s
  | .encBit1 => Sys2Proof.Machine.execEncBit1 s
  | .encPad => Sys2Proof.Machine.execEncPad s
  | .encode => Sys2Proof.Machine.execEncode s

end Sys2Proof.Machine
end

