-- ==== Sys2Proof/Machine/Ports.lean ====
section
/-! DEFINITION. What happens around an operation: a message that is no operation of its port (30_encoding.md rules R113 to
R116), the devices' own moves (42_engine.md rules R206 and R209, 60_exceptions.md rule R318), and how the model's next input
is placed. -/

namespace Sys2Proof.Machine

/-- The answer of the host command port to a message that does not decode (rules R113 to R115). No host command has a field
that its format does not admit, so `badField` does not arise there. -/
def hostError (e : DecodeError) : Code :=
  match e with
  | .badOpcode => .badOpcode
  | .badLength => .badLength
  | .badField => .badLength

/-- A message that does not decode on its port: answered on the host port, ignored on the platform port (rule R113). The
output commands and the internal operations come from the block itself, which sends no such bytes. -/
def rejectMessage (p : Port) (e : DecodeError) (s : State) : Result State :=
  match p with
  | .host => answerOnly (hostError e) s
  | .platform => .next s
  | .output => .refused (.notAMessage .output)
  | .internal => .refused (.notAMessage .internal)

/-- A device raises an event (60_exceptions.md rule R308): it is pending from now on, behind the next `place` inputs. -/
def raiseEvent (i : Instr) (place : Nat) (s : State) : State :=
  { s with inbox := s.inbox.take place ++ .raised (encode i) :: s.inbox.drop place }

/-- The message an input brings to a port, if it brings one. -/
def Input.message? (x : Input) : Option (Port × List Byte) :=
  match x with
  | .message p m => some (p, m)
  | .raised m => some (.platform, m)
  | .stray m => some (.platform, m)
  | .genDone _ _ _ => none
  | .genLost _ => none
  | .tmrFire _ _ _ => none

/-- The generator's own move at the end of slot 63 (42_engine.md rule R206): the word is gone, and one COMPLETE is raised. It
is a move only while the generator sends a word (rule R318). -/
def genDone (ch : ChanId) (now : Ns64) (place : Nat) (s : State) : State :=
  match s.channel? ch with
  | none => s
  | some c =>
    if c.gen.busy then raiseEvent (.complete ch now) place (s.setChannel ch { c with gen := c.gen.finish }) else s

/-- The same move with the signal lost (70_reset_and_hazards.md rule R359). -/
def genLost (ch : ChanId) (s : State) : State :=
  match s.channel? ch with
  | none => s
  | some c => if c.gen.busy then s.setChannel ch { c with gen := c.gen.finish } else s

/-- The timer's own move (42_engine.md rule R209): one WAKE for its request, at or after the deadline. -/
def tmrFire (ch : ChanId) (now : Ns64) (place : Nat) (s : State) : State :=
  match s.channel? ch with
  | none => s
  | some c =>
    if c.tmr.due now then raiseEvent (.wake ch now) place (s.setChannel ch { c with tmr := c.tmr.cancel }) else s

/-- The port an opcode byte belongs to, for placing a message: the host port where it names no operation. -/
def portOfOpcode (opc : Byte) : Port := ((rowOf opc).map OpRow.port).getD .host

/-- A message placed at the head of the inbox, on the port its opcode belongs to. -/
def placeMessage (m : List Byte) (s : State) : State :=
  { s with inbox := .message (portOfOpcode (m.getD 0 0)) m :: s.inbox }

end Sys2Proof.Machine
end

