-- ==== Sys2Proof/Machine/Step.lean ====
section
/-! DEFINITION. One step: the block handles the next input as one atomic step (00_scope.md rule R3, 20_memory.md rule R77), or
a device makes its own move. With no input the block does nothing (60_exceptions.md rule R321). -/

namespace Sys2Proof.Machine

/-- A message on a port: decode it there and run it, or reject it. -/
def receive (p : Port) (m : List Byte) (s : State) : Host.Outcome State Fault Refusal :=
  match decodeOn p m with
  | .ok i => exec i s
  | .error e => rejectMessage p e s

/-- One input, already taken out of the inbox. -/
def handle (x : Input) (s : State) : Host.Outcome State Fault Refusal :=
  match x with
  | .message p m => receive p m s
  | .raised m => receive .platform m s
  | .stray m => receive .platform m s
  | .genDone ch now place => .next (genDone ch now place s)
  | .genLost ch => .next (genLost ch s)
  | .tmrFire ch now place => .next (tmrFire ch now place s)

/-- The step. -/
def step (s : State) : Host.Outcome State Fault Refusal :=
  match s.inbox with
  | [] => .next s
  | x :: rest => handle x { s with inbox := rest }

/-- The message whose bits are `w` (numbered as the opcode table numbers them) becomes the next input. The block fetches no
instructions (10_state.md rule R49); a program is the sequence of messages its surroundings send. Assumption log 6. -/
def State.withFetchWord (s : State) (nbits w : Nat) : State := placeMessage (tableBytes nbits w) s

end Sys2Proof.Machine
end

