-- ==== Sys2Proof/Machine/Launch.lean ====
section
/-! DEFINITION. Launching the block (70_reset_and_hazards.md rules R353 and R371, 93_implementation_defined.md section 3): from
power-on, or from configured sessions with their registers and the events in flight. -/

namespace Sys2Proof.Machine

/-- The registers of a session meet the invariants of 10_state.md rule R54. -/
def registersFit (ss : Session) : Bool :=
  let e := ss.eng
  (match e.st with
    | .idle => !e.notReady && !e.tmrArmed && !e.pendNew && !e.pendRetry
    | .sending =>
      e.notReady && !e.tmrArmed && !e.pendNew && !e.pendRetry && decide (1 ≤ e.next.toNat)
        && decide (e.next.toNat ≤ e.wcount.toNat) && decide (e.next.toNat + e.remain.toNat = e.wcount.toNat)
    | .await => e.notReady && e.tmrArmed && !(e.pendNew && e.pendRetry)
    | .failed => e.notReady && e.tmrArmed && !e.pendNew && !e.pendRetry)
  && decide (e.wcount.toNat ≤ ss.cfg.cap.toNat) && decide (e.retry.toNat ≤ ss.latch.maxRetry.toNat + 1)

/-- A run may start from these channels: there are 1 to 256 (00_scope.md rule R5), and every session that is not FATAL meets rule
R54. -/
def channelsFit (chans : List Channel) : Bool :=
  decide (1 ≤ chans.length) && decide (chans.length ≤ 256)
    && chans.all (fun c => c.session.all (fun ss => ss.eng.fatal || registersFit ss))

/-- Some session uses VARIABLE mode (rule R353, condition 5). -/
def usesLayouts (chans : List Channel) : Bool :=
  chans.any (fun c => c.session.any (fun ss => decide (ss.cfg.mode = .perFrame)))

/-- Launching the block with a ROM, from a state that names each session's registers and lists the events in flight (rule
R371). A ROM that breaks rule R353 is refused, and so is a combination of registers outside rule R54. Condition 5 of rule R353
is checked here for the sessions there are, and by CFG for those to come. Assumption logs 1 and 26. -/
def launchFrom (t : RomTables) (s : State) : Result State :=
  if h : RomTables.wf t = true then
    if usesLayouts s.chans && t.layouts.isEmpty then .refused .illFormedRom
    else if channelsFit s.chans then .next { s with rom := ⟨t, h⟩ }
    else .refused .illFormedLaunch
  else .refused .illFormedRom

/-- Launching the block from power-on (rule R350), the clean entry of rule R371. -/
def launch (t : RomTables) : Result State := launchFrom t State.reset

end Sys2Proof.Machine
end

