-- ==== Sys2Proof/Safety.lean ====
section
/-! DEFINITION. What claims are stated in: a live session, the invariants of 10_state.md rule R54 with what they rest on, the
agreement of a SENDING engine with its pulse generator, the premises on the surroundings (60_exceptions.md rule R318), and
the end of a run (70_reset_and_hazards.md rule R370). -/

namespace Sys2Proof.Machine

/-- Channel `ch` holds the session `ss`, and the session is not FATAL. -/
structure Live (s : State) (ch : ChanId) (c : Channel) (ss : Session) : Prop where
  channel : s.channel? ch = some c
  session : c.session = some ss
  alive   : ss.eng.fatal = false

/-- The cursor of a SENDING engine (rules R34 and R54). -/
structure CursorSound (e : EngineRegs) : Prop where
  low  : 1 ≤ e.next.toNat
  high : e.next.toNat ≤ e.wcount.toNat
  sum  : e.next.toNat + e.remain.toNat = e.wcount.toNat

/-- The invariants of rule R54, one clause a line of it. -/
structure EngineSound (ss : Session) : Prop where
  idle : ss.eng.st = .idle →
    ss.eng.notReady = false ∧ ss.eng.tmrArmed = false ∧ ss.eng.pendNew = false ∧ ss.eng.pendRetry = false
  sending : ss.eng.st = .sending →
    ss.eng.notReady = true ∧ ss.eng.tmrArmed = false ∧ ss.eng.pendNew = false ∧ ss.eng.pendRetry = false
      ∧ CursorSound ss.eng
  await : ss.eng.st = .await →
    ss.eng.notReady = true ∧ ss.eng.tmrArmed = true ∧ ¬(ss.eng.pendNew = true ∧ ss.eng.pendRetry = true)
  failed : ss.eng.st = .failed →
    ss.eng.notReady = true ∧ ss.eng.tmrArmed = true ∧ ss.eng.pendNew = false ∧ ss.eng.pendRetry = false
  count : ss.eng.wcount.toNat ≤ ss.cfg.cap.toNat
  retry : ss.eng.retry.toNat ≤ ss.latch.maxRetry.toNat + 1

/-- What the invariants of rule R54 rest on: the buffered frame is written, its chip is in the ROM, there is a frame outside
IDLE, and its retry count is within budget while an attempt is running or due (rules R34, R35, R39, R41). Every reachable state
meets this too, and it leaves out combinations that rule R54 admits. DEDUCED: assumption log 26. -/
structure FrameSound (rom : Rom) (ss : Session) : Prop where
  written : ∀ k, k < ss.eng.wcount.toNat → (Memory.read ss.buf k).isSome = true
  chip    : ss.eng.st ≠ .idle → (rom.chip ss.latch.chip).isSome = true ∧ 1 ≤ ss.eng.wcount.toNat
  budget  : (ss.eng.st = .sending ∨ ss.eng.pendRetry = true ∨ ss.eng.pendNew = true) →
    ss.eng.retry.toNat ≤ ss.latch.maxRetry.toNat

/-- The configuration registers hold what CFG may store (rules R23 and R25), and a VARIABLE session has a layout
(70_reset_and_hazards.md rule R353, condition 5). -/
structure ConfigSound (rom : Rom) (cfg : CfgRegs) : Prop where
  led      : 1 ≤ cfg.ledMax.toNat ∧ cfg.ledMax.toNat ≤ Config.ledMaxLimit
  fixed    : cfg.mode ≠ .perFrame → (rom.layout cfg.layout).isSome = true ∧ (rom.chip cfg.chip).isSome = true
  perFrame : cfg.mode = .perFrame → cfg.layout = 0 ∧ cfg.chip = 0 ∧ rom.tables.layouts ≠ []

/-- A session of a reachable state that is not FATAL. -/
structure SessionSound (rom : Rom) (ss : Session) : Prop where
  config : ConfigSound rom ss.cfg
  engine : EngineSound ss
  frame  : FrameSound rom ss

/-- Every session that is not FATAL is sound. -/
def State.Sound (s : State) : Prop :=
  ∀ ch ss, s.session? ch = some ss → ss.eng.fatal = false → SessionSound s.rom ss

/-- Every session's output buffer has its canonical form. -/
def State.BuffersCanonical (s : State) : Prop := ∀ ch ss, s.session? ch = some ss → Memory.wf ss.buf

/-- A SENDING engine and its generator agree: the generator is enabled, it is configured with the frame's durations and the
session's polarity (41_encoder.md rule R153, 42_engine.md rule R205), and the word it holds, if it still holds one, is the
word loaded last. -/
structure GenAgrees (rom : Rom) (g : Gen) (ss : Session) : Prop where
  enabled  : g.en = true
  chip     : ∃ p, rom.chip ss.latch.chip = some p ∧ g.activeNs = p.t0ActiveNs ∧ g.passiveNs = p.tPassiveMinNs
  polarity : g.inv = ss.cfg.inv
  word     : ∀ b, g.word = some b →
    1 ≤ ss.eng.next.toNat ∧ ∃ w, Memory.read ss.buf (ss.eng.next.toNat - 1) = some w ∧ w.bits = b

/-- Every SENDING session that is not FATAL agrees with its generator. -/
def State.GeneratorsAgree (s : State) : Prop :=
  ∀ ch c ss, Live s ch c ss → ss.eng.st = .sending → GenAgrees s.rom c.gen ss

/-- An input that the block's surroundings can make (30_encoding.md rule R90): a message on one of the two input ports, an
event that is pending, or a device's own move. Output commands come out of the block, and internal operations never appear
on a port. -/
def Input.external : Input → Bool
  | .message .host _ => true
  | .message .platform _ => true
  | .message .output _ => false
  | .message .internal _ => false
  | .raised _ => true
  | .stray _ => true
  | .genDone _ _ _ => true
  | .genLost _ => true
  | .tmrFire _ _ _ => true

/-- The next input is one the surroundings can make. -/
def State.NextExternal (s : State) : Prop := ∀ x rest, s.inbox = x :: rest → Input.external x = true

/-- `LAYOUT_ROM` is not empty (70_reset_and_hazards.md rule R353, condition 5). -/
def State.HasLayout (s : State) : Prop := s.rom.tables.layouts ≠ []

/-- The session an operation is addressed to: the encoder's operations act on the encoder's session, and a lookup on none. -/
def target (i : Instr) (s : State) : Option ChanId :=
  match i with
  | .cfg ch _ _ _ _ => some ch
  | .submit ch _ _ => some ch
  | .status ch => some ch
  | .statusRead ch _ => some ch
  | .shutdown ch => some ch
  | .complete ch _ => some ch
  | .wake ch _ => some ch
  | .genConfigure ch _ _ _ => some ch
  | .genLoad ch _ => some ch
  | .genEnable ch => some ch
  | .genDisable ch => some ch
  | .tmrArm ch _ => some ch
  | .tmrCancel ch => some ch
  | .romChip _ => none
  | .romLayout _ => none
  | .romPredef _ => none
  | .encBit0 => some s.enc.ch
  | .encBit1 => some s.enc.ch
  | .encPad => some s.enc.ch
  | .encode => some s.enc.ch

/-- The timestamp premise of 20_memory.md rule R62: every timestamp is below 2^63. -/
def TimeInRange (now : Ns64) : Prop := now.toNat < 2 ^ 63

/-- The number of active slots of a word, `popcount(BITS)` (30_encoding.md rule R108). -/
def activeSlots (bits : Slots) : Nat := ((List.range 64).map (fun p => if bits.getLsbD p then 1 else 0)).sum

/-- The session and the `NOW` of an operation that carries a time (60_exceptions.md rule R315): SUBMIT, COMPLETE, WAKE. -/
def timeOf (i : Instr) : Option (ChanId × Ns64) :=
  match i with
  | .submit ch now _ => some (ch, now)
  | .complete ch now => some (ch, now)
  | .wake ch now => some (ch, now)
  | .cfg _ _ _ _ _ => none
  | .status _ => none
  | .statusRead _ _ => none
  | .shutdown _ => none
  | .genConfigure _ _ _ _ => none
  | .genLoad _ _ => none
  | .genEnable _ => none
  | .genDisable _ => none
  | .tmrArm _ _ => none
  | .tmrCancel _ => none
  | .romChip _ => none
  | .romLayout _ => none
  | .romPredef _ => none
  | .encBit0 => none
  | .encBit1 => none
  | .encPad => none
  | .encode => none

/-- The session and the `NOW` of a message on a port, if it is a timed operation of that port. -/
def messageTime (p : Port) (m : List Byte) : Option (ChanId × Ns64) :=
  match decodeOn p m with
  | .ok i => timeOf i
  | .error _ => none

/-- The session and the `NOW` of an input; a device's move has those of the event it raises. -/
def Input.time : Input → Option (ChanId × Ns64)
  | .message p m => messageTime p m
  | .raised m => messageTime .platform m
  | .stray m => messageTime .platform m
  | .genDone ch now _ => some (ch, now)
  | .genLost _ => none
  | .tmrFire ch now _ => some (ch, now)

/-! ### The duties of the surroundings (60_exceptions.md rule R318) -/

/-- The time source's duty (20_memory.md rule R62, 60_exceptions.md rules R315 and R318), of the inputs to come in the order
the locks admit them: every `NOW` is below 2^63, and behind a timed step of a channel no `NOW` of that channel is less. An
event a move is yet to raise is held to the steps before it; those after it bind it where it stands once it is raised. -/
structure State.TimesOrdered (s : State) : Prop where
  inRange : ∀ x ∈ s.inbox, ∀ ch now, Input.time x = some (ch, now) → TimeInRange now
  ordered : s.inbox.Pairwise (fun x y => x.message?.isSome = true →
    ∀ ch a b, Input.time x = some (ch, a) → Input.time y = some (ch, b) → a.toNat ≤ b.toNat)

/-- The output commands sent from one state of a run to the next. -/
def sentBetween (s t : State) : List (List Byte) := t.outs.drop s.outs.length

/-- A stray signal, to come or pending: an event that no device's move raised. -/
def Input.stray? : Input → Option (List Byte)
  | .message .platform m => some m
  | .message .host _ => none
  | .message .output _ => none
  | .message .internal _ => none
  | .stray m => some m
  | .raised _ => none
  | .genDone _ _ _ => none
  | .genLost _ => none
  | .tmrFire _ _ _ => none

/-- The pending event that channel `ch`'s device raised with operation `op`. -/
def Input.raisedAs (op : Op) (ch : ChanId) : Input → Bool
  | .raised m =>
    match decodeOn .platform m with
    | .ok i => i.op == op && (timeOf i).any (fun e => e.1 == ch)
    | .error _ => false
  | .message _ _ => false
  | .stray _ => false
  | .genDone _ _ _ => false
  | .genLost _ => false
  | .tmrFire _ _ _ => false

/-- A generator sends a word only for a SENDING session: it holds none in IDLE or a window (60_exceptions.md rule R317). -/
def State.GeneratorsFree (s : State) : Prop :=
  ∀ ch c, s.channel? ch = some c → c.gen.busy = true → ∃ ss, Live s ch c ss ∧ ss.eng.st = .sending

/-- A pending COMPLETE is the one that the generator owes for the word loaded last: there is one at most, its session is
SENDING, and the word has ended (rule R318: exactly one COMPLETE for each word that GEN_DISABLE did not discard). -/
structure State.CompletionsOwned (s : State) : Prop where
  one   : ∀ ch, s.inbox.countP (Input.raisedAs .complete ch) ≤ 1
  owned : ∀ ch x, x ∈ s.inbox → Input.raisedAs .complete ch x = true →
    ∃ c ss, Live s ch c ss ∧ ss.eng.st = .sending ∧ c.gen.busy = false

/-- A pending WAKE is one that its timer raised for a request: there is one at most, and the request is spent (rule R318). It
leaves out a WAKE that is still pending when a later session's request is there (assumption log 26). -/
def State.WakesOwned (s : State) : Prop :=
  ∀ ch, s.inbox.countP (Input.raisedAs .wake ch) ≤ 1
    ∧ ∀ x ∈ s.inbox, Input.raisedAs .wake ch x = true → ∃ c, s.channel? ch = some c ∧ c.tmr.req = none

/-- The duties on the next step. The devices' own moves honour the generator's and the timer's (`genDone`, `tmrFire`); what
comes in on the platform port beside the events these raise is a stray signal, and the block never takes one for a completion
of a frame in flight ("raise COMPLETE with no word loaded, except as a stray signal the block counts and ignores") or for a
WAKE that is due. No COMPLETE arrives behind a GEN_DISABLE for a word before it (92_eei_decisions.md D17,
93_implementation_defined.md section 3, "no move"): the order of the inputs is bound by the duties (rule R309), so a COMPLETE
that is pending is handled before the step that sends GEN_DISABLE. Assumption log 18. -/
structure State.DutiesKept (s : State) : Prop where
  external  : s.NextExternal
  times     : s.TimesOrdered
  strayDone : ∀ x rest m ch now c ss, s.inbox = x :: rest → x.stray? = some m → decode m = .ok (.complete ch now) →
    Live s ch c ss → ss.eng.st ≠ .sending
  strayWake : ∀ x rest m ch now c ss, s.inbox = x :: rest → x.stray? = some m → decode m = .ok (.wake ch now) →
    Live s ch c ss → wakeDue ss.eng now = false
  disabled  : ∀ t ch, step s = .next t → [0x83, ch] ∈ sentBetween s t →
    ∀ x ∈ t.inbox, Input.raisedAs .complete ch x = false

/-- No session's frame started later than the time of an input to come: with the time source's duty it stays so, and an update
duration is the exact difference (42_engine.md rule R197, `d >= 0`). -/
def State.FramesStarted (s : State) : Prop :=
  ∀ ch ss, s.session? ch = some ss → ∀ x ∈ s.inbox, ∀ now, Input.time x = some (ch, now) →
    ss.eng.frameT0.toNat ≤ now.toNat

/-- A state a run may be launched from (70_reset_and_hazards.md rules R353 and R371, 93_implementation_defined.md section 3):
1 to 256 channels, and no register combination outside rule R54. Of rule R353, conditions 1 to 4 hold by the type of the ROM,
and condition 5 for the sessions there are by `layouts`. The inbox lists the events in flight. `launchFrom` refuses
every other ROM and every combination outside rule R54. Rule R371 names the registers and the events in flight only. What is
asked beyond that is the model's, DEDUCED for the registers (`FrameSound`, which leaves out combinations that rule R54 admits
and no run reaches) and a DESIGN CHOICE for the devices and the events in flight: the generator of a SENDING session is enabled,
configured for its frame and holds the word loaded last or none, every other one sends nothing, a pending event is one that its
device owes, and nothing else is asked of a timer's request. Assumption log 26. -/
structure LaunchState (s : State) : Prop where
  channels    : 1 ≤ s.chans.length ∧ s.chans.length ≤ 256
  layouts     : ∀ ch ss, s.session? ch = some ss → ss.cfg.mode = .perFrame → s.HasLayout
  sound       : s.Sound
  buffers     : s.BuffersCanonical
  agree       : s.GeneratorsAgree
  free        : s.GeneratorsFree
  completions : s.CompletionsOwned
  wakes       : s.WakesOwned

/-- A run in which the surroundings honour their duties, from a launch state on. The generator's is one COMPLETE for a word it
sends, unless it loses the signal or GEN_DISABLE discards the word (a GEN_LOAD finds no word that is still sent: rule R317); the
timer's is one WAKE for a request, unless TMR_CANCEL withdraws it or TMR_ARM replaces it. Claims that something ends rest on
these two (42_engine.md rules R209 and R213, 70_reset_and_hazards.md rules R359 and R361). -/
structure HonestRun (r : Nat → State) : Prop where
  start     : LaunchState (r 0)
  steps     : ∀ n, step (r n) = .next (r (n + 1))
  duties    : ∀ n, (r n).DutiesKept
  generator : ∀ n ch c, (r n).channel? ch = some c → c.gen.busy = true → ∃ m, n ≤ m ∧
    ((∃ now place rest, (r m).inbox = .genDone ch now place :: rest) ∨ (∃ rest, (r m).inbox = .genLost ch :: rest)
      ∨ [0x83, ch] ∈ sentBetween (r m) (r (m + 1)))
  timer     : ∀ n ch c d, (r n).channel? ch = some c → c.tmr.req = some d → ∃ m, n ≤ m ∧
    ((∃ now place rest, (r m).inbox = .tmrFire ch now place :: rest ∧ d.toNat ≤ now.toNat)
      ∨ [0x91, ch] ∈ sentBetween (r m) (r (m + 1))
      ∨ ∃ e, 0x90 :: ch :: bytes64 e ∈ sentBetween (r m) (r (m + 1)))

/-! ### The end of a run -/

/-- An event addressed to channel `ch` that is pending (60_exceptions.md rule R308): raised by its device, a stray signal
among them, and not handled yet. A command of the host, a device's move to come and a stray signal to come are no pending events. -/
def Input.pendingFor (ch : ChanId) : Input → Bool
  | .raised m => (messageTime .platform m).any (fun e => e.1 == ch)
  | .stray m => (messageTime .platform m).any (fun e => e.1 == ch)
  | .message _ _ => false
  | .genDone _ _ _ => false
  | .genLost _ => false
  | .tmrFire _ _ _ => false

/-- A session is quiescent (70_reset_and_hazards.md rule R370): not FATAL, IDLE, no timer armed, and no event addressed to it
is pending. -/
def Quiescent (s : State) (ch : ChanId) (ss : Session) : Prop :=
  ss.eng.fatal = false ∧ ss.eng.st = .idle ∧ ss.eng.tmrArmed = false ∧ ∀ x ∈ s.inbox, Input.pendingFor ch x = false

/-- The host sends something: any message on its port, malformed ones included. -/
def Input.fromHost : Input → Bool
  | .message .host _ => true
  | .message .platform _ => false
  | .message .output _ => false
  | .message .internal _ => false
  | .raised _ => false
  | .stray _ => false
  | .genDone _ _ _ => false
  | .genLost _ => false
  | .tmrFire _ _ _ => false

/-- A run is over (rule R370): every session is quiescent, and the host sends no further command. A device may still hold a
completion that it has not raised, and a stray signal may still come. An event that is still pending for an empty slot keeps
no run from being over. DESIGN CHOICE: assumption log 27. -/
def RunOver (s : State) : Prop :=
  (∀ x ∈ s.inbox, Input.fromHost x = false) ∧ ∀ ch ss, s.session? ch = some ss → Quiescent s ch ss

end Sys2Proof.Machine
end

