-- ==== Sys2Proof/Certificates/Slice0/Obligations.lean ====
section
/-! DEFINITION. The statements for the provers. Each docstring names the rules of spec/ that a statement formalises. Where a
step goes on, a statement gives its whole next state, so that everything it does not name is unchanged. -/

open Sys2Proof Sys2Proof.Machine

/-! ### Messages (30_encoding.md) -/

/-- No bit of a message is dropped: decoding the encoding of any operation gives it back, at every operand value (rules R91
to R97 and R112). -/
def Obligations.DecodeOfEncode : Prop := ∀ i : Instr, decode (encode i) = .ok i

/-- Every message has one meaning and every operation one message: a byte string that decodes is the encoding of what it
decodes to (rules R91 to R97 and R112). -/
def Obligations.EncodeOfDecode : Prop := ∀ (m : List Byte) (i : Instr), decode m = .ok i → encode i = m

/-- Words written out from the spec's encodings: programs P1, P6 and vectors V-OUT-1, V-OUT-4 and V-OUT-7. A sanity
statement. -/
def Obligations.WrittenOutMessagesDecode : Prop :=
  decode [0x01, 0x01, 0x00, 0x00, 0x01, 0x18, 0, 0, 0, 1, 0, 0, 0, 0, 0, 0, 0, 0] = .ok (.cfg 1 0x118 1 0 0)
    ∧ decode [0x02, 0x00, 0, 0, 0, 0, 0, 0, 0x03, 0xe8, 0xff, 0, 7] = .ok (.submit 0 1000 [0xff, 0, 7])
    ∧ decode [0x10, 0x00, 0, 0, 0, 0, 0, 0, 0x98, 0x58] = .ok (.complete 0 39000)
    ∧ decode [0x80, 0x00, 0, 0, 0x01, 0x5e, 0, 0, 0x03, 0x84, 0] = .ok (.genConfigure 0 350 900 false)
    ∧ decode [0x81, 0x00, 0xdb, 0x6d, 0xb6, 0xaa, 0xaa, 0xaa, 0xaa, 0xaa] = .ok (.genLoad 0 0xdb6db6aaaaaaaaaa)
    ∧ decode [0x90, 0x00, 0, 0, 0, 0, 0, 0x03, 0x13, 0x1c] = .ok (.tmrArm 0 201500)
    ∧ decode [0xA1, 0x02] = .ok (.romLayout 2)
    ∧ decode [0xB1] = .ok .encBit1

/-- A step runs the decoded operation: when the next input is a message that decodes on its own port, the step is that
operation at the state without the message, and nothing is added around it. A pending event is handled as a message on the
platform port (60_exceptions.md rule R308). With no input the block does nothing (rule R321; assumption log 10). -/
def Obligations.StepRunsDecoded : Prop :=
  (∀ (s : State) (m : List Byte) (i : Instr) (rest : List Input),
    decode m = .ok i → s.inbox = .message (portOf i) m :: rest → step s = exec i { s with inbox := rest })
  ∧ (∀ (s : State) (m : List Byte) (rest : List Input), (s.inbox = .raised m :: rest ∨ s.inbox = .stray m :: rest) →
    step s = step { s with inbox := .message .platform m :: rest })
  ∧ ∀ s : State, s.inbox = [] → step s = .next s

/-- Rule R114, both ports: an opcode that is not the port's own is illegal on the host port, whatever else the message
holds, and ignored on the platform port. -/
def Obligations.IllegalOpcodes : Prop :=
  ∀ (s : State) (opc : Byte) (tail : List Byte) (rest : List Input),
    (s.inbox = .message .host (opc :: tail) :: rest → opc ∉ [0x01, 0x02, 0x03, 0x04, 0x05] →
      step s = .next { s with inbox := rest, answers := s.answers ++ [[0x21]] })
    ∧ (s.inbox = .message .platform (opc :: tail) :: rest → opc ∉ [0x10, 0x11] →
      step s = .next { s with inbox := rest })

/-- Rule R115 with the lengths of rule R91: a wrong length on the host port, and `MAXLEN = 0`, answer `E_BAD_LENGTH` and
change nothing; that `MAXLEN = 0` is answered so before the channel and the session are looked at is read from rules R115 and
R310 together (DEDUCED; assumption log 12). On the platform port, which has no answer, a wrong length is ignored (rule R113;
assumption log 23). An empty message has no opcode at all and answers `E_BAD_OPCODE`, the model's reading (assumption log 25). -/
def Obligations.WrongLengths : Prop :=
  (∀ (s : State) (opc : Byte) (tail : List Byte) (rest : List Input),
    s.inbox = .message .host (opc :: tail) :: rest →
    (opc = 0x01 ∧ tail.length ≠ 17 ∨ opc = 0x02 ∧ tail.length < 9 ∨ opc = 0x03 ∧ tail.length ≠ 1
      ∨ opc = 0x04 ∧ tail.length ≠ 5 ∨ opc = 0x05 ∧ tail.length ≠ 1) →
    step s = .next { s with inbox := rest, answers := s.answers ++ [[0x22]] })
  ∧ (∀ (s : State) (ch : ChanId), exec (.statusRead ch 0) s = .next { s with answers := s.answers ++ [[0x22]] })
  ∧ (∀ (s : State) (rest : List Input), s.inbox = .message .host [] :: rest →
    step s = .next { s with inbox := rest, answers := s.answers ++ [[0x21]] })
  ∧ (∀ (s : State) (m : List Byte) (rest : List Input),
    s.inbox = .message .platform m :: rest → m.length ≠ 10 → step s = .next { s with inbox := rest })

/-- Rule R116: a channel id at or above `NUM_CHANNELS` answers `E_BAD_CHANNEL` to every host command and is ignored by both
events. `MAXLEN = 0` is answered first (rule R310; assumption log 12). -/
def Obligations.BadChannelIds : Prop :=
  ∀ (s : State) (ch : ChanId), s.chans.length ≤ ch.toNat →
    (∀ w0 w1 w2 w3, exec (.cfg ch w0 w1 w2 w3) s = .next { s with answers := s.answers ++ [[0x23]] })
    ∧ (∀ now frame, exec (.submit ch now frame) s = .next { s with answers := s.answers ++ [[0x23]] })
    ∧ exec (.status ch) s = .next { s with answers := s.answers ++ [[0x23]] }
    ∧ (∀ maxLen, maxLen ≠ 0 → exec (.statusRead ch maxLen) s = .next { s with answers := s.answers ++ [[0x23]] })
    ∧ exec (.shutdown ch) s = .next { s with answers := s.answers ++ [[0x23]] }
    ∧ (∀ now, exec (.complete ch now) s = .next s)
    ∧ (∀ now, exec (.wake ch now) s = .next s)

/-! ### Power-on and the ROM -/

/-- Power-on (70_reset_and_hazards.md rule R350, first level): every slot is empty, and no output command and no event is
pending. The number of channels is 1 to 256 (00_scope.md rule R5). The lists of inputs and answers are the model's own fields
(assumption logs 6 and 14). A launch from power-on with given tables goes on exactly where they are maps that meet conditions
1 to 4 of rule R353, then with those tables, and else is refused. A launch from a state with configured sessions (rule R371)
goes on exactly where the ROM meets all five conditions, there are 1 to 256 channels, and the registers of every session that
is not FATAL meet 10_state.md rule R54 (93_implementation_defined.md section 3: "`refuse` if supplied as a launch state"); it
changes nothing but the ROM. That a launch is a function of its own is the model's choice (assumption log 1). -/
def Obligations.PowerOnState : Prop :=
  1 ≤ State.reset.chans.length ∧ State.reset.chans.length ≤ 256
    ∧ (∀ ch, State.reset.session? ch = none)
    ∧ State.reset.outs = [] ∧ State.reset.answers = [] ∧ State.reset.inbox = []
    ∧ (∀ (t : RomTables) (s : State), launch t = .next s →
        s.rom.tables = t ∧ s.inbox = [] ∧ s.outs = [] ∧ ∀ ch, s.session? ch = none)
    ∧ (∀ (t : RomTables) (s u : State), launchFrom t s = .next u → ∃ h, u = { s with rom := ⟨t, h⟩ })
    ∧ ∀ t : RomTables,
        let ok := RisingKeys t.chips ∧ RisingKeys t.layouts ∧ RisingKeys t.predefs
          ∧ (∀ p, (0, p) ∉ t.chips) ∧ (∀ l, (0, l) ∉ t.layouts)
          ∧ (∀ id p, (id, p) ∈ t.chips → p.tPassiveMinNs.toNat ≤ p.tPassiveMaxNs.toNat)
          ∧ (∀ id l, (id, l) ∈ t.layouts →
              (l.channels = 3 ∨ l.channels = 4) ∧ l.map.length = l.channels ∧ ∀ o ∈ l.map, o < l.channels)
          ∧ ∀ ix lay chp, (ix, lay, chp) ∈ t.predefs → (∃ l, (lay, l) ∈ t.layouts) ∧ ∃ p, (chp, p) ∈ t.chips
        (ok → ∃ s, launch t = .next s) ∧ (¬ok → launch t = .refused .illFormedRom)
        ∧ ∀ s : State,
            let layouts := ∀ ch ss, s.session? ch = some ss → ss.cfg.mode = .perFrame → t.layouts ≠ []
            let registers := ∀ ch ss, s.session? ch = some ss → ss.eng.fatal = false → EngineSound ss
            let count := 1 ≤ s.chans.length ∧ s.chans.length ≤ 256
            (ok → layouts → registers → count → ∃ u, launchFrom t s = .next u)
            ∧ (¬ok → launchFrom t s = .refused .illFormedRom)
            ∧ (¬(layouts ∧ registers ∧ count) → ∃ r, launchFrom t s = .refused r)

/-- The ROM lookups (40_profile_rom.md rules R131 to R134): a mapped id gives its entry, id 0 of the chip and layout tables
and an unmapped id give `none`, and nothing else changes. That a lookup runs on its own and answers in the field `ret` is the
model's choice (assumption log 4). -/
def Obligations.RomLookups : Prop :=
  ∀ s : State,
    (∀ id p, (id, p) ∈ s.rom.tables.chips → exec (.romChip id) s = .next { s with ret := .chip (some p) })
    ∧ (∀ id, (id = 0 ∨ ∀ p, (id, p) ∉ s.rom.tables.chips) → exec (.romChip id) s = .next { s with ret := .chip none })
    ∧ (∀ id l, (id, l) ∈ s.rom.tables.layouts → exec (.romLayout id) s = .next { s with ret := .layout (some l) })
    ∧ (∀ id, (id = 0 ∨ ∀ l, (id, l) ∉ s.rom.tables.layouts) →
        exec (.romLayout id) s = .next { s with ret := .layout none })
    ∧ (∀ ix e, (ix, e) ∈ s.rom.tables.predefs → exec (.romPredef ix) s = .next { s with ret := .predef (some e) })
    ∧ (∀ ix, (∀ e, (ix, e) ∉ s.rom.tables.predefs) → exec (.romPredef ix) s = .next { s with ret := .predef none })

/-- Rule R63: the ROM is constant. With it, the number of channels and the capacity parameter stay as they are. -/
def Obligations.RomConstant : Prop :=
  ∀ s t : State, step s = .next t →
    t.rom = s.rom ∧ t.capTable = s.capTable ∧ t.chans.length = s.chans.length

/-! ### CFG -/

/-- Rule R242: the checks of CFG in their order, each on the operand bits, and the two ids of rule R243. -/
def Obligations.CfgCheckOrder : Prop :=
  ∀ (rom : Rom) (w0 w1 w2 : BitVec 32),
    let reserved := w0.getLsbD 7 = true ∨ w1.toNat / 2 ^ 12 ≠ 0 ∨ w2.toNat / 2 ^ 8 ≠ 0
      ∨ (w0.getLsbD 4 = true ∧ w0.toNat / 2 % 4 = 3)
    let missing := w0.getLsbD 3 = false ∨ w0.getLsbD 4 = false
    let badCount := w1.toNat % 2 ^ 12 = 0 ∨ 2048 < w1.toNat % 2 ^ 12
    let predef := BitVec.ofNat 8 (w0.toNat / 2 ^ 8)
    let lay := BitVec.ofNat 8 (w0.toNat / 2 ^ 16)
    let chp := BitVec.ofNat 8 (w0.toNat / 2 ^ 24)
    (reserved → cfgCheck rom w0 w1 w2 = .error .cfgReserved)
    ∧ (¬reserved → missing → cfgCheck rom w0 w1 w2 = .error .cfgInsufficient)
    ∧ (¬reserved → ¬missing → badCount → cfgCheck rom w0 w1 w2 = .error .cfgLedCount)
    ∧ (¬reserved → ¬missing → ¬badCount → w0.toNat / 2 % 4 = 0 → rom.predef predef = none →
        cfgCheck rom w0 w1 w2 = .error .cfgId)
    ∧ (¬reserved → ¬missing → ¬badCount → w0.toNat / 2 % 4 = 1 → (rom.layout lay = none ∨ rom.chip chp = none) →
        cfgCheck rom w0 w1 w2 = .error .cfgId)
    ∧ (¬reserved → ¬missing → ¬badCount → w0.toNat / 2 % 4 = 0 → ∀ e, rom.predef predef = some e →
        cfgCheck rom w0 w1 w2 = .ok (.predef, e))
    ∧ (¬reserved → ¬missing → ¬badCount → w0.toNat / 2 % 4 = 1 → rom.layout lay ≠ none → rom.chip chp ≠ none →
        cfgCheck rom w0 w1 w2 = .ok (.pair, lay, chp))
    ∧ (¬reserved → ¬missing → ¬badCount → w0.toNat / 2 % 4 = 2 → cfgCheck rom w0 w1 w2 = .ok (.perFrame, 0, 0))

/-- A CFG that fails a check, or meets a full slot, answers its code, with the byte of 60_exceptions.md rule R300, and changes
nothing else (rules R240, R241 and R301). In
VARIABLE mode with an empty `LAYOUT_ROM`, `CMAX` does not exist, and CFG is refused by name (70_reset_and_hazards.md rule
R353, condition 5; assumption log 20). -/
def Obligations.CfgErrorsChangeNothing : Prop :=
  ∀ (s : State) (ch : ChanId) (c : Channel) (w0 w1 w2 w3 : BitVec 32), s.channel? ch = some c →
    (∀ ss, c.session = some ss → ss.eng.fatal = true →
      exec (.cfg ch w0 w1 w2 w3) s = .next { s with answers := s.answers ++ [[0x31]] })
    ∧ (∀ ss, c.session = some ss → ss.eng.fatal = false →
      exec (.cfg ch w0 w1 w2 w3) s = .next { s with answers := s.answers ++ [[0x05]] })
    ∧ (∀ e, c.session = none → cfgCheck s.rom w0 w1 w2 = .error e →
      ∃ b, (e, b) ∈ [(Code.cfgLedCount, (0x01 : Byte)), (.cfgId, 0x02), (.cfgInsufficient, 0x03), (.cfgReserved, 0x04)]
        ∧ exec (.cfg ch w0 w1 w2 w3) s = .next { s with answers := s.answers ++ [[b]] })
    ∧ (∀ ids, c.session = none → cfgCheck s.rom w0 w1 w2 = .ok (.perFrame, ids) → s.rom.tables.layouts = [] →
      exec (.cfg ch w0 w1 w2 w3) s = .refused (.noLayoutForVariable ch))

/-- The registers of the session that a successful CFG creates (10_state.md rule R52, 43_session.md rules R241 to R244). `n`
is the channel count that sizes the buffer: in VARIABLE mode `CMAX`, the largest `C` of `LAYOUT_ROM` (00_scope.md rule R6).
`CAP_WORDS` is the platform's value where the model's table of departures has one, and else `ceil(ledmax * c * 8 / 21)` (rules
R5 and R244); that the parameter is such a table is the model's choice (assumption log 11). -/
def Obligations.CfgCreatesSession : Prop :=
  (∀ (table : List ((Nat × Nat) × BitVec 16)) (ledMax c : Nat), ledMax ≤ 2048 → c ≤ 4 →
    (∀ w, ((ledMax, c), w) ∉ table) → (capWords table ledMax c).toNat = (ledMax * c * 8 + 20) / 21)
  ∧ (∀ (table : List ((Nat × Nat) × BitVec 16)) (ledMax c : Nat) (w : BitVec 16),
    capWords (((ledMax, c), w) :: table) ledMax c = w)
  ∧ (∀ (rom : Rom) (n : Nat), rom.cmax = some n ↔
    (∃ id l, (id, l) ∈ rom.tables.layouts ∧ l.channels = n) ∧ ∀ id l, (id, l) ∈ rom.tables.layouts → l.channels ≤ n)
  ∧ ∀ (s : State) (ch : ChanId) (c : Channel) (w0 w1 w2 w3 : BitVec 32) (m : Mode) (lay chp : RomId) (n : Nat),
    s.channel? ch = some c → c.session = none → cfgCheck s.rom w0 w1 w2 = .ok (m, lay, chp) →
    (m = .perFrame → s.rom.cmax = some n) →
    (m ≠ .perFrame → ∃ l, s.rom.layout lay = some l ∧ l.channels = n) →
    exec (.cfg ch w0 w1 w2 w3) s = .next
      { s with
        answers := s.answers ++ [[0x00]]
        chans := s.chans.set ch.toNat
          { c with
            session := some
              { cfg :=
                  { inv := w0.getLsbD 0
                    ledMax := BitVec.ofNat 12 w1.toNat
                    mode := m
                    layout := lay
                    chip := chp
                    maxRetry := if w0.getLsbD 5 then BitVec.ofNat 8 w2.toNat else 3
                    maxPassNs := if w0.getLsbD 6 then w3 else 0
                    cap := capWords s.capTable (w1.toNat % 2 ^ 12) n }
                eng :=
                  { st := .idle, notReady := false, pendNew := false, pendRetry := false, fatal := false, wcount := 0,
                    next := 0, remain := 0, retry := 0, expectT := 0, frameT0 := 0, tmrArmed := false,
                    tmrDeadline := 0 }
                latch := { layout := 0, chip := 0, maxPassNs := 0, maxRetry := 0 }
                buf := []
                stats :=
                  { updates := 0, overruns := 0, retries := 0, errors := 0, irqs := 0, lastRetries := 0, lastViol := none,
                    minDelay := none, maxDelay := none, lastUpd := none, minUpd := none, maxUpd := none }
                snap := { text := ⟨[], by decide⟩, off := 0, valid := false } } } }

/-! ### Frames (43_session.md) -/

/-- The in-band header (rules R247 to R251), on the frame's bytes: when it is malformed, when its ids reject it, and what an
accepted header gives. -/
def Obligations.VariableHeader : Prop :=
  ∀ (rom : Rom) (cfg : CfgRegs) (frame : List Byte), cfg.mode = .perFrame →
    let h := (byteAt frame 0).toNat
    let malformed := frame = [] ∨ h < 5 ∨ frame.length < h + 1
    (malformed → parseFrame rom cfg frame = .error .frameMalformed)
    ∧ (¬malformed → (rom.layout (byteAt frame 1) = none ∨ rom.chip (byteAt frame 2) = none) →
        parseFrame rom cfg frame = .error .frameId)
    ∧ (¬malformed → ∀ l p, rom.layout (byteAt frame 1) = some l → rom.chip (byteAt frame 2) = some p →
        ∃ f, parseFrame rom cfg frame = .ok f ∧ f.layoutId = byteAt frame 1 ∧ f.chipId = byteAt frame 2 ∧ f.layout = l
          ∧ f.chip = p
          ∧ f.maxPass.toNat
              = (let us := (byteAt frame 3).toNat * 256 + (byteAt frame 4).toNat
                 if us = 0 then p.tPassiveMaxNs.toNat else us * 1000)
          ∧ f.maxRetry = (if byteAt frame 5 = 0 then cfg.maxRetry else byteAt frame 5)
          ∧ f.payload = frame.drop (h + 1))

/-- Fixed-type mode (rule R246): the values come from the configuration, the whole frame is payload, and no frame is
rejected. -/
def Obligations.FixedModeFrame : Prop :=
  ∀ (rom : Rom) (cfg : CfgRegs) (frame : List Byte) (l : LayoutProfile) (p : ChipProfile),
    cfg.mode ≠ .perFrame → rom.layout cfg.layout = some l → rom.chip cfg.chip = some p →
    parseFrame rom cfg frame = .ok
      { layoutId := cfg.layout
        chipId := cfg.chip
        layout := l
        chip := p
        maxPass := if cfg.maxPassNs ≠ 0 then cfg.maxPassNs else p.tPassiveMaxNs
        maxRetry := cfg.maxRetry
        payload := frame }

/-- The remap (41_encoder.md rule R151): `E[i*C + j] = PAY[i*C + MAP[j]]` for every LED `i < N` and output position `j < C`,
and `E` has `N * C` bytes. `N` is the LED count of rule R252, and this `E` is what SUBMIT encodes for a frame. -/
def Obligations.RemapRule : Prop :=
  (∀ (f : Frame) (cfg : CfgRegs),
    f.leds cfg = min (f.payload.length / f.layout.channels) cfg.ledMax.toNat
    ∧ f.encoded cfg = remap f.layout (f.leds cfg) f.payload)
  ∧ ∀ (rom : Rom) (id : RomId) (l : LayoutProfile) (cfg : CfgRegs) (pay : List Byte), rom.layout id = some l →
    let n := min (pay.length / l.channels) cfg.ledMax.toNat
    ledCount cfg l pay = n
    ∧ (remap l n pay).length = n * l.channels
    ∧ ∀ i j, i < n → j < l.channels →
        ∃ off b, l.map[j]? = some off ∧ off < l.channels ∧ pay[i * l.channels + off]? = some b
          ∧ (remap l n pay)[i * l.channels + j]? = some b

/-- A rejected frame changes nothing and sends nothing; the code, with the byte of 60_exceptions.md rule R300, is all that can
be seen (rules R247, R248 and R257). In the
fixed modes no frame is rejected (rule R246): a session whose ids the ROM does not hold, a register combination outside rule
R25, refuses every frame by name (assumption log 15). -/
def Obligations.RejectedFrameChangesNothing : Prop :=
  ∀ (s : State) (ch : ChanId) (c : Channel) (ss : Session) (now : Ns64) (frame : List Byte), Live s ch c ss →
    (∀ e, ss.cfg.mode = .perFrame → parseFrame s.rom ss.cfg frame = .error e →
      ∃ b, (e, b) ∈ [(Code.frameMalformed, (0x10 : Byte)), (.frameId, 0x11)]
        ∧ exec (.submit ch now frame) s = .next { s with answers := s.answers ++ [[b]] })
    ∧ (ss.cfg.mode ≠ .perFrame → (s.rom.layout ss.cfg.layout = none ∨ s.rom.chip ss.cfg.chip = none) →
      exec (.submit ch now frame) s = .refused (.danglingProfile ch))

/-- Rule R253: a frame with no whole LED answers `OK` with `K = 0` and changes no state, whatever the engine is doing. -/
def Obligations.ZeroLedFrame : Prop :=
  ∀ (s : State) (ch : ChanId) (c : Channel) (ss : Session) (now : Ns64) (frame : List Byte) (f : Frame),
    Live s ch c ss → parseFrame s.rom ss.cfg frame = .ok f →
    min (f.payload.length / f.layout.channels) ss.cfg.ledMax.toNat = 0 →
    exec (.submit ch now frame) s = .next { s with answers := s.answers ++ [[0x00, 0x00, 0x00, 0x00, 0x00]] }

/-- The commands that start an attempt (42_engine.md rule R192), as bytes: configure, load, enable. -/
def attemptBytes (ch : ChanId) (p : ChipProfile) (inv : Bool) (bits : Slots) : List (List Byte) :=
  [ 0x80 :: ch :: (bytes32 p.t0ActiveNs ++ bytes32 p.tPassiveMinNs ++ [if inv then 1 else 0]),
    0x81 :: ch :: bytes64 bits,
    [0x82, ch] ]

/-- The generator after those commands (rules R205 to R207). -/
def attemptGen (p : ChipProfile) (inv : Bool) (bits : Slots) : Gen :=
  { activeNs := p.t0ActiveNs, passiveNs := p.tPassiveMinNs, inv := inv, en := true, word := some bits }

/-- SUBMIT to an IDLE engine (rules R245, R254 to R256, R203, R204, R192 and R193): the frame is encoded and latched, no
overrun is counted, and its first word starts at once. In this statement and the two below, that the commands are at the
devices when the step ends (assumption log 7), and that the encoder's operands stay in `enc` (assumption log 4), is the
model's choice. -/
def Obligations.SubmitWhenIdle : Prop :=
  ∀ (s : State) (ch : ChanId) (c : Channel) (ss : Session) (now : Ns64) (frame : List Byte) (f : Frame) (x : EncRun),
    Live s ch c ss → ss.eng.st = .idle → parseFrame s.rom ss.cfg frame = .ok f → 1 ≤ f.leds ss.cfg →
    encodeFrame f.chip ss.cfg.cap (f.encoded ss.cfg) ss.buf = .ok x →
    ∃ w, Memory.read x.buf 0 = some w ∧ 1 ≤ x.regs.k.toNat
      ∧ exec (.submit ch now frame) s = .next
        { s with
          enc := { regs := EncRegs.zero, ch := ch, chip := f.chip, bytes := f.encoded ss.cfg }
          answers := s.answers ++ [0x00 :: bytes32 (BitVec.ofNat 32 x.regs.k.toNat)]
          outs := s.outs ++ attemptBytes ch f.chip ss.cfg.inv w.bits
          chans := s.chans.set ch.toNat
            { c with
              gen := attemptGen f.chip ss.cfg.inv w.bits
              session := some
                { ss with
                  buf := x.buf
                  latch := { layout := f.layoutId, chip := f.chipId, maxPassNs := f.maxPass, maxRetry := f.maxRetry }
                  eng :=
                    { ss.eng with
                      st := .sending, notReady := true, pendRetry := false, wcount := x.regs.k, next := 1,
                      remain := x.regs.k - 1, retry := 0, expectT := now + w.dur, frameT0 := now } } } }

/-- SUBMIT to a SENDING engine (the same rules): the frame in flight is aborted first, an overrun is counted, and the new
frame's first word starts in the same step. The model's choices are those of `SubmitWhenIdle` (assumption logs 4 and 7). -/
def Obligations.SubmitWhenSending : Prop :=
  ∀ (s : State) (ch : ChanId) (c : Channel) (ss : Session) (now : Ns64) (frame : List Byte) (f : Frame) (x : EncRun),
    Live s ch c ss → ss.eng.st = .sending → parseFrame s.rom ss.cfg frame = .ok f → 1 ≤ f.leds ss.cfg →
    encodeFrame f.chip ss.cfg.cap (f.encoded ss.cfg) ss.buf = .ok x →
    ∃ w, Memory.read x.buf 0 = some w ∧ 1 ≤ x.regs.k.toNat
      ∧ exec (.submit ch now frame) s = .next
        { s with
          enc := { regs := EncRegs.zero, ch := ch, chip := f.chip, bytes := f.encoded ss.cfg }
          answers := s.answers ++ [0x00 :: bytes32 (BitVec.ofNat 32 x.regs.k.toNat)]
          outs := s.outs ++ ([0x83, ch] :: attemptBytes ch f.chip ss.cfg.inv w.bits)
          chans := s.chans.set ch.toNat
            { c with
              gen := attemptGen f.chip ss.cfg.inv w.bits
              session := some
                { ss with
                  buf := x.buf
                  stats := { ss.stats with overruns := ss.stats.overruns + 1 }
                  latch := { layout := f.layoutId, chip := f.chipId, maxPassNs := f.maxPass, maxRetry := f.maxRetry }
                  eng :=
                    { ss.eng with
                      st := .sending, notReady := true, pendRetry := false, wcount := x.regs.k, next := 1,
                      remain := x.regs.k - 1, retry := 0, expectT := now + w.dur, frameT0 := now } } } }

/-- SUBMIT inside a reset, retry or failure window (the same rules): an overrun is counted, the frame waits for the window's
WAKE, a pending retry is dropped, and no command is sent. The model's choice is the field `enc` (assumption log 4). -/
def Obligations.SubmitInWindow : Prop :=
  ∀ (s : State) (ch : ChanId) (c : Channel) (ss : Session) (now : Ns64) (frame : List Byte) (f : Frame) (x : EncRun),
    Live s ch c ss → (ss.eng.st = .await ∨ ss.eng.st = .failed) → parseFrame s.rom ss.cfg frame = .ok f →
    1 ≤ f.leds ss.cfg → encodeFrame f.chip ss.cfg.cap (f.encoded ss.cfg) ss.buf = .ok x →
    exec (.submit ch now frame) s = .next
      { s with
        enc := { regs := EncRegs.zero, ch := ch, chip := f.chip, bytes := f.encoded ss.cfg }
        answers := s.answers ++ [0x00 :: bytes32 (BitVec.ofNat 32 x.regs.k.toNat)]
        chans := s.chans.set ch.toNat
          { c with
            session := some
              { ss with
                buf := x.buf
                stats := { ss.stats with overruns := ss.stats.overruns + 1 }
                latch := { layout := f.layoutId, chip := f.chipId, maxPassNs := f.maxPass, maxRetry := f.maxRetry }
                eng :=
                  { ss.eng with
                    st := .await, pendNew := true, pendRetry := false, wcount := x.regs.k, retry := 0 } } } }

/-- The capacity fault (60_exceptions.md rule R305), the block's one exception: the overrun count, the abort and the words
already written stay; FATAL and NOT_READY are set, the pending flags and REMAIN are cleared, an armed timer is cancelled, and
`WCOUNT`, the latches, `RETRY` and `ST` keep their values. That the commands are at the devices when the step ends is the
model's choice (assumption log 7). -/
def Obligations.CapacityFaultInSubmit : Prop :=
  ∀ (s : State) (ch : ChanId) (c : Channel) (ss : Session) (now : Ns64) (frame : List Byte) (f : Frame) (x : EncRun),
    Live s ch c ss → parseFrame s.rom ss.cfg frame = .ok f → 1 ≤ f.leds ss.cfg →
    encodeFrame f.chip ss.cfg.cap (f.encoded ss.cfg) ss.buf = .error x →
    ∃ t c', exec (.submit ch now frame) s = .next t
      ∧ t.channel? ch = some c'
      ∧ c'.session = some
          { ss with
            buf := x.buf
            stats :=
              { ss.stats with overruns := if ss.eng.st = .idle then ss.stats.overruns else ss.stats.overruns + 1 }
            eng :=
              { ss.eng with
                fatal := true, notReady := true, pendNew := false, pendRetry := false, remain := 0, tmrArmed := false } }
      ∧ t.answers = s.answers ++ [[0x30]]
      ∧ t.outs = s.outs ++ (if ss.eng.st = .sending then [[0x83, ch]] else [])
          ++ (if ss.eng.tmrArmed then [[0x91, ch]] else [])
      ∧ c'.gen = (if ss.eng.st = .sending then { c.gen with en := false, word := none } else c.gen)
      ∧ c'.tmr = (if ss.eng.tmrArmed then { req := none } else c.tmr)
      ∧ (∀ ch', ch' ≠ ch → t.channel? ch' = s.channel? ch')
      ∧ t.rom = s.rom ∧ t.capTable = s.capTable ∧ t.ret = s.ret ∧ t.inbox = s.inbox

/-! ### The encoder (41_encoder.md) -/

/-- ENC_BIT0 (rule R157) by the slot position `q` it starts at: the slots it puts, the slots it drops at a word boundary, and
the word it closes. `r` is the run's registers. -/
def Obligations.ZeroBitSlots : Prop :=
  ∀ (p : ChipProfile) (cap : BitVec 16) (r : EncRegs) (buf : Buffer),
    let a1 := putSlot r.acc r.pos true
    let close (acc : Slots) : EncRun :=
      ⟨⟨0, 0, 0, r.k + 1⟩,
        Memory.write buf r.k.toNat ⟨acc, BitVec.ofNat 64 (wordDur p (r.na + 1).toNat)⟩⟩
    (p.doublePassiveForZero = false → r.pos.toNat ≤ 61 →
      encodeZero p cap ⟨r, buf⟩ = .ok ⟨⟨r.pos + 2, putSlot a1 (r.pos + 1) false, r.na + 1, r.k⟩, buf⟩)
    ∧ (p.doublePassiveForZero = true → r.pos.toNat ≤ 60 →
      encodeZero p cap ⟨r, buf⟩
        = .ok ⟨⟨r.pos + 3, putSlot (putSlot a1 (r.pos + 1) false) (r.pos + 2) false, r.na + 1, r.k⟩, buf⟩)
    ∧ (r.k < cap → p.doublePassiveForZero = true → r.pos = 61 →
      encodeZero p cap ⟨r, buf⟩ = .ok (close (putSlot (putSlot a1 62 false) 63 false)))
    ∧ (r.k < cap → r.pos = 62 → encodeZero p cap ⟨r, buf⟩ = .ok (close (putSlot a1 63 false)))
    ∧ (r.k < cap → r.pos = 63 → encodeZero p cap ⟨r, buf⟩ = .ok (close a1))

/-- ENC_BIT1 (rule R158) by the slot position it starts at: two active slots in one word, the trailing passive slot dropped at
a fresh word, and at slot position 63 one passive slot first, which closes the word. -/
def Obligations.OneBitSlots : Prop :=
  ∀ (p : ChipProfile) (cap : BitVec 16) (r : EncRegs) (buf : Buffer),
    let a2 := putSlot (putSlot r.acc r.pos true) (r.pos + 1) true
    let close (acc : Slots) (na : Nat) : Buffer := Memory.write buf r.k.toNat ⟨acc, BitVec.ofNat 64 (wordDur p na)⟩
    (r.pos.toNat ≤ 60 →
      encodeOne p cap ⟨r, buf⟩ = .ok ⟨⟨r.pos + 3, putSlot a2 (r.pos + 2) false, r.na + 2, r.k⟩, buf⟩)
    ∧ (r.k < cap → r.pos = 61 →
      encodeOne p cap ⟨r, buf⟩ = .ok ⟨⟨0, 0, 0, r.k + 1⟩, close (putSlot a2 63 false) (r.na + 2).toNat⟩)
    ∧ (r.k < cap → r.pos = 62 → encodeOne p cap ⟨r, buf⟩ = .ok ⟨⟨0, 0, 0, r.k + 1⟩, close a2 (r.na + 2).toNat⟩)
    ∧ (r.k < cap → r.pos = 63 →
      encodeOne p cap ⟨r, buf⟩
        = .ok ⟨⟨3, 0xC000000000000000, 2, r.k + 1⟩, close (putSlot r.acc 63 false) r.na.toNat⟩)

/-- ENC_PAD (rule R159): nothing at a fresh word; else passive slots to the end of the word, which closes. -/
def Obligations.PadSlots : Prop :=
  ∀ (p : ChipProfile) (cap : BitVec 16) (r : EncRegs) (buf : Buffer),
    (r.pos = 0 → encodePad p cap ⟨r, buf⟩ = .ok ⟨r, buf⟩)
    ∧ (r.pos ≠ 0 → r.k < cap → ∃ acc,
        (∀ i, acc.getLsbD i = (r.acc.getLsbD i && decide (64 - r.pos.toNat ≤ i)))
        ∧ encodePad p cap ⟨r, buf⟩
          = .ok ⟨⟨0, 0, 0, r.k + 1⟩, Memory.write buf r.k.toNat ⟨acc, BitVec.ofNat 64 (wordDur p r.na.toNat)⟩⟩)

/-- The encoder operations run on their own (rules R157 to R160). On the buffer of a session, an operation that finds room for
the word it closes, or closes none, completes with its effect on the encoder's registers and that buffer, and ENCODE, which
always completes on a buffer of the default size, answers the word count `K`. An operation that closes a word of a full buffer
takes the capacity fault (rule R155, 60_exceptions.md rule R305) with `E_K`. Without a session there is no buffer, and an
operation that closes a word stops by name (10_state.md rule R53). Nothing else of the block changes. That they run on their
own, where they leave their registers and answers, and that stop, are the model's choice: assumption log 4. -/
def Obligations.EncoderOpsComplete : Prop :=
  (∀ (s : State) (c : Channel) (ss : Session), s.channel? s.enc.ch = some c → c.session = some ss →
    let r := s.enc.regs
    let lastZero := if s.enc.chip.doublePassiveForZero then 60 else 61
    let next (x : EncRun) (ret : Ret) : Host.Outcome State Fault Refusal := .next
      { s with
        enc := { s.enc with regs := x.regs }
        ret := ret
        chans := s.chans.set s.enc.ch.toNat { c with session := some { ss with buf := x.buf } } }
    let full (buf : Buffer) (k : BitVec 16) : Host.Outcome State Fault Refusal := .next
      { s with
        enc := { s.enc with regs := ⟨0, 0, 0, 0⟩ }
        ret := .capacity k
        outs := s.outs ++ (if ss.eng.tmrArmed then [[0x91, s.enc.ch]] else [])
        chans := s.chans.set s.enc.ch.toNat
          { c with
            tmr := if ss.eng.tmrArmed then { req := none } else c.tmr
            session := some
              { ss with
                buf := buf
                eng :=
                  { ss.eng with
                    fatal := true, notReady := true, pendNew := false, pendRetry := false, remain := 0,
                    tmrArmed := false } } } }
    ((r.k < ss.cfg.cap ∨ r.pos.toNat ≤ lastZero) →
      ∃ x, encodeZero s.enc.chip ss.cfg.cap ⟨r, ss.buf⟩ = .ok x ∧ exec .encBit0 s = next x .nothing)
    ∧ ((r.k < ss.cfg.cap ∨ r.pos.toNat ≤ 60) →
      ∃ x, encodeOne s.enc.chip ss.cfg.cap ⟨r, ss.buf⟩ = .ok x ∧ exec .encBit1 s = next x .nothing)
    ∧ ((r.k < ss.cfg.cap ∨ r.pos = 0) →
      ∃ x, encodePad s.enc.chip ss.cfg.cap ⟨r, ss.buf⟩ = .ok x ∧ exec .encPad s = next x .nothing)
    ∧ (ss.cfg.cap ≤ r.k →
      (lastZero < r.pos.toNat → exec .encBit0 s = full ss.buf r.k)
      ∧ (60 < r.pos.toNat → exec .encBit1 s = full ss.buf r.k)
      ∧ (r.pos ≠ 0 → exec .encPad s = full ss.buf r.k))
    ∧ (∀ x, encodeFrame s.enc.chip ss.cfg.cap s.enc.bytes ss.buf = .ok x → exec .encode s = next x (.words x.regs.k))
    ∧ (∀ x, encodeFrame s.enc.chip ss.cfg.cap s.enc.bytes ss.buf = .error x → exec .encode s = full x.buf x.regs.k)
    ∧ (8 * s.enc.bytes.length ≤ 21 * ss.cfg.cap.toNat →
      ∃ x, encodeFrame s.enc.chip ss.cfg.cap s.enc.bytes ss.buf = .ok x))
  ∧ (∀ s : State, s.session? s.enc.ch = none →
    let r := s.enc.regs
    let lastZero := if s.enc.chip.doublePassiveForZero then 60 else 61
    let next (regs : EncRegs) (ret : Ret) : Host.Outcome State Fault Refusal :=
      .next { s with enc := { s.enc with regs := regs }, ret := ret }
    (lastZero < r.pos.toNat → exec .encBit0 s = .fault (.noBuffer s.enc.ch))
    ∧ (60 < r.pos.toNat → exec .encBit1 s = .fault (.noBuffer s.enc.ch))
    ∧ (r.pos ≠ 0 → exec .encPad s = .fault (.noBuffer s.enc.ch))
    ∧ (s.enc.bytes ≠ [] → exec .encode s = .fault (.noBuffer s.enc.ch))
    ∧ (r.pos.toNat ≤ lastZero →
      ∃ x, encodeZero s.enc.chip 0 ⟨r, []⟩ = .ok x ∧ exec .encBit0 s = next x.regs .nothing)
    ∧ (r.pos.toNat ≤ 60 → ∃ x, encodeOne s.enc.chip 0 ⟨r, []⟩ = .ok x ∧ exec .encBit1 s = next x.regs .nothing)
    ∧ (r.pos = 0 → exec .encPad s = next r .nothing)
    ∧ (s.enc.bytes = [] → exec .encode s = next ⟨0, 0, 0, 0⟩ (.words 0)))

/-- Rule R166: `K <= ceil(B / 21)` for every input, with no capacity fault where `CAP` is at least that bound; and an
all-ones payload reaches the bound. So no frame of a session meets the capacity fault whose `CAP` is the default
`ceil(ledmax * c * 8 / 21)`, with `c` as rule R244 has it (rules R167 and R244). -/
def Obligations.WorstCaseWordCount : Prop :=
  (∀ (p : ChipProfile) (cap : BitVec 16) (e : List Byte) (buf : Buffer), 8 * e.length ≤ 21 * cap.toNat →
    ∃ x, encodeFrame p cap e buf = .ok x ∧ x.regs.k.toNat ≤ ceilDiv (8 * e.length) 21)
  ∧ (∀ (p : ChipProfile) (cap : BitVec 16) (n : Nat) (buf : Buffer), 8 * n ≤ 21 * cap.toNat →
    ∃ x, encodeFrame p cap (List.replicate n 0xFF) buf = .ok x ∧ x.regs.k.toNat = ceilDiv (8 * n) 21)
  ∧ ∀ (rom : Rom) (cfg : CfgRegs) (frame : List Byte) (f : Frame) (c : Nat) (buf : Buffer),
    parseFrame rom cfg frame = .ok f → (cfg.mode = .perFrame → rom.cmax = some c) →
    (cfg.mode ≠ .perFrame → ∃ l, rom.layout cfg.layout = some l ∧ l.channels = c) →
    cfg.cap.toNat = (cfg.ledMax.toNat * c * 8 + 20) / 21 →
    ∃ x, encodeFrame f.chip cfg.cap (f.encoded cfg) buf = .ok x

/-- Rule R165: `K = ceil(S / 64)`, with `S` the sum of the per-bit slot counts, inserted slots included. The bits are those of
rule R152, bit 7 of each byte first, and an encoded frame is what rule R160 makes of them: ENC_BIT1 or ENC_BIT0 for each bit
in order, from fresh working registers, and then ENC_PAD. -/
def Obligations.WordCountFormula : Prop :=
  (∀ e : List Byte, (bitsOf e).length = 8 * e.length
    ∧ ∀ k b, e[k]? = some b → ∀ j, j < 8 → (bitsOf e)[8 * k + j]? = some (b.getLsbD (7 - j)))
  ∧ (∀ (p : ChipProfile) (cap : BitVec 16) (e : List Byte) (buf : Buffer),
    encodeFrame p cap e buf
      = ((bitsOf e).foldlM (fun (x : EncRun) (b : Bool) => if b then encodeOne p cap x else encodeZero p cap x)
          ⟨⟨0, 0, 0, 0⟩, buf⟩).bind (encodePad p cap))
  ∧ ∀ (p : ChipProfile) (cap : BitVec 16) (e : List Byte) (buf : Buffer) (x : EncRun), encodeFrame p cap e buf = .ok x →
    x.regs.k.toNat = ceilDiv (slotTotal p.doublePassiveForZero (bitsOf e) 0) 64

/-- Rule R163: slot 0 of every word is active, so bit 63 of every `BITS` is 1. -/
def Obligations.FirstSlotActive : Prop :=
  ∀ (p : ChipProfile) (cap : BitVec 16) (e : List Byte) (buf : Buffer) (x : EncRun), encodeFrame p cap e buf = .ok x →
    ∀ k, k < x.regs.k.toNat → ∃ w, Memory.read x.buf k = some w ∧ w.bits.getLsbD 63 = true

/-- Rule R108: the duration of every word an encoder run writes, from its active and passive slots. -/
def Obligations.WordDurations : Prop :=
  ∀ (p : ChipProfile) (cap : BitVec 16) (e : List Byte) (buf : Buffer) (x : EncRun), encodeFrame p cap e buf = .ok x →
    ∀ k, k < x.regs.k.toNat → ∃ w, Memory.read x.buf k = some w
      ∧ w.dur.toNat
          = activeSlots w.bits * p.t0ActiveNs.toNat + (64 - activeSlots w.bits) * p.tPassiveMinNs.toNat
      ∧ w.dur.toNat ≤ 64 * (2 ^ 32 - 1)

/-- What a run writes and what it leaves alone (rules R150, R155 and R171): a frame rewrites entries `0..K-1`, and every entry
at or past `K` reads as before; a run that overruns its capacity writes `0..CAP-1` and nothing at or past `CAP`. -/
def Obligations.EncoderWritesOnlyItsWords : Prop :=
  ∀ (p : ChipProfile) (cap : BitVec 16) (e : List Byte) (buf : Buffer) (x : EncRun),
    (encodeFrame p cap e buf = .ok x → ∀ k, x.regs.k.toNat ≤ k → Memory.read x.buf k = Memory.read buf k)
    ∧ (encodeFrame p cap e buf = .error x → x.regs.k = cap ∧ ∀ k, cap.toNat ≤ k → Memory.read x.buf k = Memory.read buf k)

/-! ### The pulse-timing state machine (42_engine.md) -/

/-- COMPLETE within tolerance with words left (rules R193, R195 and R196): the signal is counted, the delay enters the
minimum and the maximum, and the next word is loaded. The verdict compares integers. That the command is at the device when
the step ends is the model's choice (assumption log 7). -/
def Obligations.CompleteLoadsNextWord : Prop :=
  ∀ (s : State) (ch : ChanId) (c : Channel) (ss : Session) (now : Ns64) (w : WaveWord),
    Live s ch c ss → ss.eng.st = .sending →
    (now.toNat : Int) - ss.eng.expectT.toNat ≤ ss.latch.maxPassNs.toNat → ss.eng.remain ≠ 0 →
    ss.eng.next.toNat < ss.eng.wcount.toNat → Memory.read ss.buf ss.eng.next.toNat = some w →
    exec (.complete ch now) s = .next
      { s with
        outs := s.outs ++ [0x81 :: ch :: bytes64 w.bits]
        chans := s.chans.set ch.toNat
          { c with
            gen := { c.gen with word := some w.bits }
            session := some
              { ss with
                stats :=
                  { ss.stats with
                    irqs := ss.stats.irqs + 1
                    minDelay := minDelayWith ss.stats.minDelay ((now.toNat : Int) - ss.eng.expectT.toNat)
                    maxDelay := maxDelayWith ss.stats.maxDelay ((now.toNat : Int) - ss.eng.expectT.toNat) }
                eng :=
                  { ss.eng with
                    expectT := now + w.dur, next := ss.eng.next + 1, remain := ss.eng.remain - 1 } } } }

/-- COMPLETE within tolerance with no word left (rules R194, R195 and R197): the frame is complete, its duration is recorded,
and the reset window starts. That the command is at the timer when the step ends is the model's choice (assumption log 7). -/
def Obligations.CompleteFinishesFrame : Prop :=
  ∀ (s : State) (ch : ChanId) (c : Channel) (ss : Session) (now : Ns64) (p : ChipProfile),
    Live s ch c ss → ss.eng.st = .sending →
    (now.toNat : Int) - ss.eng.expectT.toNat ≤ ss.latch.maxPassNs.toNat → ss.eng.remain = 0 →
    s.rom.chip ss.latch.chip = some p →
    exec (.complete ch now) s = .next
      { s with
        outs := s.outs ++ [0x90 :: ch :: bytes64 (now + BitVec.ofNat 64 p.tResetNs.toNat)]
        chans := s.chans.set ch.toNat
          { c with
            tmr := { req := some (now + BitVec.ofNat 64 p.tResetNs.toNat) }
            session := some
              { ss with
                stats :=
                  { ss.stats with
                    irqs := ss.stats.irqs + 1
                    minDelay := minDelayWith ss.stats.minDelay ((now.toNat : Int) - ss.eng.expectT.toNat)
                    maxDelay := maxDelayWith ss.stats.maxDelay ((now.toNat : Int) - ss.eng.expectT.toNat)
                    updates := ss.stats.updates + 1
                    lastUpd := some (now - ss.eng.frameT0)
                    minUpd := minUpdWith ss.stats.minUpd (now - ss.eng.frameT0)
                    maxUpd := maxUpdWith ss.stats.maxUpd (now - ss.eng.frameT0)
                    lastRetries := ss.eng.retry }
                eng :=
                  { ss.eng with
                    st := .await, pendNew := false, pendRetry := false, tmrArmed := true,
                    tmrDeadline := now + BitVec.ofNat 64 p.tResetNs.toNat } } } }

/-- COMPLETE later than the tolerance (rules R194, R198, R199, R200 and R212): the violation is counted and the rest of the
attempt is abandoned. With budget left, the retry window of `floor(3 * tResetNs / 2)` starts; with the budget gone, the frame
is abandoned and the failure window of `tResetNs` starts. TMR_ARM is the only output either way. That it is at the timer when
the step ends is the model's choice (assumption log 7). -/
def Obligations.LateComplete : Prop :=
  ∀ (s : State) (ch : ChanId) (c : Channel) (ss : Session) (now : Ns64) (p : ChipProfile),
    Live s ch c ss → ss.eng.st = .sending →
    (ss.latch.maxPassNs.toNat : Int) < (now.toNat : Int) - ss.eng.expectT.toNat → s.rom.chip ss.latch.chip = some p →
    let delay := BitVec.ofInt 64 ((now.toNat : Int) - ss.eng.expectT.toNat)
    ((ss.eng.retry + 1).toNat ≤ ss.latch.maxRetry.toNat →
      exec (.complete ch now) s = .next
        { s with
          outs := s.outs ++ [0x90 :: ch :: bytes64 (now + BitVec.ofNat 64 (3 * p.tResetNs.toNat / 2))]
          chans := s.chans.set ch.toNat
            { c with
              tmr := { req := some (now + BitVec.ofNat 64 (3 * p.tResetNs.toNat / 2)) }
              session := some
                { ss with
                  stats :=
                    { ss.stats with
                      irqs := ss.stats.irqs + 1, retries := ss.stats.retries + 1, lastViol := some delay }
                  eng :=
                    { ss.eng with
                      retry := ss.eng.retry + 1, remain := 0, st := .await, pendRetry := true, tmrArmed := true,
                      tmrDeadline := now + BitVec.ofNat 64 (3 * p.tResetNs.toNat / 2) } } } })
    ∧ (ss.latch.maxRetry.toNat < (ss.eng.retry + 1).toNat →
      exec (.complete ch now) s = .next
        { s with
          outs := s.outs ++ [0x90 :: ch :: bytes64 (now + BitVec.ofNat 64 p.tResetNs.toNat)]
          chans := s.chans.set ch.toNat
            { c with
              tmr := { req := some (now + BitVec.ofNat 64 p.tResetNs.toNat) }
              session := some
                { ss with
                  stats :=
                    { ss.stats with
                      irqs := ss.stats.irqs + 1, retries := ss.stats.retries + 1, lastViol := some delay,
                      errors := ss.stats.errors + 1, lastRetries := ss.eng.retry + 1 }
                  eng :=
                    { ss.eng with
                      retry := ss.eng.retry + 1, remain := 0, st := .failed, pendRetry := false, tmrArmed := true,
                      tmrDeadline := now + BitVec.ofNat 64 p.tResetNs.toNat } } } })

/-- A COMPLETE outside SENDING only counts (rule R195, 70_reset_and_hazards.md rule R355). -/
def Obligations.StrayCompleteOnlyCounts : Prop :=
  ∀ (s : State) (ch : ChanId) (c : Channel) (ss : Session) (now : Ns64), Live s ch c ss → ss.eng.st ≠ .sending →
    exec (.complete ch now) s = .next
      { s with
        chans := s.chans.set ch.toNat
          { c with session := some { ss with stats := { ss.stats with irqs := ss.stats.irqs + 1 } } } }

/-- WAKE (rules R192, R193 and R201) with a frame to send: a retry restarts from word 0 and keeps `RETRY` and `FRAME_T0`; a
queued frame starts with `FRAME_T0 = now`. A pending retry is looked at first (rule R202). That the commands are at the
generator when the step ends is the model's choice (assumption log 7). -/
def Obligations.WakeStartsAttempt : Prop :=
  ∀ (s : State) (ch : ChanId) (c : Channel) (ss : Session) (now : Ns64) (p : ChipProfile) (w : WaveWord),
    Live s ch c ss → ss.eng.tmrArmed = true → ss.eng.tmrDeadline.toNat ≤ now.toNat →
    (ss.eng.pendRetry = true ∨ ss.eng.pendNew = true) → s.rom.chip ss.latch.chip = some p →
    1 ≤ ss.eng.wcount.toNat → Memory.read ss.buf 0 = some w →
    exec (.wake ch now) s = .next
      { s with
        outs := s.outs ++ attemptBytes ch p ss.cfg.inv w.bits
        chans := s.chans.set ch.toNat
          { c with
            gen := attemptGen p ss.cfg.inv w.bits
            session := some
              { ss with
                eng :=
                  { ss.eng with
                    tmrArmed := false
                    pendRetry := false
                    pendNew := if ss.eng.pendRetry then ss.eng.pendNew else false
                    frameT0 := if ss.eng.pendRetry then ss.eng.frameT0 else now
                    st := .sending, notReady := true, next := 1, remain := ss.eng.wcount - 1,
                    expectT := now + w.dur } } } }

/-- WAKE (rule R201) with no frame to send: stale or early, it is ignored; due and with nothing pending, the window is over,
and the engine is IDLE and ready. -/
def Obligations.WakeWithoutFrame : Prop :=
  ∀ (s : State) (ch : ChanId) (c : Channel) (ss : Session) (now : Ns64), Live s ch c ss →
    ((ss.eng.tmrArmed = false ∨ now.toNat < ss.eng.tmrDeadline.toNat) → exec (.wake ch now) s = .next s)
    ∧ (ss.eng.tmrArmed = true → ss.eng.tmrDeadline.toNat ≤ now.toNat → ss.eng.pendRetry = false →
      ss.eng.pendNew = false →
      exec (.wake ch now) s = .next
        { s with
          chans := s.chans.set ch.toNat
            { c with
              session := some { ss with eng := { ss.eng with tmrArmed := false, st := .idle, notReady := false } } } })

/-- Times do not wrap while timestamps stay in range (20_memory.md rule R62, 00_scope.md rule R8): the prediction and every
deadline are the integers of rules R193, R197 and R198. While the time source keeps its duty (rule R62, 60_exceptions.md
rules R315 and R318), no frame ever started later than the time of an input to come, so an update duration is the exact
difference too (rule R197, `d >= 0`). That the duty is one of the inbox is the model's form of it (assumption log 9). -/
def Obligations.TimesAreExact : Prop :=
  (∀ s t : State, s.TimesOrdered → s.FramesStarted → step s = .next t → t.FramesStarted)
  ∧ ∀ (now : Ns64) (p : ChipProfile) (e : EngineRegs) (dur : Ns64), TimeInRange now → dur.toNat ≤ 64 * (2 ^ 32 - 1) →
    (e.loaded now dur).expectT.toNat = now.toNat + dur.toNat
    ∧ (deadlineAt now (resetWindow p)).toNat = now.toNat + p.tResetNs.toNat
    ∧ (deadlineAt now (retryWindow p)).toNat = now.toNat + 3 * p.tResetNs.toNat / 2
    ∧ (e.frameT0.toNat ≤ now.toNat → (now - e.frameT0).toNat = now.toNat - e.frameT0.toNat)

/-- The optional statistics (10_state.md rule R45): the first value is taken as it is, and after that the minimum or maximum of
the old value and the new one, signed for the delays. -/
def Obligations.OptionalStatistics : Prop :=
  (∀ d : Int, -2 ^ 63 ≤ d → d < 2 ^ 63 →
    minDelayWith none d = some (BitVec.ofInt 64 d) ∧ maxDelayWith none d = some (BitVec.ofInt 64 d)
    ∧ ∀ o : BitVec 64, (∃ v, minDelayWith (some o) d = some v ∧ v.toInt = min o.toInt d)
        ∧ (∃ v, maxDelayWith (some o) d = some v ∧ v.toInt = max o.toInt d))
  ∧ (∀ d : Ns64, minUpdWith none d = some d ∧ maxUpdWith none d = some d
    ∧ ∀ o : Ns64, (∃ v, minUpdWith (some o) d = some v ∧ v.toNat = min o.toNat d.toNat)
        ∧ (∃ v, maxUpdWith (some o) d = some v ∧ v.toNat = max o.toNat d.toNat))

/-! ### The devices (42_engine.md section 6) -/

/-- The output commands at the devices (rules R205 to R210): what each sets, and that nothing else changes, the session's
registers included; TMR_ARM replaces any earlier request, and TMR_CANCEL withdraws it. That a GEN_LOAD to a generator still
sending a word replaces it and raises nothing is the model's choice (assumption log 18). A channel that has no devices stops by
name (70_reset_and_hazards.md rule R354): the model's choice, assumption log 16. -/
def Obligations.OutputCommands : Prop :=
  (∀ (s : State) (ch : ChanId) (c : Channel), s.channel? ch = some c →
    (∀ a p inv, exec (.genConfigure ch a p inv) s = .next
      { s with
        chans := s.chans.set ch.toNat { c with gen := { c.gen with activeNs := a, passiveNs := p, inv := inv } } })
    ∧ (∀ bits, exec (.genLoad ch bits) s = .next
      { s with chans := s.chans.set ch.toNat { c with gen := { c.gen with word := some bits } } })
    ∧ exec (.genEnable ch) s = .next
      { s with chans := s.chans.set ch.toNat { c with gen := { c.gen with en := true } } }
    ∧ exec (.genDisable ch) s = .next
      { s with chans := s.chans.set ch.toNat { c with gen := { c.gen with en := false, word := none } } }
    ∧ (∀ d, exec (.tmrArm ch d) s = .next { s with chans := s.chans.set ch.toNat { c with tmr := { req := some d } } })
    ∧ exec (.tmrCancel ch) s = .next { s with chans := s.chans.set ch.toNat { c with tmr := { req := none } } })
  ∧ (∀ (s : State) (ch : ChanId), s.chans.length ≤ ch.toNat →
    (∀ a p inv, exec (.genConfigure ch a p inv) s = .fault (.noDevice ch))
    ∧ (∀ bits, exec (.genLoad ch bits) s = .fault (.noDevice ch))
    ∧ exec (.genEnable ch) s = .fault (.noDevice ch) ∧ exec (.genDisable ch) s = .fault (.noDevice ch)
    ∧ (∀ d, exec (.tmrArm ch d) s = .fault (.noDevice ch)) ∧ exec (.tmrCancel ch) s = .fault (.noDevice ch))

/-- Sending a word takes its `DUR` (70_reset_and_hazards.md rules R365 and R366): the 64 slots of a word that the encoder
wrote, sent by a generator with the durations of the frame's chip entry, last as long as the duration the word records. The
last clauses are the level a generator holds its output at (rules R205 to R208): passive behind slot 63 until the next
GEN_LOAD, after the end of a word, and while it is disabled. That the held level and a word's slots follow the polarity and the
durations in force, whichever GEN_CONFIGURE came last or none, and that GEN.INV stands for the open level before the first
one, is the model's choice (assumption log 21). -/
def Obligations.WaveLastsItsDuration : Prop :=
  (∀ (p : ChipProfile) (cap : BitVec 16) (e : List Byte) (buf : Buffer) (x : EncRun) (g : Gen) (k : Nat) (w : WaveWord),
    encodeFrame p cap e buf = .ok x → k < x.regs.k.toNat → Memory.read x.buf k = some w →
    g.activeNs = p.t0ActiveNs → g.passiveNs = p.tPassiveMinNs →
    ((g.wave w.bits).map Prod.snd).sum = w.dur.toNat)
  ∧ (∀ (g : Gen) (bits : Slots),
    (g.en = true → (g.load bits).output = (g.wave bits, g.inv)) ∧ (g.load bits).enable.output = (g.wave bits, g.inv)
    ∧ (g.en = false → (g.load bits).output = ([], g.inv))
    ∧ g.finish.output = ([], g.inv) ∧ g.disable.output = ([], g.inv))
  ∧ ∀ (g : Gen) (bits : Slots),
    (g.wave bits).length = 64
    ∧ ((g.wave bits).map Prod.snd).sum
        = activeSlots bits * g.activeNs.toNat + (64 - activeSlots bits) * g.passiveNs.toNat
    ∧ ∀ q, q < 64 → (g.wave bits)[q]?
        = some (if bits.getLsbD (63 - q) then (!g.inv, g.activeNs.toNat) else (g.inv, g.passiveNs.toNat))

/-- The devices' own moves (rules R206 and R209, 60_exceptions.md rule R318, 70_reset_and_hazards.md rule R359): a generator
that sends a word raises one COMPLETE, or loses the signal, and has no word left; a timer whose deadline is reached raises one
WAKE and has no request left; else nothing happens. That the event is pending behind the next `k` inputs, any number of them,
and that a device's move is an input with a free time, is the model's choice (assumption logs 8 and 18). -/
def Obligations.DeviceMoves : Prop :=
  ∀ (s : State) (ch : ChanId) (c : Channel) (now : Ns64) (k : Nat) (rest : List Input), s.channel? ch = some c →
    (s.inbox = .genDone ch now k :: rest →
      step s = .next
        (if c.gen.en = true ∧ c.gen.word ≠ none then
          { s with
            chans := s.chans.set ch.toNat { c with gen := { c.gen with word := none } }
            inbox := rest.take k ++ .raised (0x10 :: ch :: bytes64 now) :: rest.drop k }
        else { s with inbox := rest }))
    ∧ (s.inbox = .genLost ch :: rest →
      step s = .next
        (if c.gen.en = true ∧ c.gen.word ≠ none then
          { s with
            chans := s.chans.set ch.toNat { c with gen := { c.gen with word := none } }
            inbox := rest }
        else { s with inbox := rest }))
    ∧ (s.inbox = .tmrFire ch now k :: rest →
      step s = .next
        (if ∃ d, c.tmr.req = some d ∧ d.toNat ≤ now.toNat then
          { s with
            chans := s.chans.set ch.toNat { c with tmr := { req := none } }
            inbox := rest.take k ++ .raised (0x11 :: ch :: bytes64 now) :: rest.drop k }
        else { s with inbox := rest }))

/-! ### STATUS, STATUS_READ and SHUTDOWN (43_session.md) -/

/-- STATUS (rule R259) answers `OK` and the record of 30_encoding.md rule R99, field by field at its byte offset, and changes
nothing. -/
def Obligations.StatusRecord : Prop :=
  ∀ (s : State) (ch : ChanId) (c : Channel) (ss : Session), Live s ch c ss →
    ∃ a, exec (.status ch) s = .next { s with answers := s.answers ++ [a] }
      ∧ a.length = 73 ∧ byteAt a 0 = 0x00 ∧ byteAt a 1 = (if ss.eng.notReady then 0 else 1)
      ∧ byteAt a 2 ++ byteAt a 3 = ss.stats.lastRetries
      ∧ (∀ i, i < 8 → (byteAt a 4).getLsbD i
          = [ss.stats.lastViol.isSome, ss.stats.minDelay.isSome, ss.stats.maxDelay.isSome, ss.stats.lastUpd.isSome,
              ss.stats.minUpd.isSome, ss.stats.maxUpd.isSome, false, false].getD i false)
      ∧ word64At a 5 = ss.stats.lastViol.getD 0 ∧ word64At a 13 = ss.stats.minDelay.getD 0
      ∧ word64At a 21 = ss.stats.maxDelay.getD 0 ∧ word64At a 29 = ss.stats.lastUpd.getD 0
      ∧ word64At a 37 = ss.stats.minUpd.getD 0 ∧ word64At a 45 = ss.stats.maxUpd.getD 0
      ∧ word32At a 53 = ss.stats.updates ∧ word32At a 57 = ss.stats.overruns ∧ word32At a 61 = ss.stats.retries
      ∧ word32At a 65 = ss.stats.errors ∧ word32At a 69 = ss.stats.irqs

/-- STATUS_READ (rule R261): the snapshot in hand, or a fresh one of the record STATUS would answer now, gives a chunk of
`min(MAXLEN, len(SNAP) - SNAP_OFF)` bytes, and a chunk of 0 bytes ends it. Nothing else changes. The text is the parameter
`RENDER_STATUS` (assumption log 3), which is below 2^32 bytes long (assumption log 13), so that the offset is exact. -/
def Obligations.StatusReadChunk : Prop :=
  ∀ (s : State) (ch : ChanId) (c : Channel) (ss : Session) (maxLen : BitVec 32), Live s ch c ss → maxLen ≠ 0 →
    let text := if ss.snap.valid then ss.snap.text else Config.renderStatus (snapshotRecord ss)
    let off := if ss.snap.valid then ss.snap.off else 0
    let n := min maxLen.toNat (text.bytes.length - off.toNat)
    ∃ off' : BitVec 32, off'.toNat = off.toNat + n ∧ exec (.statusRead ch maxLen) s = .next
      { s with
        answers := s.answers ++ [0x00 :: (text.bytes.drop off.toNat).take n]
        chans := s.chans.set ch.toNat
          { c with
            session := some { ss with snap := { text := text, off := off', valid := n != 0 } } } }

/-- SHUTDOWN (rule R262), FATAL sessions included: a SENDING generator is disabled, an armed timer is cancelled, and the slot
is empty. That the commands are at the devices when the step ends is the model's choice (assumption log 7). -/
def Obligations.ShutdownEmptiesSlot : Prop :=
  ∀ (s : State) (ch : ChanId) (c : Channel) (ss : Session), s.channel? ch = some c → c.session = some ss →
    exec (.shutdown ch) s = .next
      { s with
        answers := s.answers ++ [[0x00]]
        outs := s.outs ++ (if ss.eng.st = .sending then [[0x83, ch]] else [])
          ++ (if ss.eng.tmrArmed then [[0x91, ch]] else [])
        chans := s.chans.set ch.toNat
          { session := none
            gen := if ss.eng.st = .sending then { c.gen with en := false, word := none } else c.gen
            tmr := if ss.eng.tmrArmed then { req := none } else c.tmr } }

/-- Rule R263: a FATAL session answers `E_FATAL` to CFG, SUBMIT, STATUS and STATUS_READ, ignores COMPLETE and WAKE, and
changes nothing. `MAXLEN = 0` is answered before the session is looked at (rule R310; assumption log 12). -/
def Obligations.FatalSessionIsDead : Prop :=
  ∀ (s : State) (ch : ChanId) (c : Channel) (ss : Session),
    s.channel? ch = some c → c.session = some ss → ss.eng.fatal = true →
    (∀ w0 w1 w2 w3, exec (.cfg ch w0 w1 w2 w3) s = .next { s with answers := s.answers ++ [[0x31]] })
    ∧ (∀ now frame, exec (.submit ch now frame) s = .next { s with answers := s.answers ++ [[0x31]] })
    ∧ exec (.status ch) s = .next { s with answers := s.answers ++ [[0x31]] }
    ∧ (∀ maxLen, maxLen ≠ 0 → exec (.statusRead ch maxLen) s = .next { s with answers := s.answers ++ [[0x31]] })
    ∧ (∀ now, exec (.complete ch now) s = .next s)
    ∧ (∀ now, exec (.wake ch now) s = .next s)

/-- Rule R306: an empty slot answers `E_NO_SESSION` to every host command other than CFG, and its events are ignored.
`MAXLEN = 0` is answered before the session is looked at (assumption log 12). -/
def Obligations.EmptySlotAnswers : Prop :=
  ∀ (s : State) (ch : ChanId) (c : Channel), s.channel? ch = some c → c.session = none →
    (∀ now frame, exec (.submit ch now frame) s = .next { s with answers := s.answers ++ [[0x20]] })
    ∧ exec (.status ch) s = .next { s with answers := s.answers ++ [[0x20]] }
    ∧ (∀ maxLen, maxLen ≠ 0 → exec (.statusRead ch maxLen) s = .next { s with answers := s.answers ++ [[0x20]] })
    ∧ exec (.shutdown ch) s = .next { s with answers := s.answers ++ [[0x20]] }
    ∧ (∀ now, exec (.complete ch now) s = .next s)
    ∧ (∀ now, exec (.wake ch now) s = .next s)

/-! ### The whole machine -/

/-- Rule R29: no step writes a configuration register of a session that it leaves in place. -/
def Obligations.ConfigReadOnly : Prop :=
  ∀ (s t : State) (ch : ChanId) (ss ss' : Session), step s = .next t →
    s.session? ch = some ss → t.session? ch = some ss' → ss'.cfg = ss.cfg

/-- Rule R33: FATAL is sticky. A step leaves a FATAL session FATAL, or SHUTDOWN has emptied its slot. -/
def Obligations.FatalIsSticky : Prop :=
  ∀ (s t : State) (ch : ChanId) (ss : Session), step s = .next t → s.session? ch = some ss → ss.eng.fatal = true →
    (∃ ss', t.session? ch = some ss' ∧ ss'.eng.fatal = true)
      ∨ (t.session? ch = none ∧ ∃ m rest, s.inbox = .message .host m :: rest ∧ m = [0x05, ch])

/-- Who writes the statistics (10_state.md rule R46): only SUBMIT writes `S_OVERRUNS`, and only COMPLETE writes the others. -/
def Obligations.StatisticsWriters : Prop :=
  ∀ (i : Instr) (s t : State) (ch : ChanId) (ss ss' : Session), exec i s = .next t →
    s.session? ch = some ss → t.session? ch = some ss' →
    ((∀ now frame, i ≠ .submit ch now frame) → ss'.stats.overruns = ss.stats.overruns)
    ∧ ((∀ now, i ≠ .complete ch now) → { ss'.stats with overruns := 0 } = { ss.stats with overruns := 0 })

/-- Who writes the output buffer (20_memory.md rules R60 and R83): only SUBMIT and the encoder's operations. Every other
operation leaves every entry of every session's buffer as it was. That the encoder's operations also run on their own is the
model's choice (assumption log 4). -/
def Obligations.BufferWriters : Prop :=
  ∀ (i : Instr) (s t : State) (ch : ChanId) (ss ss' : Session), exec i s = .next t →
    (∀ now frame, i ≠ .submit ch now frame) → i ∉ [.encBit0, .encBit1, .encPad, .encode] →
    s.session? ch = some ss → t.session? ch = some ss' →
    ∀ k, Memory.read ss'.buf k = Memory.read ss.buf k

/-- Rules R21 and R80 and 43_session.md rule R264: a step acts on one channel only. Every channel that the operation is not
addressed to, its session and its devices, is left as it was. -/
def Obligations.OtherChannelsUntouched : Prop :=
  ∀ (i : Instr) (s t : State) (ch : ChanId), exec i s = .next t → target i s ≠ some ch → t.channel? ch = s.channel? ch

/-- Rule R80, the reading side: what a command or event does to its channel, what it answers and what it sends depend on no
other channel. Two states that agree on the ROM, the capacity parameter and one channel go on alike there. -/
def Obligations.SessionsAreIndependent : Prop :=
  ∀ (i : Instr) (s1 s2 t1 : State) (ch : ChanId), (portOf i = .host ∨ portOf i = .platform) → target i s1 = some ch →
    s1.rom = s2.rom → s1.capTable = s2.capTable → s1.channel? ch = s2.channel? ch → exec i s1 = .next t1 →
    ∃ t2 c1 o a, exec i s2 = .next t2 ∧ t1.channel? ch = c1 ∧ t2.channel? ch = c1
      ∧ t1.outs = s1.outs ++ o ∧ t2.outs = s2.outs ++ o ∧ t1.answers = s1.answers ++ a ∧ t2.answers = s2.answers ++ a

/-- Rule R260: with no SUBMIT, COMPLETE, WAKE or SHUTDOWN of the session in between, two STATUS commands answer
byte-identical records. `i` is any other operation that comes in on a port, and any operation of another session. -/
def Obligations.StatusIsRepeatable : Prop :=
  ∀ (i : Instr) (s t : State) (ch : ChanId) (c : Channel) (ss : Session) (a : List Byte),
    portOf i ≠ .internal → exec i s = .next t → Live s ch c ss →
    (target i s = some ch →
      (∀ now frame, i ≠ .submit ch now frame) ∧ (∀ now, i ≠ .complete ch now) ∧ (∀ now, i ≠ .wake ch now)
        ∧ i ≠ .shutdown ch) →
    exec (.status ch) s = .next { s with answers := s.answers ++ [a] } →
    exec (.status ch) t = .next { t with answers := t.answers ++ [a] }

/-- Rules R314 and R369: what a command or event may send. COMPLETE and WAKE send at most three commands, SUBMIT at most four,
SHUTDOWN at most two, and CFG, STATUS and STATUS_READ none; a command of another kind than rule R314 names for them is never
sent. -/
def Obligations.CommandsOfAStep : Prop :=
  ∀ (i : Instr) (s t : State), exec i s = .next t →
    ∃ cmds : List Instr, t.outs = s.outs ++ cmds.map encode
      ∧ (match i.op with
        | .submit => cmds.length ≤ 4 ∧ ∀ x ∈ cmds, x.op ∈ [.genConfigure, .genLoad, .genEnable, .genDisable, .tmrCancel]
        | .complete => cmds.length ≤ 1 ∧ ∀ x ∈ cmds, x.op ∈ [.genLoad, .tmrArm]
        | .wake => cmds.length ≤ 3 ∧ ∀ x ∈ cmds, x.op ∈ [.genConfigure, .genLoad, .genEnable]
        | .shutdown => cmds.length ≤ 2 ∧ ∀ x ∈ cmds, x.op ∈ [.genDisable, .tmrCancel]
        | .encBit0 | .encBit1 | .encPad | .encode => cmds.length ≤ 1 ∧ ∀ x ∈ cmds, x.op ∈ [.tmrCancel]
        | _ => cmds = [])

/-- The invariants that the statements below keep hold at power-on. -/
def Obligations.PowerOnInvariants : Prop :=
  State.reset.Sound ∧ State.reset.BuffersCanonical ∧ State.reset.GeneratorsAgree
    ∧ State.reset.GeneratorsFree ∧ State.reset.CompletionsOwned ∧ State.reset.WakesOwned

/-- The output buffers keep their canonical form at every step. -/
def Obligations.StepKeepsBuffersCanonical : Prop :=
  ∀ s t : State, s.BuffersCanonical → step s = .next t → t.BuffersCanonical

/-- The invariants of 10_state.md rule R54, with what they rest on, are kept by every step, whatever its input. -/
def Obligations.StepKeepsSound : Prop := ∀ s t : State, s.Sound → step s = .next t → t.Sound

/-- No input from the surroundings stops the block: from a sound state, every message on an input port and every device move
is handled, malformed messages and capacity faults included (20_memory.md rule R77, 60_exceptions.md rules R311 and R322).
The one premise on the parameters is that VARIABLE mode has a layout (70_reset_and_hazards.md rule R353). -/
def Obligations.SurroundingsNeverStopTheBlock : Prop :=
  ∀ s : State, s.Sound → s.HasLayout → s.NextExternal → ∃ t, step s = .next t

/-- While the engine is SENDING, the generator is enabled, is configured with the frame's own durations and polarity, and
holds the word loaded last or none (41_encoder.md rule R153, 42_engine.md rules R205 to R208; 20_memory.md rule R83 for the
buffer): every input of the surroundings keeps it so. While the surroundings keep their duties (60_exceptions.md rule R318), a
generator sends a word only for a SENDING session, a pending COMPLETE is the one that is owed for the word loaded last, and a
GEN_LOAD never reaches a generator that is still sending a word: where one is, the step sends GEN_DISABLE first (60_exceptions.md
rule R317). It rests on the model's choice that commands are at the devices when the step ends (assumption log 7), and the form
of the duties is assumption log 18. -/
def Obligations.StepKeepsGeneratorsAgreeing : Prop :=
  (∀ s t : State, s.Sound → s.GeneratorsAgree → s.NextExternal → step s = .next t → t.GeneratorsAgree)
  ∧ ∀ s t : State, s.Sound → s.GeneratorsFree → s.CompletionsOwned → s.DutiesKept → step s = .next t →
    t.GeneratorsFree ∧ t.CompletionsOwned
    ∧ ∀ ch c bits, s.channel? ch = some c → c.gen.busy = true → 0x81 :: ch :: bytes64 bits ∈ sentBetween s t →
      (sentBetween s t).head? = some [0x83, ch]
end

