-- ==== Sys2Proof/Laws/Decode.lean ====
section
/-! SUPPORT. The laws of the byte order (20_memory.md rule R67) and of the message ports: a field read back from the bytes
written for it, the bytes written for a field that was read, and what reaches an operation's meaning. -/

namespace Sys2Proof

/-! ### Big-endian fields -/

theorem bytes32_append (a b c d : Byte) : bytes32 (a ++ b ++ c ++ d) = [a, b, c, d] := by
  simp only [bytes32, List.cons.injEq, and_true]
  refine ⟨?_, ?_, ?_, ?_⟩ <;>
  · ext i hi
    simp only [BitVec.getElem_extractLsb', BitVec.getLsbD_append]
    rw [← BitVec.getLsbD_eq_getElem hi]
    (repeat' split) <;> first | (exfalso; omega) | (congr 1; omega)

theorem append_bytes32 (w : BitVec 32) :
    w.extractLsb' 24 8 ++ w.extractLsb' 16 8 ++ w.extractLsb' 8 8 ++ w.extractLsb' 0 8 = w := by
  ext i hi
  simp only [BitVec.getElem_append, BitVec.getElem_extractLsb']
  split
  · simp [BitVec.getLsbD_eq_getElem hi]
  · split
    · rw [show 8 + (i - 8) = i by omega, BitVec.getLsbD_eq_getElem hi]
    · split
      · rw [show 16 + (i - 8 - 8) = i by omega, BitVec.getLsbD_eq_getElem hi]
      · rw [show 24 + (i - 8 - 8 - 8) = i by omega, BitVec.getLsbD_eq_getElem hi]

theorem append_halves (w : BitVec 64) : w.extractLsb' 32 32 ++ w.extractLsb' 0 32 = w := by
  ext i hi
  simp only [BitVec.getElem_append, BitVec.getElem_extractLsb']
  split
  · simp [BitVec.getLsbD_eq_getElem hi]
  · rw [show 32 + (i - 32) = i by omega, BitVec.getLsbD_eq_getElem hi]

theorem halves_append (a b : BitVec 32) :
    (a ++ b).extractLsb' 32 32 = a ∧ (a ++ b).extractLsb' 0 32 = b := by
  constructor <;>
  · ext i hi
    simp only [BitVec.getElem_extractLsb', BitVec.getLsbD_append]
    simp (disch := omega) [hi]

@[simp] theorem length_bytes32 (w : BitVec 32) : (bytes32 w).length = 4 := rfl
@[simp] theorem length_bytes64 (w : BitVec 64) : (bytes64 w).length = 8 := rfl

theorem bytes64_append (a b : BitVec 32) : bytes64 (a ++ b) = bytes32 a ++ bytes32 b := by
  simp only [bytes64, halves_append]

/-- Reading a 32-bit field where its bytes stand. -/
theorem word32At_mid (pre post : List Byte) (w : BitVec 32) : word32At (pre ++ (bytes32 w ++ post)) pre.length = w := by
  simp only [word32At, byteAt, bytes32, List.cons_append, List.nil_append]
  simpa using append_bytes32 w

/-- Reading a 64-bit field where its bytes stand. -/
theorem word64At_mid (pre post : List Byte) (w : BitVec 64) : word64At (pre ++ (bytes64 w ++ post)) pre.length = w := by
  simp only [word64At, bytes64]
  have h1 := word32At_mid pre (bytes32 (w.extractLsb' 0 32) ++ post) (w.extractLsb' 32 32)
  have h2 := word32At_mid (pre ++ bytes32 (w.extractLsb' 32 32)) post (w.extractLsb' 0 32)
  simp only [List.length_append, length_bytes32, List.append_assoc] at h1 h2 ⊢
  rw [h1, h2, append_halves]

/-- The bytes of the 32-bit field read at byte `i`, where the bytes are there. -/
theorem bytes32_word32At (m : List Byte) (i : Nat) (h : i + 4 ≤ m.length) :
    bytes32 (word32At m i) = (m.drop i).take 4 := by
  have hi : ∀ j, i + j < m.length → byteAt m (i + j) = (m.drop i).getD j 0 := by
    intro j hj; simp [byteAt, List.getD_eq_getElem?_getD]
  rw [word32At, bytes32_append]
  have hl : 4 ≤ (m.drop i).length := by simp; omega
  rw [show byteAt m i = (m.drop i).getD 0 0 from hi 0 (by omega), hi 1 (by omega), hi 2 (by omega), hi 3 (by omega)]
  generalize m.drop i = l at hl
  match l, hl with
  | a :: b :: c :: d :: r, _ => rfl

/-- The bytes of the 64-bit field read at byte `i`, where the bytes are there. -/
theorem bytes64_word64At (m : List Byte) (i : Nat) (h : i + 8 ≤ m.length) :
    bytes64 (word64At m i) = (m.drop i).take 8 := by
  rw [word64At, bytes64_append, bytes32_word32At m i (by omega), bytes32_word32At m (i + 4) (by omega),
    ← List.drop_drop, ← List.take_add]

end Sys2Proof

namespace Sys2Proof.Machine

/-! ### Ports -/

/-- A message of an operation's own port decodes there as it decodes anywhere. -/
theorem decodeOn_port {m : List Byte} {opc : Byte} {tail : List Byte} {r : OpRow} (hm : m = opc :: tail)
    (hr : rowOf opc = some r) : decodeOn r.port m = decode m := by
  subst hm; simp [decodeOn, decode, hr]

theorem receive_ok {p : Port} {m : List Byte} {i : Instr} (s : State) (h : decodeOn p m = .ok i) :
    receive p m s = exec i s := by simp [receive, h]

theorem receive_error {p : Port} {m : List Byte} {e : DecodeError} (s : State) (h : decodeOn p m = .error e) :
    receive p m s = rejectMessage p e s := by simp [receive, h]

/-- All that a step can do: nothing is there to do, or the head of the inbox is handled. -/
theorem step_cases (s : State) :
    (s.inbox = [] ∧ step s = .next s)
    ∨ ∃ x rest, s.inbox = x :: rest ∧ step s = handle x { s with inbox := rest } := by
  unfold step
  cases h : s.inbox with
  | nil => exact .inl ⟨rfl, rfl⟩
  | cons x rest => exact .inr ⟨x, rest, rfl, rfl⟩

end Sys2Proof.Machine
end

