-- ==== Sys2Proof/Laws/Memory.lean ====
section
/-! SUPPORT. The laws of the output buffer as a memory: a read after a write, the canonical form that every write keeps, and
the equality of two canonical memories that read alike. -/

namespace Sys2Proof.Machine

@[simp] theorem Memory.read_nil (k : Nat) : Memory.read [] k = none := rfl

theorem Memory.read_cons (e : Nat × WaveWord) (m : Buffer) (k : Nat) :
    Memory.read (e :: m) k = if e.1 = k then some e.2 else Memory.read m k := by
  by_cases h : e.1 = k <;> simp [Memory.read, h]

theorem Memory.wf_nil : Memory.wf [] := List.Pairwise.nil

theorem Memory.wf_cons (e : Nat × WaveWord) (m : Buffer) :
    Memory.wf (e :: m) ↔ (∀ a ∈ m, e.1 < a.1) ∧ Memory.wf m := List.pairwise_cons

/-- Below every listed index nothing is written. -/
theorem Memory.read_below {m : Buffer} {k : Nat} (h : ∀ a ∈ m, k < a.1) : Memory.read m k = none := by
  induction m with
  | nil => rfl
  | cons e rest ih =>
    have he : k < e.1 := h e (by simp)
    rw [Memory.read_cons, if_neg (by omega)]
    exact ih fun a ha => h a (by simp [ha])

/-- Reading the written entry gives the word back, whatever the memory's form. -/
@[simp] theorem Memory.read_write_same (m : Buffer) (k : Nat) (w : WaveWord) :
    Memory.read (Memory.write m k w) k = some w := by
  induction m with
  | nil => simp [Memory.write, Memory.read_cons]
  | cons e rest ih =>
    unfold Memory.write
    split
    · simp [Memory.read_cons]
    · split
      · simp [Memory.read_cons]
      · rw [Memory.read_cons, if_neg (by omega)]; exact ih

/-- A write leaves every other entry alone, whatever the memory's form. -/
theorem Memory.read_write_other (m : Buffer) {k j : Nat} (w : WaveWord) (h : j ≠ k) :
    Memory.read (Memory.write m k w) j = Memory.read m j := by
  induction m with
  | nil => simp [Memory.write, Memory.read_cons, h.symm]
  | cons e rest ih =>
    unfold Memory.write
    split
    · simp [Memory.read_cons, h.symm]
    · split
      · rename_i hk; subst hk; simp [Memory.read_cons, h.symm]
      · rw [Memory.read_cons, Memory.read_cons, ih]

theorem Memory.read_write (m : Buffer) (k j : Nat) (w : WaveWord) :
    Memory.read (Memory.write m k w) j = if j = k then some w else Memory.read m j := by
  by_cases h : j = k
  · subst h; simp
  · simp [h, Memory.read_write_other m w h]

theorem Memory.mem_write {m : Buffer} {k : Nat} {w : WaveWord} {a : Nat × WaveWord}
    (h : a ∈ Memory.write m k w) : a = (k, w) ∨ a ∈ m := by
  induction m with
  | nil => simpa [Memory.write] using h
  | cons e rest ih =>
    unfold Memory.write at h
    split at h
    · simpa using h
    · split at h
      · simp only [List.mem_cons] at h ⊢; tauto
      · simp only [List.mem_cons] at h ⊢
        rcases h with h | h
        · exact .inr (.inl h)
        · exact (ih h).imp_right .inr

/-- A write keeps the canonical form. -/
theorem Memory.write_wf {m : Buffer} (k : Nat) (w : WaveWord) (h : Memory.wf m) : Memory.wf (Memory.write m k w) := by
  induction m with
  | nil => simp [Memory.write, Memory.wf]
  | cons e rest ih =>
    obtain ⟨he, hr⟩ := (Memory.wf_cons e rest).1 h
    unfold Memory.write
    split
    · rename_i hk
      refine (Memory.wf_cons _ _).2 ⟨fun a ha => ?_, h⟩
      rcases List.mem_cons.1 ha with rfl | ha
      · exact hk
      · exact Nat.lt_trans hk (he a ha)
    · split
      · rename_i hk
        exact (Memory.wf_cons _ _).2 ⟨fun a ha => by simpa [hk] using he a ha, hr⟩
      · refine (Memory.wf_cons _ _).2 ⟨fun a ha => ?_, ih hr⟩
        rcases Memory.mem_write ha with rfl | ha
        · simp only; omega
        · exact he a ha

/-- Two canonical memories that read alike are one memory. -/
theorem Memory.eq_of_read {m1 m2 : Buffer} (h1 : Memory.wf m1) (h2 : Memory.wf m2)
    (h : ∀ k, Memory.read m1 k = Memory.read m2 k) : m1 = m2 := by
  induction m1 generalizing m2 with
  | nil =>
    cases m2 with
    | nil => rfl
    | cons e r => have := h e.1; simp [Memory.read_cons] at this
  | cons a r1 ih =>
    obtain ⟨ha, hr1⟩ := (Memory.wf_cons a r1).1 h1
    cases m2 with
    | nil => have := h a.1; simp [Memory.read_cons] at this
    | cons b r2 =>
      obtain ⟨hb, hr2⟩ := (Memory.wf_cons b r2).1 h2
      have hab : a.1 = b.1 := by
        rcases Nat.lt_trichotomy a.1 b.1 with hlt | heq | hgt
        · have hb' : ∀ e ∈ b :: r2, a.1 < e.1 := fun e he =>
            (List.mem_cons.1 he).elim (fun q => q ▸ hlt) fun q => Nat.lt_trans hlt (hb e q)
          have := h a.1; rw [Memory.read_below hb'] at this; simp [Memory.read_cons] at this
        · exact heq
        · have ha' : ∀ e ∈ a :: r1, b.1 < e.1 := fun e he =>
            (List.mem_cons.1 he).elim (fun q => q ▸ hgt) fun q => Nat.lt_trans hgt (ha e q)
          have := h b.1; rw [Memory.read_below ha'] at this; simp [Memory.read_cons] at this
      have hv : a.2 = b.2 := by have := h a.1; simpa [Memory.read_cons, hab] using this
      have hrest : r1 = r2 := by
        refine ih hr1 hr2 fun k => ?_
        by_cases hk : a.1 = k
        · subst hk; rw [Memory.read_below ha, Memory.read_below (hab ▸ hb)]
        · have hk2 : b.1 ≠ k := hab ▸ hk
          have := h k; simpa [Memory.read_cons, hk, hk2] using this
      rw [hrest]; congr 1; exact Prod.ext hab hv

end Sys2Proof.Machine
end

