-- ==== Sys2Proof/Laws/Encoder.lean ====
section
/-! SUPPORT. The laws of the encoder: what one slot does, what a trailing phase does, and one induction over the slots of a
run that later proofs cite instead of unfolding the encoder. -/

namespace Sys2Proof.Machine

variable {p : ChipProfile} {cap : BitVec 16} {x y : EncRun} {s : Bool}

/-! ### One slot -/

/-- A slot position below 63, as a number. -/
theorem pos_succ {q : BitVec 6} (h : q ≠ 63) : (q + 1).toNat = q.toNat + 1 := by
  have : q.toNat ≠ 63 := fun hq => h (BitVec.eq_of_toNat_eq hq)
  have := q.isLt
  rw [BitVec.toNat_add, show (1 : BitVec 6).toNat = 1 from rfl]
  omega

/-- A slot lands in its own bit and leaves the others (41_encoder.md rule R154). -/
theorem getLsbD_putSlot (acc : Slots) (pos : BitVec 6) (s : Bool) {i : Nat} (hi : i < 64) :
    (putSlot acc pos s).getLsbD i = if i = 63 - pos.toNat then s else acc.getLsbD i := by
  have hp := pos.isLt
  have hbit : (BitVec.twoPow 64 (63 - pos.toNat)).getLsbD i = decide (i = 63 - pos.toNat) := by
    rw [BitVec.getLsbD_twoPow]
    by_cases h : i = 63 - pos.toNat
    · simp [h]; omega
    · simp [h]; omega
  cases s <;> by_cases h : i = 63 - pos.toNat <;> simp_all [putSlot]

theorem emitSlot_inner (h : x.regs.pos ≠ 63) :
    emitSlot p cap s x
      = .ok ⟨⟨x.regs.pos + 1, putSlot x.regs.acc x.regs.pos s, if s then x.regs.na + 1 else x.regs.na, x.regs.k⟩, x.buf⟩ := by
  have h' : ¬x.regs.pos = 63 := h
  rw [emitSlot, if_neg h']

theorem emitSlot_last (h : x.regs.pos = 63) (hk : x.regs.k < cap) :
    emitSlot p cap s x
      = .ok ⟨⟨0, 0, 0, x.regs.k + 1⟩,
          Memory.write x.buf x.regs.k.toNat
            ⟨putSlot x.regs.acc x.regs.pos s,
              BitVec.ofNat 64 (wordDur p (if s then x.regs.na + 1 else x.regs.na).toNat)⟩⟩ := by
  simp [emitSlot, h, closeWord, BitVec.not_le.2 hk]

theorem emitSlot_full (h : x.regs.pos = 63) (hk : cap ≤ x.regs.k) :
    emitSlot p cap s x
      = .error ⟨⟨x.regs.pos, putSlot x.regs.acc x.regs.pos s, if s then x.regs.na + 1 else x.regs.na, x.regs.k⟩, x.buf⟩ := by
  simp [emitSlot, h, closeWord, hk]

/-- All that a slot that goes on can do: it stays in its word, or it closes it (rules R154 and R155). -/
theorem emitSlot_ok (h : emitSlot p cap s x = .ok y) :
    (x.regs.pos ≠ 63 ∧
      y = ⟨⟨x.regs.pos + 1, putSlot x.regs.acc x.regs.pos s, if s then x.regs.na + 1 else x.regs.na, x.regs.k⟩, x.buf⟩)
    ∨ (x.regs.pos = 63 ∧ x.regs.k < cap ∧
      y = ⟨⟨0, 0, 0, x.regs.k + 1⟩,
          Memory.write x.buf x.regs.k.toNat
            ⟨putSlot x.regs.acc x.regs.pos s,
              BitVec.ofNat 64 (wordDur p (if s then x.regs.na + 1 else x.regs.na).toNat)⟩⟩) := by
  by_cases hp : x.regs.pos = 63
  · by_cases hk : x.regs.k < cap
    · rw [emitSlot_last hp hk] at h; exact .inr ⟨hp, hk, (Except.ok.inj h).symm⟩
    · rw [emitSlot_full hp (BitVec.not_lt.1 hk)] at h; cases h
  · rw [emitSlot_inner hp] at h; exact .inl ⟨hp, (Except.ok.inj h).symm⟩

/-- All that a slot that overruns the capacity can do: the buffer and `E_K` are as they were (rule R155). -/
theorem emitSlot_error (h : emitSlot p cap s x = .error y) :
    x.regs.pos = 63 ∧ cap ≤ x.regs.k ∧ y.buf = x.buf ∧ y.regs.k = x.regs.k := by
  by_cases hp : x.regs.pos = 63
  · by_cases hk : x.regs.k < cap
    · rw [emitSlot_last hp hk] at h; cases h
    · rw [emitSlot_full hp (BitVec.not_lt.1 hk)] at h
      cases h; exact ⟨hp, BitVec.not_lt.1 hk, rfl, rfl⟩
  · rw [emitSlot_inner hp] at h; cases h

/-! ### Trailing phases and padding -/

theorem trailing_fresh (n : Nat) (h : x.regs.pos = 0) : trailing p cap n x = .ok x := by
  cases n <;> simp [trailing, h]

theorem trailing_succ (n : Nat) (h : x.regs.pos ≠ 0) :
    trailing p cap (n + 1) x = (emitSlot p cap false x).bind (trailing p cap n) := by
  simp only [trailing, h, if_false]
  cases emitSlot p cap false x <;> rfl

theorem encodeZero_bind :
    encodeZero p cap x
      = (emitSlot p cap true x).bind (trailing p cap (if p.doublePassiveForZero then 2 else 1)) := by
  unfold encodeZero; cases emitSlot p cap true x <;> rfl

theorem encodeOne_bind :
    encodeOne p cap x
      = (leadingSlot p cap x).bind fun x1 =>
          (emitSlot p cap true x1).bind fun x2 => (emitSlot p cap true x2).bind (trailing p cap 1) := by
  cases h1 : leadingSlot p cap x with
  | error e => simp [encodeOne, Except.bind, h1]
  | ok x1 =>
    cases h2 : emitSlot p cap true x1 with
    | error e => simp [encodeOne, Except.bind, h1, h2]
    | ok x2 => cases h3 : emitSlot p cap true x2 <;> simp [encodeOne, Except.bind, h1, h2, h3]

theorem encodeFrame_bind (e : List Byte) (buf : Buffer) :
    encodeFrame p cap e buf = (encodeBits p cap (bitsOf e) ⟨EncRegs.zero, buf⟩).bind (encodePad p cap) := by
  unfold encodeFrame; cases encodeBits p cap (bitsOf e) ⟨EncRegs.zero, buf⟩ <;> rfl

theorem encodeBits_cons (b : Bool) (rest : List Bool) :
    encodeBits p cap (b :: rest) x = (encodeBit p cap b x).bind (encodeBits p cap rest) := by
  simp only [encodeBits]; cases encodeBit p cap b x <;> rfl

/-! ### One induction over the slots of a run -/

/-- What holds of either outcome of a run: `P` where it went on, `Q` where it overran the capacity. -/
def After (P Q : EncRun → Prop) (r : Except EncRun EncRun) : Prop :=
  match r with
  | .ok y => P y
  | .error y => Q y

/-- Every slot the encoder may emit keeps `P`, and one that overruns the capacity leaves `Q`. A passive slot never opens a
word (41_encoder.md rule R161). -/
def SlotsKeep (p : ChipProfile) (cap : BitVec 16) (P Q : EncRun → Prop) : Prop :=
  ∀ s x, P x → (s = true ∨ x.regs.pos ≠ 0) → After P Q (emitSlot p cap s x)

variable {P Q : EncRun → Prop}

theorem After.bind {r : Except EncRun EncRun} {f : EncRun → Except EncRun EncRun} (h : After P Q r)
    (hf : ∀ y, P y → After P Q (f y)) : After P Q (r.bind f) := by
  cases r with
  | ok y => exact hf y h
  | error y => exact h

theorem SlotsKeep.trailing (h : SlotsKeep p cap P Q) (n : Nat) (hx : P x) : After P Q (trailing p cap n x) := by
  induction n generalizing x with
  | zero => exact hx
  | succ n ih =>
    by_cases hp : x.regs.pos = 0
    · rw [trailing_fresh _ hp]; exact hx
    · rw [trailing_succ n hp]; exact (h false x hx (.inr hp)).bind fun y hy => ih hy

theorem SlotsKeep.encodeBit (h : SlotsKeep p cap P Q) (b : Bool) (hx : P x) : After P Q (encodeBit p cap b x) := by
  cases b
  · simp only [Machine.encodeBit, Bool.false_eq_true, if_false, encodeZero_bind]
    exact (h true x hx (.inl rfl)).bind fun y hy => h.trailing _ hy
  · simp only [Machine.encodeBit, if_true, encodeOne_bind]
    refine After.bind ?_ fun y hy => (h true y hy (.inl rfl)).bind fun z hz => (h true z hz (.inl rfl)).bind fun w hw =>
      h.trailing _ hw
    unfold leadingSlot
    split
    · rename_i hp; exact h false x hx (.inr (by rw [hp]; decide))
    · exact hx

theorem SlotsKeep.encodeBits (h : SlotsKeep p cap P Q) (bits : List Bool) (hx : P x) :
    After P Q (encodeBits p cap bits x) := by
  induction bits generalizing x with
  | nil => exact hx
  | cons b rest ih => rw [encodeBits_cons]; exact (h.encodeBit b hx).bind fun y hy => ih hy

/-- What every slot keeps, a whole frame keeps, from fresh working registers on (rule R160). -/
theorem SlotsKeep.encodeFrame (h : SlotsKeep p cap P Q) (e : List Byte) (buf : Buffer) (h0 : P ⟨EncRegs.zero, buf⟩) :
    After P Q (encodeFrame p cap e buf) := by
  rw [encodeFrame_bind]
  exact (h.encodeBits _ h0).bind fun y hy => h.trailing 64 hy

/-! ### The buffer -/

/-- What every run leaves true of the buffer it started from: its canonical form, and that a written entry stays written. -/
structure Grows (old new : Buffer) : Prop where
  wf   : Memory.wf old → Memory.wf new
  kept : ∀ k, (Memory.read old k).isSome = true → (Memory.read new k).isSome = true

theorem Grows.refl (b : Buffer) : Grows b b := ⟨id, fun _ h => h⟩

theorem slotsKeep_grows (old : Buffer) : SlotsKeep p cap (fun x => Grows old x.buf) (fun x => Grows old x.buf) := by
  intro s x hx _
  cases h : emitSlot p cap s x with
  | ok y =>
    rcases emitSlot_ok h with ⟨-, rfl⟩ | ⟨-, -, rfl⟩
    · exact hx
    · refine ⟨fun hw => Memory.write_wf _ _ (hx.wf hw), fun k hk => ?_⟩
      rw [Memory.read_write]
      split
      · rfl
      · exact hx.kept k hk
  | error y => obtain ⟨-, -, hb, -⟩ := emitSlot_error h; show Grows old y.buf; rw [hb]; exact hx

/-- A frame that is encoded keeps the buffer's canonical form, and its written entries written. -/
theorem encodeFrame_grows (e : List Byte) (buf : Buffer) :
    After (fun x => Grows buf x.buf) (fun x => Grows buf x.buf) (encodeFrame p cap e buf) :=
  (slotsKeep_grows buf).encodeFrame e buf (Grows.refl buf)

end Sys2Proof.Machine
end

