-- ==== Sys2Proof/Laws/State.lean ====
section
/-! SUPPORT. One lemma for each field of a record and each named update of it, true by unfolding, so that no later proof
unfolds a record update. -/

namespace Sys2Proof.Machine

/-! ### The cursor and the timer copy of a session -/

@[simp] theorem EngineRegs.loaded_st (e : EngineRegs) (now dur : Ns64) : (e.loaded now dur).st = e.st := rfl
@[simp] theorem EngineRegs.loaded_notReady (e : EngineRegs) (now dur : Ns64) :
    (e.loaded now dur).notReady = e.notReady := rfl
@[simp] theorem EngineRegs.loaded_pendNew (e : EngineRegs) (now dur : Ns64) :
    (e.loaded now dur).pendNew = e.pendNew := rfl
@[simp] theorem EngineRegs.loaded_pendRetry (e : EngineRegs) (now dur : Ns64) :
    (e.loaded now dur).pendRetry = e.pendRetry := rfl
@[simp] theorem EngineRegs.loaded_fatal (e : EngineRegs) (now dur : Ns64) : (e.loaded now dur).fatal = e.fatal := rfl
@[simp] theorem EngineRegs.loaded_wcount (e : EngineRegs) (now dur : Ns64) : (e.loaded now dur).wcount = e.wcount := rfl
@[simp] theorem EngineRegs.loaded_next (e : EngineRegs) (now dur : Ns64) : (e.loaded now dur).next = e.next + 1 := rfl
@[simp] theorem EngineRegs.loaded_remain (e : EngineRegs) (now dur : Ns64) :
    (e.loaded now dur).remain = e.remain - 1 := rfl
@[simp] theorem EngineRegs.loaded_retry (e : EngineRegs) (now dur : Ns64) : (e.loaded now dur).retry = e.retry := rfl
@[simp] theorem EngineRegs.loaded_expectT (e : EngineRegs) (now dur : Ns64) :
    (e.loaded now dur).expectT = now + dur := rfl
@[simp] theorem EngineRegs.loaded_frameT0 (e : EngineRegs) (now dur : Ns64) :
    (e.loaded now dur).frameT0 = e.frameT0 := rfl
@[simp] theorem EngineRegs.loaded_tmrArmed (e : EngineRegs) (now dur : Ns64) :
    (e.loaded now dur).tmrArmed = e.tmrArmed := rfl
@[simp] theorem EngineRegs.loaded_tmrDeadline (e : EngineRegs) (now dur : Ns64) :
    (e.loaded now dur).tmrDeadline = e.tmrDeadline := rfl

@[simp] theorem EngineRegs.rewound_st (e : EngineRegs) : (e.rewound).st = e.st := rfl
@[simp] theorem EngineRegs.rewound_notReady (e : EngineRegs) : (e.rewound).notReady = e.notReady := rfl
@[simp] theorem EngineRegs.rewound_pendNew (e : EngineRegs) : (e.rewound).pendNew = e.pendNew := rfl
@[simp] theorem EngineRegs.rewound_pendRetry (e : EngineRegs) : (e.rewound).pendRetry = e.pendRetry := rfl
@[simp] theorem EngineRegs.rewound_fatal (e : EngineRegs) : (e.rewound).fatal = e.fatal := rfl
@[simp] theorem EngineRegs.rewound_wcount (e : EngineRegs) : (e.rewound).wcount = e.wcount := rfl
@[simp] theorem EngineRegs.rewound_next (e : EngineRegs) : (e.rewound).next = 0 := rfl
@[simp] theorem EngineRegs.rewound_remain (e : EngineRegs) : (e.rewound).remain = e.wcount := rfl
@[simp] theorem EngineRegs.rewound_retry (e : EngineRegs) : (e.rewound).retry = e.retry := rfl
@[simp] theorem EngineRegs.rewound_expectT (e : EngineRegs) : (e.rewound).expectT = e.expectT := rfl
@[simp] theorem EngineRegs.rewound_frameT0 (e : EngineRegs) : (e.rewound).frameT0 = e.frameT0 := rfl
@[simp] theorem EngineRegs.rewound_tmrArmed (e : EngineRegs) : (e.rewound).tmrArmed = e.tmrArmed := rfl
@[simp] theorem EngineRegs.rewound_tmrDeadline (e : EngineRegs) : (e.rewound).tmrDeadline = e.tmrDeadline := rfl

@[simp] theorem EngineRegs.started_st (e : EngineRegs) : (e.started).st = .sending := rfl
@[simp] theorem EngineRegs.started_notReady (e : EngineRegs) : (e.started).notReady = true := rfl
@[simp] theorem EngineRegs.started_pendNew (e : EngineRegs) : (e.started).pendNew = e.pendNew := rfl
@[simp] theorem EngineRegs.started_pendRetry (e : EngineRegs) : (e.started).pendRetry = e.pendRetry := rfl
@[simp] theorem EngineRegs.started_fatal (e : EngineRegs) : (e.started).fatal = e.fatal := rfl
@[simp] theorem EngineRegs.started_wcount (e : EngineRegs) : (e.started).wcount = e.wcount := rfl
@[simp] theorem EngineRegs.started_next (e : EngineRegs) : (e.started).next = e.next := rfl
@[simp] theorem EngineRegs.started_remain (e : EngineRegs) : (e.started).remain = e.remain := rfl
@[simp] theorem EngineRegs.started_retry (e : EngineRegs) : (e.started).retry = e.retry := rfl
@[simp] theorem EngineRegs.started_expectT (e : EngineRegs) : (e.started).expectT = e.expectT := rfl
@[simp] theorem EngineRegs.started_frameT0 (e : EngineRegs) : (e.started).frameT0 = e.frameT0 := rfl
@[simp] theorem EngineRegs.started_tmrArmed (e : EngineRegs) : (e.started).tmrArmed = e.tmrArmed := rfl
@[simp] theorem EngineRegs.started_tmrDeadline (e : EngineRegs) : (e.started).tmrDeadline = e.tmrDeadline := rfl

@[simp] theorem EngineRegs.armed_st (e : EngineRegs) (t : Ns64) : (e.armed t).st = e.st := rfl
@[simp] theorem EngineRegs.armed_notReady (e : EngineRegs) (t : Ns64) : (e.armed t).notReady = e.notReady := rfl
@[simp] theorem EngineRegs.armed_pendNew (e : EngineRegs) (t : Ns64) : (e.armed t).pendNew = e.pendNew := rfl
@[simp] theorem EngineRegs.armed_pendRetry (e : EngineRegs) (t : Ns64) : (e.armed t).pendRetry = e.pendRetry := rfl
@[simp] theorem EngineRegs.armed_fatal (e : EngineRegs) (t : Ns64) : (e.armed t).fatal = e.fatal := rfl
@[simp] theorem EngineRegs.armed_wcount (e : EngineRegs) (t : Ns64) : (e.armed t).wcount = e.wcount := rfl
@[simp] theorem EngineRegs.armed_next (e : EngineRegs) (t : Ns64) : (e.armed t).next = e.next := rfl
@[simp] theorem EngineRegs.armed_remain (e : EngineRegs) (t : Ns64) : (e.armed t).remain = e.remain := rfl
@[simp] theorem EngineRegs.armed_retry (e : EngineRegs) (t : Ns64) : (e.armed t).retry = e.retry := rfl
@[simp] theorem EngineRegs.armed_expectT (e : EngineRegs) (t : Ns64) : (e.armed t).expectT = e.expectT := rfl
@[simp] theorem EngineRegs.armed_frameT0 (e : EngineRegs) (t : Ns64) : (e.armed t).frameT0 = e.frameT0 := rfl
@[simp] theorem EngineRegs.armed_tmrArmed (e : EngineRegs) (t : Ns64) : (e.armed t).tmrArmed = true := rfl
@[simp] theorem EngineRegs.armed_tmrDeadline (e : EngineRegs) (t : Ns64) : (e.armed t).tmrDeadline = t := rfl


/-! ### The statistics -/

@[simp] theorem Stats.signalled_updates (t : Stats) : (t.signalled).updates = t.updates := rfl
@[simp] theorem Stats.signalled_overruns (t : Stats) : (t.signalled).overruns = t.overruns := rfl
@[simp] theorem Stats.signalled_retries (t : Stats) : (t.signalled).retries = t.retries := rfl
@[simp] theorem Stats.signalled_errors (t : Stats) : (t.signalled).errors = t.errors := rfl
@[simp] theorem Stats.signalled_irqs (t : Stats) : (t.signalled).irqs = t.irqs + 1 := rfl
@[simp] theorem Stats.signalled_lastRetries (t : Stats) : (t.signalled).lastRetries = t.lastRetries := rfl
@[simp] theorem Stats.signalled_lastViol (t : Stats) : (t.signalled).lastViol = t.lastViol := rfl
@[simp] theorem Stats.signalled_minDelay (t : Stats) : (t.signalled).minDelay = t.minDelay := rfl
@[simp] theorem Stats.signalled_maxDelay (t : Stats) : (t.signalled).maxDelay = t.maxDelay := rfl
@[simp] theorem Stats.signalled_lastUpd (t : Stats) : (t.signalled).lastUpd = t.lastUpd := rfl
@[simp] theorem Stats.signalled_minUpd (t : Stats) : (t.signalled).minUpd = t.minUpd := rfl
@[simp] theorem Stats.signalled_maxUpd (t : Stats) : (t.signalled).maxUpd = t.maxUpd := rfl

@[simp] theorem Stats.delayed_updates (t : Stats) (d : Int) : (t.delayed d).updates = t.updates := rfl
@[simp] theorem Stats.delayed_overruns (t : Stats) (d : Int) : (t.delayed d).overruns = t.overruns := rfl
@[simp] theorem Stats.delayed_retries (t : Stats) (d : Int) : (t.delayed d).retries = t.retries := rfl
@[simp] theorem Stats.delayed_errors (t : Stats) (d : Int) : (t.delayed d).errors = t.errors := rfl
@[simp] theorem Stats.delayed_irqs (t : Stats) (d : Int) : (t.delayed d).irqs = t.irqs := rfl
@[simp] theorem Stats.delayed_lastRetries (t : Stats) (d : Int) : (t.delayed d).lastRetries = t.lastRetries := rfl
@[simp] theorem Stats.delayed_lastViol (t : Stats) (d : Int) : (t.delayed d).lastViol = t.lastViol := rfl
@[simp] theorem Stats.delayed_minDelay (t : Stats) (d : Int) : (t.delayed d).minDelay = minDelayWith t.minDelay d := rfl
@[simp] theorem Stats.delayed_maxDelay (t : Stats) (d : Int) : (t.delayed d).maxDelay = maxDelayWith t.maxDelay d := rfl
@[simp] theorem Stats.delayed_lastUpd (t : Stats) (d : Int) : (t.delayed d).lastUpd = t.lastUpd := rfl
@[simp] theorem Stats.delayed_minUpd (t : Stats) (d : Int) : (t.delayed d).minUpd = t.minUpd := rfl
@[simp] theorem Stats.delayed_maxUpd (t : Stats) (d : Int) : (t.delayed d).maxUpd = t.maxUpd := rfl

@[simp] theorem Stats.finished_updates (t : Stats) (d : Ns64) (r : BitVec 16) :
    (t.finished d r).updates = t.updates + 1 := rfl
@[simp] theorem Stats.finished_overruns (t : Stats) (d : Ns64) (r : BitVec 16) :
    (t.finished d r).overruns = t.overruns := rfl
@[simp] theorem Stats.finished_retries (t : Stats) (d : Ns64) (r : BitVec 16) :
    (t.finished d r).retries = t.retries := rfl
@[simp] theorem Stats.finished_errors (t : Stats) (d : Ns64) (r : BitVec 16) : (t.finished d r).errors = t.errors := rfl
@[simp] theorem Stats.finished_irqs (t : Stats) (d : Ns64) (r : BitVec 16) : (t.finished d r).irqs = t.irqs := rfl
@[simp] theorem Stats.finished_lastRetries (t : Stats) (d : Ns64) (r : BitVec 16) :
    (t.finished d r).lastRetries = r := rfl
@[simp] theorem Stats.finished_lastViol (t : Stats) (d : Ns64) (r : BitVec 16) :
    (t.finished d r).lastViol = t.lastViol := rfl
@[simp] theorem Stats.finished_minDelay (t : Stats) (d : Ns64) (r : BitVec 16) :
    (t.finished d r).minDelay = t.minDelay := rfl
@[simp] theorem Stats.finished_maxDelay (t : Stats) (d : Ns64) (r : BitVec 16) :
    (t.finished d r).maxDelay = t.maxDelay := rfl
@[simp] theorem Stats.finished_lastUpd (t : Stats) (d : Ns64) (r : BitVec 16) : (t.finished d r).lastUpd = some d := rfl
@[simp] theorem Stats.finished_minUpd (t : Stats) (d : Ns64) (r : BitVec 16) :
    (t.finished d r).minUpd = minUpdWith t.minUpd d := rfl
@[simp] theorem Stats.finished_maxUpd (t : Stats) (d : Ns64) (r : BitVec 16) :
    (t.finished d r).maxUpd = maxUpdWith t.maxUpd d := rfl

@[simp] theorem Stats.violated_updates (t : Stats) (d : Int) : (t.violated d).updates = t.updates := rfl
@[simp] theorem Stats.violated_overruns (t : Stats) (d : Int) : (t.violated d).overruns = t.overruns := rfl
@[simp] theorem Stats.violated_retries (t : Stats) (d : Int) : (t.violated d).retries = t.retries + 1 := rfl
@[simp] theorem Stats.violated_errors (t : Stats) (d : Int) : (t.violated d).errors = t.errors := rfl
@[simp] theorem Stats.violated_irqs (t : Stats) (d : Int) : (t.violated d).irqs = t.irqs := rfl
@[simp] theorem Stats.violated_lastRetries (t : Stats) (d : Int) : (t.violated d).lastRetries = t.lastRetries := rfl
@[simp] theorem Stats.violated_lastViol (t : Stats) (d : Int) : (t.violated d).lastViol = some (delayWord d) := rfl
@[simp] theorem Stats.violated_minDelay (t : Stats) (d : Int) : (t.violated d).minDelay = t.minDelay := rfl
@[simp] theorem Stats.violated_maxDelay (t : Stats) (d : Int) : (t.violated d).maxDelay = t.maxDelay := rfl
@[simp] theorem Stats.violated_lastUpd (t : Stats) (d : Int) : (t.violated d).lastUpd = t.lastUpd := rfl
@[simp] theorem Stats.violated_minUpd (t : Stats) (d : Int) : (t.violated d).minUpd = t.minUpd := rfl
@[simp] theorem Stats.violated_maxUpd (t : Stats) (d : Int) : (t.violated d).maxUpd = t.maxUpd := rfl

@[simp] theorem Stats.abandoned_updates (t : Stats) (r : BitVec 16) : (t.abandoned r).updates = t.updates := rfl
@[simp] theorem Stats.abandoned_overruns (t : Stats) (r : BitVec 16) : (t.abandoned r).overruns = t.overruns := rfl
@[simp] theorem Stats.abandoned_retries (t : Stats) (r : BitVec 16) : (t.abandoned r).retries = t.retries := rfl
@[simp] theorem Stats.abandoned_errors (t : Stats) (r : BitVec 16) : (t.abandoned r).errors = t.errors + 1 := rfl
@[simp] theorem Stats.abandoned_irqs (t : Stats) (r : BitVec 16) : (t.abandoned r).irqs = t.irqs := rfl
@[simp] theorem Stats.abandoned_lastRetries (t : Stats) (r : BitVec 16) : (t.abandoned r).lastRetries = r := rfl
@[simp] theorem Stats.abandoned_lastViol (t : Stats) (r : BitVec 16) : (t.abandoned r).lastViol = t.lastViol := rfl
@[simp] theorem Stats.abandoned_minDelay (t : Stats) (r : BitVec 16) : (t.abandoned r).minDelay = t.minDelay := rfl
@[simp] theorem Stats.abandoned_maxDelay (t : Stats) (r : BitVec 16) : (t.abandoned r).maxDelay = t.maxDelay := rfl
@[simp] theorem Stats.abandoned_lastUpd (t : Stats) (r : BitVec 16) : (t.abandoned r).lastUpd = t.lastUpd := rfl
@[simp] theorem Stats.abandoned_minUpd (t : Stats) (r : BitVec 16) : (t.abandoned r).minUpd = t.minUpd := rfl
@[simp] theorem Stats.abandoned_maxUpd (t : Stats) (r : BitVec 16) : (t.abandoned r).maxUpd = t.maxUpd := rfl


/-! ### The devices -/

@[simp] theorem Gen.configure_activeNs (g : Gen) (a p : Ns32) (i : Bool) : (g.configure a p i).activeNs = a := rfl
@[simp] theorem Gen.configure_passiveNs (g : Gen) (a p : Ns32) (i : Bool) : (g.configure a p i).passiveNs = p := rfl
@[simp] theorem Gen.configure_inv (g : Gen) (a p : Ns32) (i : Bool) : (g.configure a p i).inv = i := rfl
@[simp] theorem Gen.configure_en (g : Gen) (a p : Ns32) (i : Bool) : (g.configure a p i).en = g.en := rfl
@[simp] theorem Gen.configure_word (g : Gen) (a p : Ns32) (i : Bool) : (g.configure a p i).word = g.word := rfl

@[simp] theorem Gen.load_activeNs (g : Gen) (b : Slots) : (g.load b).activeNs = g.activeNs := rfl
@[simp] theorem Gen.load_passiveNs (g : Gen) (b : Slots) : (g.load b).passiveNs = g.passiveNs := rfl
@[simp] theorem Gen.load_inv (g : Gen) (b : Slots) : (g.load b).inv = g.inv := rfl
@[simp] theorem Gen.load_en (g : Gen) (b : Slots) : (g.load b).en = g.en := rfl
@[simp] theorem Gen.load_word (g : Gen) (b : Slots) : (g.load b).word = some b := rfl

@[simp] theorem Gen.enable_activeNs (g : Gen) : (g.enable).activeNs = g.activeNs := rfl
@[simp] theorem Gen.enable_passiveNs (g : Gen) : (g.enable).passiveNs = g.passiveNs := rfl
@[simp] theorem Gen.enable_inv (g : Gen) : (g.enable).inv = g.inv := rfl
@[simp] theorem Gen.enable_en (g : Gen) : (g.enable).en = true := rfl
@[simp] theorem Gen.enable_word (g : Gen) : (g.enable).word = g.word := rfl

@[simp] theorem Gen.disable_activeNs (g : Gen) : (g.disable).activeNs = g.activeNs := rfl
@[simp] theorem Gen.disable_passiveNs (g : Gen) : (g.disable).passiveNs = g.passiveNs := rfl
@[simp] theorem Gen.disable_inv (g : Gen) : (g.disable).inv = g.inv := rfl
@[simp] theorem Gen.disable_en (g : Gen) : (g.disable).en = false := rfl
@[simp] theorem Gen.disable_word (g : Gen) : (g.disable).word = none := rfl

@[simp] theorem Gen.finish_activeNs (g : Gen) : (g.finish).activeNs = g.activeNs := rfl
@[simp] theorem Gen.finish_passiveNs (g : Gen) : (g.finish).passiveNs = g.passiveNs := rfl
@[simp] theorem Gen.finish_inv (g : Gen) : (g.finish).inv = g.inv := rfl
@[simp] theorem Gen.finish_en (g : Gen) : (g.finish).en = g.en := rfl
@[simp] theorem Gen.finish_word (g : Gen) : (g.finish).word = none := rfl

@[simp] theorem Timer.arm_req (t : Timer) (d : Ns64) : (t.arm d).req = some d := rfl

@[simp] theorem Timer.cancel_req (t : Timer) : (t.cancel).req = none := rfl


/-! ### The machine -/

@[simp] theorem State.setChannel_rom (s : State) (ch : ChanId) (c : Channel) : (s.setChannel ch c).rom = s.rom := rfl
@[simp] theorem State.setChannel_capTable (s : State) (ch : ChanId) (c : Channel) :
    (s.setChannel ch c).capTable = s.capTable := rfl
@[simp] theorem State.setChannel_chans (s : State) (ch : ChanId) (c : Channel) :
    (s.setChannel ch c).chans = s.chans.set ch.toNat c := rfl
@[simp] theorem State.setChannel_enc (s : State) (ch : ChanId) (c : Channel) : (s.setChannel ch c).enc = s.enc := rfl
@[simp] theorem State.setChannel_ret (s : State) (ch : ChanId) (c : Channel) : (s.setChannel ch c).ret = s.ret := rfl
@[simp] theorem State.setChannel_outs (s : State) (ch : ChanId) (c : Channel) : (s.setChannel ch c).outs = s.outs := rfl
@[simp] theorem State.setChannel_answers (s : State) (ch : ChanId) (c : Channel) :
    (s.setChannel ch c).answers = s.answers := rfl
@[simp] theorem State.setChannel_inbox (s : State) (ch : ChanId) (c : Channel) :
    (s.setChannel ch c).inbox = s.inbox := rfl

@[simp] theorem answer_rom (s : State) (k : Code) (r : List Byte) : (answer k r s).rom = s.rom := rfl
@[simp] theorem answer_capTable (s : State) (k : Code) (r : List Byte) : (answer k r s).capTable = s.capTable := rfl
@[simp] theorem answer_chans (s : State) (k : Code) (r : List Byte) : (answer k r s).chans = s.chans := rfl
@[simp] theorem answer_enc (s : State) (k : Code) (r : List Byte) : (answer k r s).enc = s.enc := rfl
@[simp] theorem answer_ret (s : State) (k : Code) (r : List Byte) : (answer k r s).ret = s.ret := rfl
@[simp] theorem answer_outs (s : State) (k : Code) (r : List Byte) : (answer k r s).outs = s.outs := rfl
@[simp] theorem answer_answers (s : State) (k : Code) (r : List Byte) :
    (answer k r s).answers = s.answers ++ [k.byte :: r] := rfl
@[simp] theorem answer_inbox (s : State) (k : Code) (r : List Byte) : (answer k r s).inbox = s.inbox := rfl

@[simp] theorem commit_rom (s : State) (ch : ChanId) (c : Channel) (n : Option Session) (l : List Instr) :
    (commit ch c n l s).rom = s.rom := rfl
@[simp] theorem commit_capTable (s : State) (ch : ChanId) (c : Channel) (n : Option Session) (l : List Instr) :
    (commit ch c n l s).capTable = s.capTable := rfl
@[simp] theorem commit_chans (s : State) (ch : ChanId) (c : Channel) (n : Option Session) (l : List Instr) :
    (commit ch c n l s).chans = s.chans.set ch.toNat (deviceEffects l { c with session := n }) := rfl
@[simp] theorem commit_enc (s : State) (ch : ChanId) (c : Channel) (n : Option Session) (l : List Instr) :
    (commit ch c n l s).enc = s.enc := rfl
@[simp] theorem commit_ret (s : State) (ch : ChanId) (c : Channel) (n : Option Session) (l : List Instr) :
    (commit ch c n l s).ret = s.ret := rfl
@[simp] theorem commit_outs (s : State) (ch : ChanId) (c : Channel) (n : Option Session) (l : List Instr) :
    (commit ch c n l s).outs = s.outs ++ l.map encode := rfl
@[simp] theorem commit_answers (s : State) (ch : ChanId) (c : Channel) (n : Option Session) (l : List Instr) :
    (commit ch c n l s).answers = s.answers := rfl
@[simp] theorem commit_inbox (s : State) (ch : ChanId) (c : Channel) (n : Option Session) (l : List Instr) :
    (commit ch c n l s).inbox = s.inbox := rfl

@[simp] theorem raiseEvent_rom (s : State) (i : Instr) (k : Nat) : (raiseEvent i k s).rom = s.rom := rfl
@[simp] theorem raiseEvent_capTable (s : State) (i : Instr) (k : Nat) : (raiseEvent i k s).capTable = s.capTable := rfl
@[simp] theorem raiseEvent_chans (s : State) (i : Instr) (k : Nat) : (raiseEvent i k s).chans = s.chans := rfl
@[simp] theorem raiseEvent_enc (s : State) (i : Instr) (k : Nat) : (raiseEvent i k s).enc = s.enc := rfl
@[simp] theorem raiseEvent_ret (s : State) (i : Instr) (k : Nat) : (raiseEvent i k s).ret = s.ret := rfl
@[simp] theorem raiseEvent_outs (s : State) (i : Instr) (k : Nat) : (raiseEvent i k s).outs = s.outs := rfl
@[simp] theorem raiseEvent_answers (s : State) (i : Instr) (k : Nat) : (raiseEvent i k s).answers = s.answers := rfl
@[simp] theorem raiseEvent_inbox (s : State) (i : Instr) (k : Nat) :
    (raiseEvent i k s).inbox = s.inbox.take k ++ .raised (encode i) :: s.inbox.drop k := rfl

@[simp] theorem placeMessage_rom (s : State) (m : List Byte) : (placeMessage m s).rom = s.rom := rfl
@[simp] theorem placeMessage_capTable (s : State) (m : List Byte) : (placeMessage m s).capTable = s.capTable := rfl
@[simp] theorem placeMessage_chans (s : State) (m : List Byte) : (placeMessage m s).chans = s.chans := rfl
@[simp] theorem placeMessage_enc (s : State) (m : List Byte) : (placeMessage m s).enc = s.enc := rfl
@[simp] theorem placeMessage_ret (s : State) (m : List Byte) : (placeMessage m s).ret = s.ret := rfl
@[simp] theorem placeMessage_outs (s : State) (m : List Byte) : (placeMessage m s).outs = s.outs := rfl
@[simp] theorem placeMessage_answers (s : State) (m : List Byte) : (placeMessage m s).answers = s.answers := rfl
@[simp] theorem placeMessage_inbox (s : State) (m : List Byte) :
    (placeMessage m s).inbox = .message (portOfOpcode (m.getD 0 0)) m :: s.inbox := rfl

end Sys2Proof.Machine
end

