-- ==== Sys2Proof/Laws/Ops.lean ====
section
/-! SUPPORT. The laws of the shared operations: where a channel is read after one has been put back, what an output command
leaves alone, and, for each of the engine's procedures, everything it can do. -/

namespace Sys2Proof.Machine

/-! ### Going on -/

variable {α β : Type}

theorem andThen_next {r : Result α} {f : α → Result β} {b : β} (h : andThen r f = .next b) :
    ∃ a, r = .next a ∧ f a = .next b := by
  cases r with
  | next a => exact ⟨a, rfl, h⟩
  | fault e => cases h
  | refused e => cases h

@[simp] theorem andThen_of_next (a : α) (f : α → Result β) : andThen (.next a) f = f a := rfl

/-! ### The registry -/

theorem channel?_eq_some {s : State} {ch : ChanId} {c : Channel} (h : s.channel? ch = some c) :
    ch.toNat < s.chans.length := (List.getElem?_eq_some_iff.1 h).1

theorem channel?_eq_none {s : State} {ch : ChanId} : s.channel? ch = none ↔ s.chans.length ≤ ch.toNat :=
  List.getElem?_eq_none_iff

theorem session?_eq_some {s : State} {ch : ChanId} {ss : Session} :
    s.session? ch = some ss ↔ ∃ c, s.channel? ch = some c ∧ c.session = some ss := Option.bind_eq_some_iff

theorem session?_of_channel {s : State} {ch : ChanId} {c : Channel} (h : s.channel? ch = some c) :
    s.session? ch = c.session := by simp [State.session?, h]

/-- Two states with the same registry hold the same channels. -/
theorem channel?_congr {s t : State} (h : t.chans = s.chans) (ch : ChanId) : t.channel? ch = s.channel? ch := by
  simp [State.channel?, h]

theorem session?_congr {s t : State} (h : t.chans = s.chans) (ch : ChanId) : t.session? ch = s.session? ch := by
  simp [State.session?, channel?_congr h]

/-- A channel that is put back is there. -/
theorem channel?_set_same {s t : State} {ch : ChanId} {c c' : Channel} (h : s.channel? ch = some c)
    (ht : t.chans = s.chans.set ch.toNat c') : t.channel? ch = some c' := by
  simp [State.channel?, ht, channel?_eq_some h]

/-- Putting a channel back leaves every other channel alone. -/
theorem channel?_set_other {s t : State} {ch ch' : ChanId} {c' : Channel} (hne : ch' ≠ ch)
    (ht : t.chans = s.chans.set ch.toNat c') : t.channel? ch' = s.channel? ch' := by
  have : ch.toNat ≠ ch'.toNat := fun h => hne (BitVec.eq_of_toNat_eq h).symm
  simp [State.channel?, ht, List.getElem?_set_ne this]

theorem session?_set_other {s t : State} {ch ch' : ChanId} {c' : Channel} (hne : ch' ≠ ch)
    (ht : t.chans = s.chans.set ch.toNat c') : t.session? ch' = s.session? ch' := by
  simp [State.session?, channel?_set_other hne ht]

/-! ### The devices -/

/-- An output command leaves the session's registers alone (42_engine.md rules R205 to R210). -/
@[simp] theorem deviceEffect_session (i : Instr) (c : Channel) : (deviceEffect i c).session = c.session := by
  cases i <;> rfl

@[simp] theorem deviceEffects_nil (c : Channel) : deviceEffects [] c = c := rfl

@[simp] theorem deviceEffects_cons (i : Instr) (l : List Instr) (c : Channel) :
    deviceEffects (i :: l) c = deviceEffects l (deviceEffect i c) := rfl

theorem deviceEffects_append (l1 l2 : List Instr) (c : Channel) :
    deviceEffects (l1 ++ l2) c = deviceEffects l2 (deviceEffects l1 c) := List.foldl_append

@[simp] theorem deviceEffects_session (l : List Instr) (c : Channel) : (deviceEffects l c).session = c.session := by
  induction l generalizing c with
  | nil => rfl
  | cons i l ih => rw [deviceEffects_cons, ih, deviceEffect_session]

/-! ### The output level of a generator (42_engine.md rules R205 to R208) -/

/-- While no word is sent, the output holds the passive level. -/
theorem Gen.output_idle {g : Gen} (h : g.busy = false) : g.output = ([], g.passiveLevel) := by
  unfold Gen.output
  split
  · rename_i bits hw
    have : g.en = false := by simpa [Gen.busy, hw] using h
    simp [this]
  · rfl

/-- While a word is sent, its slots come first, and then the passive level. -/
theorem Gen.output_busy {g : Gen} {bits : Slots} (he : g.en = true) (hw : g.word = some bits) :
    g.output = (g.wave bits, g.passiveLevel) := by
  simp [Gen.output, he, hw]

/-! ### The end of a session's step -/

theorem commit_channel_same {s : State} {ch : ChanId} {c0 c : Channel} {n : Option Session} {l : List Instr}
    (h : s.channel? ch = some c0) : (commit ch c n l s).channel? ch = some (deviceEffects l { c with session := n }) :=
  channel?_set_same h rfl

theorem commit_channel_other {s : State} {ch ch' : ChanId} {c : Channel} {n : Option Session} {l : List Instr}
    (h : ch' ≠ ch) : (commit ch c n l s).channel? ch' = s.channel? ch' := channel?_set_other h rfl

theorem commit_session_same {s : State} {ch : ChanId} {c0 c : Channel} {n : Option Session} {l : List Instr}
    (h : s.channel? ch = some c0) : (commit ch c n l s).session? ch = n := by
  rw [session?_of_channel (commit_channel_same h), deviceEffects_session]

theorem commit_session_other {s : State} {ch ch' : ChanId} {c : Channel} {n : Option Session} {l : List Instr}
    (h : ch' ≠ ch) : (commit ch c n l s).session? ch' = s.session? ch' := session?_set_other h rfl

/-! ### The session checks -/

/-- All that a host command to a session can come to before its own rule (43_session.md rule R240). -/
theorem withSession_next {ch : ChanId} {s t : State} {f : Channel → Session → Result State}
    (h : withSession ch s f = .next t) :
    (∃ code, code ≠ .ok ∧ t = answer code [] s)
    ∨ ∃ c ss, s.channel? ch = some c ∧ c.session = some ss ∧ ss.eng.fatal = false ∧ f c ss = .next t := by
  unfold withSession at h
  split at h
  · cases h; exact .inl ⟨.badChannel, by decide, rfl⟩
  · split at h
    · cases h; exact .inl ⟨.noSession, by decide, rfl⟩
    · rename_i c hc _ ss hs
      split at h
      · cases h; exact .inl ⟨.fatal, by decide, rfl⟩
      · rename_i hf; exact .inr ⟨c, ss, hc, hs, by simpa using hf, h⟩

theorem withSession_live {ch : ChanId} {s : State} {c : Channel} {ss : Session} {f : Channel → Session → Result State}
    (hc : s.channel? ch = some c) (hs : c.session = some ss) (hf : ss.eng.fatal = false) :
    withSession ch s f = f c ss := by simp [withSession, hc, hs, hf]

/-- All that an event can come to (60_exceptions.md rules R306 and R322). -/
theorem onEvent_next {ch : ChanId} {s t : State} {f : Channel → Session → Result State}
    (h : onEvent ch s f = .next t) :
    t = s ∨ ∃ c ss, s.channel? ch = some c ∧ c.session = some ss ∧ ss.eng.fatal = false ∧ f c ss = .next t := by
  unfold onEvent at h
  split at h
  · cases h; exact .inl rfl
  · split at h
    · cases h; exact .inl rfl
    · rename_i c hc _ ss hs
      split at h
      · cases h; exact .inl rfl
      · rename_i hf; exact .inr ⟨c, ss, hc, hs, by simpa using hf, h⟩

theorem onEvent_live {ch : ChanId} {s : State} {c : Channel} {ss : Session} {f : Channel → Session → Result State}
    (hc : s.channel? ch = some c) (hs : c.session = some ss) (hf : ss.eng.fatal = false) :
    onEvent ch s f = f c ss := by simp [onEvent, hc, hs, hf]

/-! ### The engine's procedures (42_engine.md section 2) -/

variable {rom : Rom} {ch : ChanId} {p : ChipProfile} {now : Ns64} {ss ss' : Session} {cmds : List Instr}

theorem frameChip_next (h : frameChip rom ch ss = .next p) : rom.chip ss.latch.chip = some p := by
  unfold frameChip at h
  split at h
  · rename_i q hq; cases h; exact hq
  · cases h

theorem frameChip_of_some (h : rom.chip ss.latch.chip = some p) : frameChip rom ch ss = .next p := by
  simp [frameChip, h]

/-- All that LoadNext can do when it goes on (rule R193). -/
theorem loadNext_next (h : loadNext ch now ss = .next (ss', cmds)) :
    ∃ w, ss.eng.next < ss.eng.wcount ∧ Memory.read ss.buf ss.eng.next.toNat = some w
      ∧ ss' = { ss with eng := ss.eng.loaded now w.dur } ∧ cmds = [.genLoad ch w.bits] := by
  unfold loadNext at h
  split at h
  · rename_i w hw
    unfold nextWord at hw
    split at hw
    · rename_i hlt; cases h; exact ⟨w, hlt, hw, rfl, rfl⟩
    · cases hw
  · cases h

theorem loadNext_of_word {w : WaveWord} (hlt : ss.eng.next < ss.eng.wcount)
    (hw : Memory.read ss.buf ss.eng.next.toNat = some w) :
    loadNext ch now ss = .next ({ ss with eng := ss.eng.loaded now w.dur }, [.genLoad ch w.bits]) := by
  simp [loadNext, nextWord, hlt, hw]

/-- All that StartAttempt can do when it goes on (rule R192). -/
theorem startAttempt_next (h : startAttempt ch p now ss = .next (ss', cmds)) :
    ∃ w, 0 < ss.eng.wcount ∧ Memory.read ss.buf 0 = some w
      ∧ ss' = { ss with eng := ((ss.eng.rewound).loaded now w.dur).started }
      ∧ cmds = [.genConfigure ch p.t0ActiveNs p.tPassiveMinNs ss.cfg.inv, .genLoad ch w.bits, .genEnable ch] := by
  obtain ⟨⟨s1, l⟩, h1, h2⟩ := andThen_next h
  obtain ⟨w, hlt, hw, rfl, rfl⟩ := loadNext_next h1
  cases h2
  exact ⟨w, hlt, hw, rfl, rfl⟩

theorem startAttempt_of_word {w : WaveWord} (hlt : 0 < ss.eng.wcount) (hw : Memory.read ss.buf 0 = some w) :
    startAttempt ch p now ss
      = .next ({ ss with eng := ((ss.eng.rewound).loaded now w.dur).started },
          [.genConfigure ch p.t0ActiveNs p.tPassiveMinNs ss.cfg.inv, .genLoad ch w.bits, .genEnable ch]) := by
  unfold startAttempt
  rw [loadNext_of_word (ss := { ss with eng := ss.eng.rewound }) hlt hw]
  rfl

/-- All that Accept can do when it goes on (rule R204): the frame is queued in a window, or its first attempt starts. -/
theorem accept_next (h : accept ch p now ss = .next (ss', cmds)) :
    ((ss.eng.st = .await ∨ ss.eng.st = .failed)
      ∧ ss' = { ss with eng := { ss.eng with pendNew := true, st := .await } } ∧ cmds = [])
    ∨ ((ss.eng.st = .idle ∨ ss.eng.st = .sending)
      ∧ startAttempt ch p now { ss with eng := { ss.eng with frameT0 := now } } = .next (ss', cmds)) := by
  unfold accept at h
  split at h <;> rename_i hst
  · cases h; exact .inl ⟨.inl hst, rfl, rfl⟩
  · cases h; exact .inl ⟨.inr hst, rfl, rfl⟩
  · exact .inr ⟨.inl hst, h⟩
  · exact .inr ⟨.inr hst, h⟩

/-- Abort (rule R203), by the engine's state. -/
theorem abort_sending (h : ss.eng.st = .sending) :
    abort ch ss = ({ ss with eng := { ss.eng with remain := 0, pendRetry := false } }, [.genDisable ch]) := by
  simp [abort, h]

theorem abort_other (h : ss.eng.st ≠ .sending) :
    abort ch ss = ({ ss with eng := { ss.eng with pendRetry := false } }, []) := by simp [abort, h]

/-- What Abort leaves alone, whatever the engine's state. -/
theorem abort_keeps (ch : ChanId) (ss : Session) :
    (abort ch ss).1.cfg = ss.cfg ∧ (abort ch ss).1.buf = ss.buf ∧ (abort ch ss).1.latch = ss.latch
      ∧ (abort ch ss).1.stats = ss.stats ∧ (abort ch ss).1.snap = ss.snap ∧ (abort ch ss).1.eng.st = ss.eng.st
      ∧ (abort ch ss).1.eng.tmrArmed = ss.eng.tmrArmed ∧ (abort ch ss).1.eng.fatal = ss.eng.fatal := by
  by_cases h : ss.eng.st = .sending
  · rw [abort_sending h]; simp
  · rw [abort_other h]; simp

/-- The overrun count (43_session.md rule R254) leaves everything but `S_OVERRUNS` alone. -/
theorem countOverrun_keeps (ss : Session) :
    (countOverrun ss).cfg = ss.cfg ∧ (countOverrun ss).eng = ss.eng ∧ (countOverrun ss).buf = ss.buf
      ∧ (countOverrun ss).latch = ss.latch ∧ (countOverrun ss).snap = ss.snap
      ∧ { (countOverrun ss).stats with overruns := 0 } = { ss.stats with overruns := 0 } := by
  unfold countOverrun; split <;> simp

/-- All that a violation can do (rule R198): the retry window, or the failure window. -/
theorem violation_cases (ch : ChanId) (p : ChipProfile) (now : Ns64) (d : Int) (ss : Session) :
    (budgetExhausted (ss.eng.retry + 1) ss.latch.maxRetry = true
      ∧ violation ch p now d ss
        = ({ ss with
             stats := (ss.stats.violated d).abandoned (ss.eng.retry + 1)
             eng :=
               { ss.eng with retry := ss.eng.retry + 1, remain := 0, st := .failed, pendRetry := false }.armed
                 (deadlineAt now (resetWindow p)) },
           [.tmrArm ch (deadlineAt now (resetWindow p))]))
    ∨ (budgetExhausted (ss.eng.retry + 1) ss.latch.maxRetry = false
      ∧ violation ch p now d ss
        = ({ ss with
             stats := ss.stats.violated d
             eng :=
               { ss.eng with retry := ss.eng.retry + 1, remain := 0, st := .await, pendRetry := true }.armed
                 (deadlineAt now (retryWindow p)) },
           [.tmrArm ch (deadlineAt now (retryWindow p))])) := by
  cases h : budgetExhausted (ss.eng.retry + 1) ss.latch.maxRetry
  · exact .inr ⟨rfl, by simp only [violation, h, Bool.false_eq_true, if_false]⟩
  · exact .inl ⟨rfl, by simp only [violation, h, if_true]⟩

/-! ### The two events -/

/-- All that COMPLETE can do to a live session when it goes on (rule R195). -/
theorem completeSession_next (h : completeSession rom ch now ss = .next (ss', cmds)) :
    (ss.eng.st ≠ .sending ∧ ss' = { ss with stats := ss.stats.signalled } ∧ cmds = [])
    ∨ (ss.eng.st = .sending ∧ withinTolerance (delayOf now ss.eng.expectT) ss.latch.maxPassNs = true ∧ ss.eng.remain ≠ 0
      ∧ loadNext ch now { ss with stats := ss.stats.signalled.delayed (delayOf now ss.eng.expectT) } = .next (ss', cmds))
    ∨ (ss.eng.st = .sending ∧ withinTolerance (delayOf now ss.eng.expectT) ss.latch.maxPassNs = true ∧ ss.eng.remain = 0
      ∧ ∃ p, rom.chip ss.latch.chip = some p
        ∧ finishFrame ch p now { ss with stats := ss.stats.signalled.delayed (delayOf now ss.eng.expectT) } = (ss', cmds))
    ∨ (ss.eng.st = .sending ∧ withinTolerance (delayOf now ss.eng.expectT) ss.latch.maxPassNs = false
      ∧ ∃ p, rom.chip ss.latch.chip = some p
        ∧ violation ch p now (delayOf now ss.eng.expectT) { ss with stats := ss.stats.signalled } = (ss', cmds)) := by
  unfold completeSession at h
  by_cases hst : ss.eng.st = .sending
  · simp only [hst, ne_eq, not_true_eq_false, if_false] at h
    split at h
    · rename_i hw
      unfold completeInTime at h
      by_cases hr : ss.eng.remain = 0
      · simp only [hr, ne_eq, not_true_eq_false, if_false] at h
        obtain ⟨p, hp, hf⟩ := andThen_next h
        exact .inr (.inr (.inl ⟨hst, hw, hr, p, frameChip_next hp, by simpa using hf⟩))
      · simp only [hr, ne_eq, not_false_eq_true, if_true] at h
        exact .inr (.inl ⟨hst, hw, hr, h⟩)
    · rename_i hw
      obtain ⟨p, hp, hf⟩ := andThen_next h
      exact .inr (.inr (.inr ⟨hst, by simpa using hw, p, frameChip_next hp, by simpa using hf⟩))
  · simp only [hst, ne_eq, not_false_eq_true, if_true] at h
    cases h; exact .inl ⟨hst, rfl, rfl⟩

/-- All that WAKE can do to a live session when it goes on (rule R201). -/
theorem wakeSession_next (h : wakeSession rom ch now ss = .next (ss', cmds)) :
    (wakeDue ss.eng now = false ∧ ss' = ss ∧ cmds = [])
    ∨ (wakeDue ss.eng now = true ∧ ss.eng.pendRetry = true ∧ ∃ p, rom.chip ss.latch.chip = some p
      ∧ startAttempt ch p now { ss with eng := { ss.eng with tmrArmed := false, pendRetry := false } } = .next (ss', cmds))
    ∨ (wakeDue ss.eng now = true ∧ ss.eng.pendRetry = false ∧ ss.eng.pendNew = true
      ∧ ∃ p, rom.chip ss.latch.chip = some p
        ∧ startAttempt ch p now { ss with eng := { ss.eng with tmrArmed := false, pendNew := false, frameT0 := now } }
          = .next (ss', cmds))
    ∨ (wakeDue ss.eng now = true ∧ ss.eng.pendRetry = false ∧ ss.eng.pendNew = false
      ∧ ss' = { ss with eng := { ss.eng with tmrArmed := false, st := .idle, notReady := false } } ∧ cmds = []) := by
  unfold wakeSession at h
  by_cases hd : wakeDue ss.eng now = true
  · rw [if_neg (by simp [hd])] at h
    by_cases hr : ss.eng.pendRetry = true
    · rw [if_pos hr] at h
      obtain ⟨p, hp, hf⟩ := andThen_next h
      exact .inr (.inl ⟨hd, hr, p, frameChip_next hp, hf⟩)
    · rw [if_neg hr] at h
      by_cases hn : ss.eng.pendNew = true
      · rw [if_pos hn] at h
        obtain ⟨p, hp, hf⟩ := andThen_next h
        exact .inr (.inr (.inl ⟨hd, by simpa using hr, hn, p, frameChip_next hp, hf⟩))
      · rw [if_neg hn] at h
        cases h; exact .inr (.inr (.inr ⟨hd, by simpa using hr, by simpa using hn, rfl, rfl⟩))
  · rw [if_pos (by simpa using hd)] at h
    cases h; exact .inl ⟨by simpa using hd, rfl, rfl⟩

end Sys2Proof.Machine
end

