-- ==== Sys2Proof/Laws/Exec.lean ====
section
/-! SUPPORT. For each operation, everything it can do when it goes on: later proofs about a step cite these and unfold no
meaning. -/

namespace Sys2Proof.Machine

variable {s t : State} {ch : ChanId}

/-- CFG (43_session.md rule R241): it answers a code and nothing else happens, or it fills the empty slot. -/
theorem execCfg_next {w0 w1 w2 w3 : BitVec 32} (h : execCfg ch w0 w1 w2 w3 s = .next t) :
    (∃ code, code ≠ .ok ∧ t = answer code [] s)
    ∨ ∃ c m ids n, s.channel? ch = some c ∧ c.session = none ∧ cfgCheck s.rom w0 w1 w2 = .ok (m, ids)
      ∧ cfgChannels s.rom m ids.1 = some n
      ∧ t = answer .ok []
          (commit ch c
            (some (Session.created (cfgRegs m ids (capWords s.capTable (cfgLedCount w1).toNat n) w0 w1 w2 w3))) [] s) := by
  have codes : ∀ e, cfgCheck s.rom w0 w1 w2 = .error e → e ≠ .ok := by
    intro e he hok
    subst hok
    simp only [cfgCheck] at he
    repeat' split at he
    all_goals try cases he
    rename_i hsel
    unfold cfgSelection at hsel
    repeat' split at hsel
    all_goals cases hsel
  unfold execCfg at h
  split at h
  · cases h; exact .inl ⟨.badChannel, by decide, rfl⟩
  · rename_i c hc
    split at h
    · split at h
      · cases h; exact .inl ⟨.fatal, by decide, rfl⟩
      · cases h; exact .inl ⟨.cfgExists, by decide, rfl⟩
    · rename_i hs
      split at h
      · rename_i e he
        cases h; exact .inl ⟨e, codes e he, rfl⟩
      · rename_i m ids hk
        unfold createSession at h
        split at h
        · cases h
        · rename_i n hn
          cases h; exact .inr ⟨c, m, ids, n, hc, hs, hk, hn, rfl⟩

/-- SUBMIT (rule R245): a rejected or empty frame is answered and nothing else happens; else the frame overruns the capacity,
or it is latched and handed to the engine. -/
theorem execSubmit_next {now : Ns64} {frame : List Byte} (h : execSubmit ch now frame s = .next t) :
    (∃ code rest, t = answer code rest s)
    ∨ ∃ c ss f, s.channel? ch = some c ∧ c.session = some ss ∧ ss.eng.fatal = false
      ∧ parseFrame s.rom ss.cfg frame = .ok f ∧ f.leds ss.cfg ≠ 0
      ∧ ((∃ x, encodeFrame f.chip ss.cfg.cap (f.encoded ss.cfg) ss.buf = .error x
          ∧ t = answer .capacity []
              (commit ch c (some (capacityFault ch { (abort ch (countOverrun ss)).1 with buf := x.buf }).1)
                ((abort ch (countOverrun ss)).2
                  ++ (capacityFault ch { (abort ch (countOverrun ss)).1 with buf := x.buf }).2)
                { s with enc := encDiscarded ch f.chip (f.encoded ss.cfg) }))
        ∨ ∃ x ss2 cmds2, encodeFrame f.chip ss.cfg.cap (f.encoded ss.cfg) ss.buf = .ok x
          ∧ accept ch f.chip now (latchFrame f x (abort ch (countOverrun ss)).1) = .next (ss2, cmds2)
          ∧ t = answer .ok (bytes32 (x.regs.k.setWidth 32))
              (commit ch c (some ss2) ((abort ch (countOverrun ss)).2 ++ cmds2)
                { s with enc := encDiscarded ch f.chip (f.encoded ss.cfg) })) := by
  rcases withSession_next h with ⟨code, -, ht⟩ | ⟨c, ss, hc, hs, hf, hg⟩
  · exact .inl ⟨code, [], ht⟩
  · unfold submitSession at hg
    split at hg
    · split at hg
      · cases hg
      · cases hg; exact .inl ⟨_, [], rfl⟩
    · rename_i f hp
      split at hg
      · cases hg; exact .inl ⟨.ok, _, rfl⟩
      · rename_i hn
        refine .inr ⟨c, ss, f, hc, hs, hf, hp, hn, ?_⟩
        have hcfg : (abort ch (countOverrun ss)).1.buf = ss.buf := by
          rw [(abort_keeps ch (countOverrun ss)).2.1, (countOverrun_keeps ss).2.2.1]
        unfold submitFrame at hg
        simp only [hcfg] at hg
        split at hg
        · rename_i x hx
          cases hg; exact .inl ⟨x, hx, rfl⟩
        · rename_i x hx
          obtain ⟨⟨ss2, cmds2⟩, ha, hb⟩ := andThen_next hg
          cases hb; exact .inr ⟨x, ss2, cmds2, hx, ha, rfl⟩

/-- STATUS (rule R259) answers and does nothing else. -/
theorem execStatus_next (h : execStatus ch s = .next t) : ∃ code rest, t = answer code rest s := by
  rcases withSession_next h with ⟨code, -, ht⟩ | ⟨c, ss, -, -, -, hg⟩
  · exact ⟨code, [], ht⟩
  · cases hg; exact ⟨.ok, _, rfl⟩

/-- The offset of a snapshot is exact (rule R261, 00_scope.md rule R8): it does not wrap. -/
theorem advanceSnap_off (b : SnapBuf) (maxLen : BitVec 32) :
    (advanceSnap b maxLen).off.toNat = b.off.toNat + chunkLen b maxLen := by
  have := b.text.fits
  have := b.off.isLt
  simp only [advanceSnap, chunkLen, BitVec.toNat_add, BitVec.toNat_ofNat]
  omega

/-- STATUS_READ (rule R261) answers, and moves the snapshot of a live session on. -/
theorem execStatusRead_next {maxLen : BitVec 32} (h : execStatusRead ch maxLen s = .next t) :
    (∃ code, code ≠ .ok ∧ t = answer code [] s)
    ∨ ∃ c ss, s.channel? ch = some c ∧ c.session = some ss ∧ ss.eng.fatal = false ∧ maxLen ≠ 0
      ∧ t = answer .ok (chunkOf (freshSnap ss) maxLen)
          (commit ch c (some { ss with snap := advanceSnap (freshSnap ss) maxLen }) [] s) := by
  unfold execStatusRead at h
  split at h
  · cases h; exact .inl ⟨.badLength, by decide, rfl⟩
  · rename_i hm
    rcases withSession_next h with ⟨code, hk, ht⟩ | ⟨c, ss, hc, hs, hf, hg⟩
    · exact .inl ⟨code, hk, ht⟩
    · cases hg; exact .inr ⟨c, ss, hc, hs, hf, hm, rfl⟩

/-- SHUTDOWN (rule R262) answers, and empties a full slot. -/
theorem execShutdown_next (h : execShutdown ch s = .next t) :
    (∃ code, code ≠ .ok ∧ t = answer code [] s)
    ∨ ∃ c ss, s.channel? ch = some c ∧ c.session = some ss
      ∧ t = answer .ok [] (commit ch c none (shutdownCommands ch ss.eng) s) := by
  unfold execShutdown at h
  split at h
  · cases h; exact .inl ⟨.badChannel, by decide, rfl⟩
  · rename_i c hc
    split at h
    · cases h; exact .inl ⟨.noSession, by decide, rfl⟩
    · rename_i ss hs
      cases h; exact .inr ⟨c, ss, hc, hs, rfl⟩

/-- COMPLETE (42_engine.md rule R195) is ignored, or moves a live session. -/
theorem execComplete_next {now : Ns64} (h : execComplete ch now s = .next t) :
    t = s ∨ ∃ c ss ss' cmds, s.channel? ch = some c ∧ c.session = some ss ∧ ss.eng.fatal = false
      ∧ completeSession s.rom ch now ss = .next (ss', cmds) ∧ t = commit ch c (some ss') cmds s := by
  rcases onEvent_next h with rfl | ⟨c, ss, hc, hs, hf, hg⟩
  · exact .inl rfl
  · obtain ⟨⟨ss', cmds⟩, ha, hb⟩ := andThen_next hg
    cases hb; exact .inr ⟨c, ss, ss', cmds, hc, hs, hf, ha, rfl⟩

/-- WAKE (rule R201) is ignored, or moves a live session. -/
theorem execWake_next {now : Ns64} (h : execWake ch now s = .next t) :
    t = s ∨ ∃ c ss ss' cmds, s.channel? ch = some c ∧ c.session = some ss ∧ ss.eng.fatal = false
      ∧ wakeSession s.rom ch now ss = .next (ss', cmds) ∧ t = commit ch c (some ss') cmds s := by
  rcases onEvent_next h with rfl | ⟨c, ss, hc, hs, hf, hg⟩
  · exact .inl rfl
  · obtain ⟨⟨ss', cmds⟩, ha, hb⟩ := andThen_next hg
    cases hb; exact .inr ⟨c, ss, ss', cmds, hc, hs, hf, ha, rfl⟩

/-- An output command (rules R205 to R210) changes its channel's devices. -/
theorem toDevice_next {f : Channel → Channel} (h : toDevice ch f s = .next t) :
    ∃ c, s.channel? ch = some c ∧ t = s.setChannel ch (f c) := by
  unfold toDevice at h
  split at h
  · rename_i c hc; cases h; exact ⟨c, hc, rfl⟩
  · cases h

/-- An encoder operation (41_encoder.md rules R157 to R160): on registers alone, on a session's buffer, or into the capacity
fault of that session. -/
theorem encFinish_next {r : Except EncRun EncRun} {ret : EncRun → Ret} (h : encFinish r ret s = .next t) :
    (∃ x, r = .ok x ∧ s.session? s.enc.ch = none
      ∧ t = { s with enc := { s.enc with regs := x.regs }, ret := ret x })
    ∨ (∃ x c ss, r = .ok x ∧ s.channel? s.enc.ch = some c ∧ c.session = some ss
      ∧ t = commit s.enc.ch c (some { ss with buf := x.buf }) []
          { s with enc := { s.enc with regs := x.regs }, ret := ret x })
    ∨ ∃ x c ss, r = .error x ∧ s.channel? s.enc.ch = some c ∧ c.session = some ss
      ∧ t = commit s.enc.ch c (some (capacityFault s.enc.ch { ss with buf := x.buf }).1)
          (capacityFault s.enc.ch { ss with buf := x.buf }).2
          { s with enc := { s.enc with regs := EncRegs.zero }, ret := .capacity x.regs.k } := by
  cases r with
  | ok x =>
    simp only [encFinish, encDone] at h
    split at h
    · rename_i hc
      cases h; exact .inl ⟨x, rfl, by simp [State.session?, hc], rfl⟩
    · rename_i c hc
      split at h
      · rename_i hs
        cases h; exact .inl ⟨x, rfl, by rw [session?_of_channel hc, hs], rfl⟩
      · rename_i ss hs
        cases h; exact .inr (.inl ⟨x, c, ss, rfl, hc, hs, rfl⟩)
  | error x =>
    simp only [encFinish, encFull] at h
    split at h
    · cases h
    · rename_i c hc
      split at h
      · cases h
      · rename_i ss hs
        cases h; exact .inr (.inr ⟨x, c, ss, rfl, hc, hs, rfl⟩)

/-! ### Every operation at once -/

/-- Everything an operation can do to its channel: `c` before, `n` the session after, and the output commands it emits. The
output commands themselves, which act on the devices alone, are `deviceEffect`. -/
inductive SessionMove (rom : Rom) (capTable : List ((Nat × Nat) × BitVec 16)) (enc : EncUnit) (ch : ChanId)
    (c : Channel) : Instr → Option Session → List Instr → Prop where
  /-- CFG fills an empty slot. -/
  | create (w0 w1 w2 w3 : BitVec 32) (m : Mode) (ids : RomId × RomId) (n : Nat) (empty : c.session = none)
      (check : cfgCheck rom w0 w1 w2 = .ok (m, ids)) (chans : cfgChannels rom m ids.1 = some n) :
      SessionMove rom capTable enc ch c (.cfg ch w0 w1 w2 w3)
        (some (Session.created (cfgRegs m ids (capWords capTable (cfgLedCount w1).toNat n) w0 w1 w2 w3))) []
  /-- SUBMIT overruns the capacity. -/
  | overrun (ss : Session) (now : Ns64) (frame : List Byte) (f : Frame) (x : EncRun) (full : c.session = some ss)
      (alive : ss.eng.fatal = false) (parsed : parseFrame rom ss.cfg frame = .ok f) (leds : f.leds ss.cfg ≠ 0)
      (run : encodeFrame f.chip ss.cfg.cap (f.encoded ss.cfg) ss.buf = .error x) :
      SessionMove rom capTable enc ch c (.submit ch now frame)
        (some (capacityFault ch { (abort ch (countOverrun ss)).1 with buf := x.buf }).1)
        ((abort ch (countOverrun ss)).2 ++ (capacityFault ch { (abort ch (countOverrun ss)).1 with buf := x.buf }).2)
  /-- SUBMIT hands a frame over. -/
  | frame (ss : Session) (now : Ns64) (frame : List Byte) (f : Frame) (x : EncRun) (ss2 : Session)
      (cmds2 : List Instr) (full : c.session = some ss) (alive : ss.eng.fatal = false)
      (parsed : parseFrame rom ss.cfg frame = .ok f) (leds : f.leds ss.cfg ≠ 0)
      (run : encodeFrame f.chip ss.cfg.cap (f.encoded ss.cfg) ss.buf = .ok x)
      (accepted : accept ch f.chip now (latchFrame f x (abort ch (countOverrun ss)).1) = .next (ss2, cmds2)) :
      SessionMove rom capTable enc ch c (.submit ch now frame) (some ss2) ((abort ch (countOverrun ss)).2 ++ cmds2)
  /-- STATUS_READ moves the snapshot on. -/
  | read (ss : Session) (maxLen : BitVec 32) (full : c.session = some ss) (alive : ss.eng.fatal = false) :
      SessionMove rom capTable enc ch c (.statusRead ch maxLen)
        (some { ss with snap := advanceSnap (freshSnap ss) maxLen }) []
  /-- SHUTDOWN empties a full slot. -/
  | shutdown (ss : Session) (full : c.session = some ss) :
      SessionMove rom capTable enc ch c (.shutdown ch) none (shutdownCommands ch ss.eng)
  /-- COMPLETE moves a live session. -/
  | complete (ss ss' : Session) (now : Ns64) (cmds : List Instr) (full : c.session = some ss)
      (alive : ss.eng.fatal = false) (moved : completeSession rom ch now ss = .next (ss', cmds)) :
      SessionMove rom capTable enc ch c (.complete ch now) (some ss') cmds
  /-- WAKE moves a live session. -/
  | wake (ss ss' : Session) (now : Ns64) (cmds : List Instr) (full : c.session = some ss)
      (alive : ss.eng.fatal = false) (moved : wakeSession rom ch now ss = .next (ss', cmds)) :
      SessionMove rom capTable enc ch c (.wake ch now) (some ss') cmds
  /-- An encoder operation writes the buffer of the encoder's session. -/
  | encoded (i : Instr) (ss : Session) (x : EncRun) (op : i ∈ [Instr.encBit0, .encBit1, .encPad, .encode])
      (own : enc.ch = ch) (full : c.session = some ss) (grows : Grows ss.buf x.buf) :
      SessionMove rom capTable enc ch c i (some { ss with buf := x.buf }) []
  /-- An encoder operation overruns the capacity of the encoder's session. -/
  | encOverrun (i : Instr) (ss : Session) (x : EncRun) (op : i ∈ [Instr.encBit0, .encBit1, .encPad, .encode])
      (own : enc.ch = ch) (full : c.session = some ss) (grows : Grows ss.buf x.buf) :
      SessionMove rom capTable enc ch c i (some (capacityFault ch { ss with buf := x.buf }).1)
        (capacityFault ch { ss with buf := x.buf }).2

/-- Everything a step of the block can do to the registry and the output stream. -/
def ExecMove (i : Instr) (s t : State) : Prop :=
  (t.chans = s.chans ∧ t.outs = s.outs)
  ∨ (∃ ch c n cmds, target i s = some ch ∧ s.channel? ch = some c
      ∧ SessionMove s.rom s.capTable s.enc ch c i n cmds
      ∧ t.chans = s.chans.set ch.toNat (deviceEffects cmds { c with session := n }) ∧ t.outs = s.outs ++ cmds.map encode)
  ∨ (∃ ch c, portOf i = .output ∧ target i s = some ch ∧ s.channel? ch = some c
      ∧ t.chans = s.chans.set ch.toNat (deviceEffect i c) ∧ t.outs = s.outs)

theorem encFinish_move {i : Instr} {r : Except EncRun EncRun} {ret : EncRun → Ret}
    (hi : i ∈ [Instr.encBit0, .encBit1, .encPad, .encode]) (ht : target i s = some s.enc.ch)
    (hr : ∀ ss, s.session? s.enc.ch = some ss → After (fun x => Grows ss.buf x.buf) (fun x => Grows ss.buf x.buf) r)
    (h : encFinish r ret s = .next t) :
    (t.rom = s.rom ∧ t.capTable = s.capTable ∧ t.inbox = s.inbox) ∧ ExecMove i s t := by
  rcases encFinish_next h with ⟨x, -, -, rfl⟩ | ⟨x, c, ss, rfl, hc, hs, rfl⟩ | ⟨x, c, ss, rfl, hc, hs, rfl⟩
  · exact ⟨⟨rfl, rfl, rfl⟩, .inl ⟨rfl, rfl⟩⟩
  · have hw := hr ss (by rw [session?_of_channel hc, hs])
    exact ⟨⟨rfl, rfl, rfl⟩, .inr (.inl ⟨_, c, _, _, ht, hc, .encoded i ss x hi rfl hs hw, rfl, rfl⟩)⟩
  · have hw := hr ss (by rw [session?_of_channel hc, hs])
    exact ⟨⟨rfl, rfl, rfl⟩, .inr (.inl ⟨_, c, _, _, ht, hc, .encOverrun i ss x hi rfl hs hw, rfl, rfl⟩)⟩

theorem toDevice_move {i : Instr} (hp : portOf i = .output) (ht : target i s = some ch)
    (h : toDevice ch (deviceEffect i) s = .next t) :
    (t.rom = s.rom ∧ t.capTable = s.capTable ∧ t.inbox = s.inbox) ∧ ExecMove i s t := by
  obtain ⟨c, hc, rfl⟩ := toDevice_next h
  exact ⟨⟨rfl, rfl, rfl⟩, .inr (.inr ⟨ch, c, hp, ht, hc, rfl, rfl⟩)⟩

theorem answer_move {i : Instr} (code : Code) (rest : List Byte) :
    ((answer code rest s).rom = s.rom ∧ (answer code rest s).capTable = s.capTable
      ∧ (answer code rest s).inbox = s.inbox) ∧ ExecMove i s (answer code rest s) :=
  ⟨⟨rfl, rfl, rfl⟩, .inl ⟨rfl, rfl⟩⟩

/-- An operation leaves the ROM, the capacity parameter and the inbox alone, and moves at most its own channel. -/
theorem exec_move {i : Instr} (h : exec i s = .next t) :
    (t.rom = s.rom ∧ t.capTable = s.capTable ∧ t.inbox = s.inbox) ∧ ExecMove i s t := by
  have run : ∀ {ss : Session}, s.session? s.enc.ch = some ss → (encRun s).buf = ss.buf := by
    intro ss hs; simp [encRun, hs]
  have bit : ∀ {p : ChipProfile} {cap : BitVec 16} {b : Bool} (ss : Session), s.session? s.enc.ch = some ss →
      After (fun x => Grows ss.buf x.buf) (fun x => Grows ss.buf x.buf) (encodeBit p cap b (encRun s)) := by
    intro p cap b ss hs
    exact (slotsKeep_grows ss.buf).encodeBit b (by rw [run hs]; exact Grows.refl _)
  cases i with
  | cfg ch w0 w1 w2 w3 =>
    rcases execCfg_next h with ⟨code, -, rfl⟩ | ⟨c, m, ids, n, hc, hs, hk, hn, rfl⟩
    · exact answer_move code []
    · exact ⟨⟨rfl, rfl, rfl⟩, .inr (.inl ⟨ch, c, _, _, rfl, hc, .create w0 w1 w2 w3 m ids n hs hk hn, rfl, rfl⟩)⟩
  | submit ch now frame =>
    rcases execSubmit_next h with ⟨code, rest, rfl⟩ | ⟨c, ss, f, hc, hs, hf, hp, hn, hx⟩
    · exact answer_move code rest
    · rcases hx with ⟨x, hx, rfl⟩ | ⟨x, ss2, cmds2, hx, ha, rfl⟩
      · exact ⟨⟨rfl, rfl, rfl⟩,
          .inr (.inl ⟨ch, c, _, _, rfl, hc, .overrun ss now frame f x hs hf hp hn hx, rfl, rfl⟩)⟩
      · exact ⟨⟨rfl, rfl, rfl⟩,
          .inr (.inl ⟨ch, c, _, _, rfl, hc, .frame ss now frame f x ss2 cmds2 hs hf hp hn hx ha, rfl, rfl⟩)⟩
  | status ch => obtain ⟨code, rest, rfl⟩ := execStatus_next h; exact answer_move code rest
  | statusRead ch maxLen =>
    rcases execStatusRead_next h with ⟨code, -, rfl⟩ | ⟨c, ss, hc, hs, hf, -, rfl⟩
    · exact answer_move code []
    · exact ⟨⟨rfl, rfl, rfl⟩, .inr (.inl ⟨ch, c, _, _, rfl, hc, .read ss maxLen hs hf, rfl, rfl⟩)⟩
  | shutdown ch =>
    rcases execShutdown_next h with ⟨code, -, rfl⟩ | ⟨c, ss, hc, hs, rfl⟩
    · exact answer_move code []
    · exact ⟨⟨rfl, rfl, rfl⟩, .inr (.inl ⟨ch, c, _, _, rfl, hc, .shutdown ss hs, rfl, rfl⟩)⟩
  | complete ch now =>
    rcases execComplete_next h with rfl | ⟨c, ss, ss', cmds, hc, hs, hf, hg, rfl⟩
    · exact ⟨⟨rfl, rfl, rfl⟩, .inl ⟨rfl, rfl⟩⟩
    · exact ⟨⟨rfl, rfl, rfl⟩, .inr (.inl ⟨ch, c, _, _, rfl, hc, .complete ss ss' now cmds hs hf hg, rfl, rfl⟩)⟩
  | wake ch now =>
    rcases execWake_next h with rfl | ⟨c, ss, ss', cmds, hc, hs, hf, hg, rfl⟩
    · exact ⟨⟨rfl, rfl, rfl⟩, .inl ⟨rfl, rfl⟩⟩
    · exact ⟨⟨rfl, rfl, rfl⟩, .inr (.inl ⟨ch, c, _, _, rfl, hc, .wake ss ss' now cmds hs hf hg, rfl, rfl⟩)⟩
  | genConfigure ch a p inv => exact toDevice_move rfl rfl h
  | genLoad ch bits => exact toDevice_move rfl rfl h
  | genEnable ch => exact toDevice_move rfl rfl h
  | genDisable ch => exact toDevice_move rfl rfl h
  | tmrArm ch d => exact toDevice_move rfl rfl h
  | tmrCancel ch => exact toDevice_move rfl rfl h
  | romChip id => cases h; exact ⟨⟨rfl, rfl, rfl⟩, .inl ⟨rfl, rfl⟩⟩
  | romLayout id => cases h; exact ⟨⟨rfl, rfl, rfl⟩, .inl ⟨rfl, rfl⟩⟩
  | romPredef ix => cases h; exact ⟨⟨rfl, rfl, rfl⟩, .inl ⟨rfl, rfl⟩⟩
  | encBit0 => exact encFinish_move (by simp) rfl (bit (b := false)) h
  | encBit1 => exact encFinish_move (by simp) rfl (bit (b := true)) h
  | encPad =>
    refine encFinish_move (by simp) rfl (fun ss hs => ?_) h
    exact (slotsKeep_grows ss.buf).trailing 64 (by rw [run hs]; exact Grows.refl _)
  | encode =>
    refine encFinish_move (by simp) rfl (fun ss hs => ?_) h
    rw [run hs]; exact encodeFrame_grows _ _

end Sys2Proof.Machine
end

