-- ==== Sys2Proof/Laws/Rom.lean ====
section
/-! SUPPORT. The laws of the timing-profile ROM (40_profile_rom.md rules R131 to R139): what a lookup's answer says about the
tables, what rule R353 makes every entry, and what a parsed frame and its remap inherit from it. -/

namespace Sys2Proof.Machine

variable {α : Type} {t : List (RomId × α)} {id : RomId}

/-! ### Partial maps -/

theorem mem_of_entryOf {a : α} (h : entryOf t id = some a) : (id, a) ∈ t := by
  unfold entryOf at h
  obtain ⟨e, he, rfl⟩ := Option.map_eq_some_iff.1 h
  have hk : e.1 = id := by simpa using List.find?_some he
  rw [← hk]; exact List.mem_of_find?_eq_some he

theorem entryOf_of_hasKey (h : hasKey t id = true) : (entryOf t id).isSome = true := by
  simpa [entryOf, hasKey, List.any_eq_true] using h

theorem entryOf_of_mem (ht : RisingKeys t) {a : α} (h : (id, a) ∈ t) : entryOf t id = some a := by
  induction t with
  | nil => cases h
  | cons e r ih =>
    rw [RisingKeys, List.pairwise_cons] at ht
    rcases List.mem_cons.1 h with rfl | h'
    · simp [entryOf]
    · have lt : e.1 < id := ht.1 _ h'
      have hne : e.1 ≠ id := by rintro rfl; exact BitVec.lt_irrefl _ lt
      rw [entryOf, List.find?_cons_of_neg (by simpa using hne)]
      exact ih ht.2 h'

/-! ### The entries -/

variable {rom : Rom}

/-- A layout entry of rule R137. -/
theorem Rom.layout_wf {l : LayoutProfile} (h : rom.layout id = some l) :
    (l.channels = 3 ∨ l.channels = 4) ∧ l.map.length = l.channels ∧ ∀ o ∈ l.map, o < l.channels := by
  unfold Rom.layout at h
  split at h
  · cases h
  · have ok := rom.ok
    simp only [RomTables.wf, Bool.and_eq_true, List.all_eq_true] at ok
    simpa [LayoutProfile.wf, and_assoc] using ok.1.2 _ (mem_of_entryOf h)

/-- The two ids of a predefined entry are mapped (rule R138). -/
theorem Rom.predef_mapped {ix : RomId} {e : RomId × RomId} (h : rom.predef ix = some e) :
    (rom.layout e.1).isSome = true ∧ (rom.chip e.2).isSome = true := by
  have ok := rom.ok
  simp only [RomTables.wf, Bool.and_eq_true, List.all_eq_true, Bool.not_eq_true'] at ok
  have k := ok.2 _ (mem_of_entryOf h)
  constructor
  · rw [Rom.layout, if_neg]
    · exact entryOf_of_hasKey k.1
    · intro e0; rw [e0, ok.1.1.1.2] at k; cases k.1
  · rw [Rom.chip, if_neg]
    · exact entryOf_of_hasKey k.2
    · intro e0; rw [e0, ok.1.1.1.1.2] at k; cases k.2

/-- `CMAX` exists where there is a layout (rule R353, condition 5). -/
theorem Rom.cmax_of_layouts (h : rom.tables.layouts ≠ []) : ∃ n, rom.cmax = some n := by
  unfold Rom.cmax; split
  · contradiction
  · exact ⟨_, rfl⟩

/-! ### Frames -/

/-- A parsed frame holds the ROM's own entries. -/
theorem parseFrame_entries {cfg : CfgRegs} {frame : List Byte} {f : Frame} (h : parseFrame rom cfg frame = .ok f) :
    rom.layout f.layoutId = some f.layout ∧ rom.chip f.chipId = some f.chip := by
  unfold parseFrame at h
  split at h
  · cases h
  · split at h
    · rename_i l p hl hp; cases h; exact ⟨hl, hp⟩
    · cases h

/-- A frame is rejected with one of two codes (43_session.md rules R247 and R248). -/
theorem parseFrame_error {cfg : CfgRegs} {frame : List Byte} {e : Code} (h : parseFrame rom cfg frame = .error e) :
    e = .frameMalformed ∨ e = .frameId := by
  unfold parseFrame at h
  split at h
  · rename_i he
    cases h
    unfold frameHead at he
    split at he
    · unfold variableHead at he
      split at he
      · cases he; exact .inl rfl
      · cases he
    · cases he
    · cases he
  · split at h
    · cases h
    · cases h; exact .inr rfl

theorem length_remap (l : LayoutProfile) (n : Nat) (payload : List Byte) :
    (remap l n payload).length = n * l.map.length := by simp [remap, remapLed, List.length_flatMap]

end Sys2Proof.Machine
end

