-- ==== Sys2Proof/Laws/Launch.lean ====
section
/-! SUPPORT. What a launch checks, and that a launch state passes. -/

namespace Sys2Proof.Machine

/-- The check of a session's registers is rule R54. -/
theorem registersFit_iff (ss : Session) : registersFit ss = true ↔ EngineSound ss := by
  constructor
  · intro h
    refine ⟨fun q => ?_, fun q => ?_, fun q => ?_, fun q => ?_, ?_, ?_⟩ <;>
      simp only [registersFit, Bool.and_eq_true, decide_eq_true_eq] at h
    · simpa [q, and_assoc] using h.1.1
    · simp only [q, Bool.and_eq_true, Bool.not_eq_true', decide_eq_true_eq, and_assoc] at h
      obtain ⟨a, b, c, d, e, f, g, -⟩ := h
      exact ⟨a, b, c, d, e, f, g⟩
    · simp only [q, Bool.and_eq_true, Bool.not_eq_true', and_assoc] at h
      exact ⟨h.1, h.2.1, fun ⟨a, b⟩ => by simp [a, b] at h⟩
    · simpa [q, and_assoc] using h.1.1
    · exact h.1.2
    · exact h.2
  · intro h
    have hc := h.count
    have hr := h.retry
    unfold registersFit
    cases q : ss.eng.st with
    | idle => simp [q, h.idle q, hc, hr]
    | sending =>
      obtain ⟨a, b, c, d, e⟩ := h.sending q
      simp [q, a, b, c, d, e.low, e.high, e.sum, hc, hr]
    | await =>
      obtain ⟨a, b, c⟩ := h.await q
      have c' : ss.eng.pendNew = false ∨ ss.eng.pendRetry = false := by
        cases hn : ss.eng.pendNew
        · exact .inl rfl
        · exact .inr (by simpa [hn] using c)
      simpa [q, a, b, hc, hr] using c'
    | failed => simp [q, h.failed q, hc, hr]

/-- Every session of a block with at most 256 channels is one that a channel id finds. -/
theorem session?_of_mem {s : State} {c : Channel} {ss : Session} (hn : s.chans.length ≤ 256) (hc : c ∈ s.chans)
    (hs : c.session = some ss) : ∃ ch, s.session? ch = some ss := by
  obtain ⟨i, hi, rfl⟩ := List.getElem_of_mem hc
  refine ⟨BitVec.ofNat 8 i, ?_⟩
  have hv : (BitVec.ofNat 8 i).toNat = i := by rw [BitVec.toNat_ofNat]; omega
  simp [State.session?, State.channel?, hv, hi, hs]

/-- A session that a channel id finds is on a channel of the registry. -/
theorem mem_of_session? {s : State} {ch : ChanId} {ss : Session} (h : s.session? ch = some ss) :
    ∃ c ∈ s.chans, c.session = some ss := by
  obtain ⟨c, hc, hs⟩ := Option.bind_eq_some_iff.1 h
  exact ⟨c, List.mem_of_getElem? hc, hs⟩

/-- What a launch asks of the channels, as claims have it. -/
theorem channelsFit_iff (s : State) :
    channelsFit s.chans = true ↔ (1 ≤ s.chans.length ∧ s.chans.length ≤ 256)
      ∧ ∀ ch ss, s.session? ch = some ss → ss.eng.fatal = false → EngineSound ss := by
  simp only [channelsFit, Bool.and_eq_true, decide_eq_true_eq, List.all_eq_true]
  constructor
  · rintro ⟨hn, h⟩
    refine ⟨hn, fun ch ss hs hf => ?_⟩
    obtain ⟨c, hc, e⟩ := mem_of_session? hs
    have := h c hc
    rw [e] at this
    exact (registersFit_iff ss).1 (by simpa [hf] using this)
  · rintro ⟨hn, h⟩
    refine ⟨hn, fun c hc => ?_⟩
    cases e : c.session with
    | none => rfl
    | some ss =>
      obtain ⟨ch, hs⟩ := session?_of_mem hn.2 hc e
      cases hf : ss.eng.fatal with
      | true => simp [hf]
      | false => simpa [hf] using (registersFit_iff ss).2 (h ch ss hs hf)

/-- Whether a session uses VARIABLE mode, as claims have it. -/
theorem usesLayouts_iff {s : State} (hn : s.chans.length ≤ 256) :
    usesLayouts s.chans = true ↔ ∃ ch ss, s.session? ch = some ss ∧ ss.cfg.mode = .perFrame := by
  simp only [usesLayouts, List.any_eq_true]
  constructor
  · rintro ⟨c, hc, h⟩
    cases e : c.session with
    | none => rw [e] at h; cases h
    | some ss =>
      obtain ⟨ch, hs⟩ := session?_of_mem hn hc e
      exact ⟨ch, ss, hs, by simpa [e] using h⟩
  · rintro ⟨ch, ss, hs, hm⟩
    obtain ⟨c, hc, e⟩ := mem_of_session? hs
    exact ⟨c, hc, by simp [e, hm]⟩

/-- A launch state passes the checks of a launch with its own ROM, which leaves it as it is. -/
theorem LaunchState.launches {s : State} (h : LaunchState s) : launchFrom s.rom.tables s = .next s := by
  have fit := (channelsFit_iff s).2 ⟨h.channels, fun ch ss hs hf => (h.sound ch ss hs hf).engine⟩
  have use : (usesLayouts s.chans && s.rom.tables.layouts.isEmpty) = false := by
    cases u : usesLayouts s.chans with
    | false => rfl
    | true =>
      obtain ⟨ch, ss, hs, hm⟩ := (usesLayouts_iff h.channels.2).1 u
      simpa using (show s.rom.tables.layouts ≠ [] from h.layouts ch ss hs hm)
  unfold launchFrom
  rw [dif_pos s.rom.ok, use, if_neg (by simp), if_pos fit]

end Sys2Proof.Machine
end

