-- ==== Sys2Proof/Laws/PerInstr.lean ====
section
/-! SUPPORT. The family `EncodedForm`: what the encoding of every operation looks like, one lemma per constructor of
`Instr`. -/

namespace Sys2Proof.Laws.EncodedForm

/-- The encoding starts with the opcode of the operation's row of the opcode map (30_encoding.md rule R112), has the length
rule R91 gives that row, and travels on the row's port. -/
def Statement (i : Instr) : Prop :=
  ∃ r ∈ opRows, r.op = i.op ∧ (encode i).head? = some r.opc ∧ r.fits (encode i).length = true ∧ portOf i = r.port

theorem of_row {i : Instr} (r : OpRow) (hr : rowOf i.op.opc = some r) (ho : r.op = i.op) (hc : r.opc = i.op.opc)
    (hf : r.fits (encode i).length = true) : Statement i :=
  ⟨r, List.mem_of_find?_eq_some hr, ho, by rw [hc]; rfl, hf, by simp [portOf, hr]⟩

theorem cfg (ch : ChanId) (w0 w1 w2 w3 : BitVec 32) : Statement (.cfg ch w0 w1 w2 w3) := of_row _ rfl rfl rfl rfl

theorem submit (ch : ChanId) (now : Ns64) (frame : List Byte) : Statement (.submit ch now frame) :=
  of_row _ rfl rfl rfl (by simp [OpRow.fits, encode, encodeFields, bytes64, bytes32])

theorem status (ch : ChanId) : Statement (.status ch) := of_row _ rfl rfl rfl rfl

theorem statusRead (ch : ChanId) (maxLen : BitVec 32) : Statement (.statusRead ch maxLen) := of_row _ rfl rfl rfl rfl

theorem shutdown (ch : ChanId) : Statement (.shutdown ch) := of_row _ rfl rfl rfl rfl

theorem complete (ch : ChanId) (now : Ns64) : Statement (.complete ch now) := of_row _ rfl rfl rfl rfl

theorem wake (ch : ChanId) (now : Ns64) : Statement (.wake ch now) := of_row _ rfl rfl rfl rfl

theorem genConfigure (ch : ChanId) (activeNs passiveNs : Ns32) (inv : Bool) :
    Statement (.genConfigure ch activeNs passiveNs inv) := of_row _ rfl rfl rfl rfl

theorem genLoad (ch : ChanId) (bits : Slots) : Statement (.genLoad ch bits) := of_row _ rfl rfl rfl rfl

theorem genEnable (ch : ChanId) : Statement (.genEnable ch) := of_row _ rfl rfl rfl rfl

theorem genDisable (ch : ChanId) : Statement (.genDisable ch) := of_row _ rfl rfl rfl rfl

theorem tmrArm (ch : ChanId) (deadline : Ns64) : Statement (.tmrArm ch deadline) := of_row _ rfl rfl rfl rfl

theorem tmrCancel (ch : ChanId) : Statement (.tmrCancel ch) := of_row _ rfl rfl rfl rfl

theorem romChip (id : RomId) : Statement (.romChip id) := of_row _ rfl rfl rfl rfl

theorem romLayout (id : RomId) : Statement (.romLayout id) := of_row _ rfl rfl rfl rfl

theorem romPredef (ix : RomId) : Statement (.romPredef ix) := of_row _ rfl rfl rfl rfl

theorem encBit0 : Statement .encBit0 := of_row _ rfl rfl rfl rfl

theorem encBit1 : Statement .encBit1 := of_row _ rfl rfl rfl rfl

theorem encPad : Statement .encPad := of_row _ rfl rfl rfl rfl

theorem encode : Statement .encode := of_row _ rfl rfl rfl rfl

end Sys2Proof.Laws.EncodedForm
end

