-- ==== Sys2Proof/Laws/Step.lean ====
section
/-! SUPPORT. Everything one step of the machine can do, and the state after power-on. -/

namespace Sys2Proof.Machine

variable {s t : State}

/-- A device's own move takes the word of a generator or the request of a timer, and nothing else of a channel. -/
def DeviceMove (c c' : Channel) : Prop :=
  (c.gen.busy = true ∧ c' = { c with gen := c.gen.finish }) ∨ c' = { c with tmr := c.tmr.cancel }

theorem DeviceMove.session {c c' : Channel} (h : DeviceMove c c') : c'.session = c.session := by
  rcases h with ⟨-, rfl⟩ | rfl <;> rfl

/-- Everything a step can do to the registry and the output stream. -/
def StepMove (s t : State) : Prop :=
  (t.chans = s.chans ∧ t.outs = s.outs)
  ∨ (∃ x p m i rest, s.inbox = x :: rest ∧ x.message? = some (p, m) ∧ decodeOn p m = .ok i
      ∧ exec i { s with inbox := rest } = .next t)
  ∨ (∃ ch c c', s.channel? ch = some c ∧ DeviceMove c c' ∧ t.chans = s.chans.set ch.toNat c' ∧ t.outs = s.outs)

theorem genDone_move (ch : ChanId) (now : Ns64) (place : Nat) (s : State) :
    genDone ch now place s = s
    ∨ ∃ c, s.channel? ch = some c ∧ c.gen.busy = true
      ∧ genDone ch now place s
        = raiseEvent (.complete ch now) place (s.setChannel ch { c with gen := c.gen.finish }) := by
  unfold genDone
  split
  · exact .inl rfl
  · rename_i c hc
    split
    · rename_i hb; exact .inr ⟨c, hc, hb, rfl⟩
    · exact .inl rfl

theorem genLost_move (ch : ChanId) (s : State) :
    genLost ch s = s
    ∨ ∃ c, s.channel? ch = some c ∧ c.gen.busy = true
      ∧ genLost ch s = s.setChannel ch { c with gen := c.gen.finish } := by
  unfold genLost
  split
  · exact .inl rfl
  · rename_i c hc
    split
    · rename_i hb; exact .inr ⟨c, hc, hb, rfl⟩
    · exact .inl rfl

theorem tmrFire_move (ch : ChanId) (now : Ns64) (place : Nat) (s : State) :
    tmrFire ch now place s = s
    ∨ ∃ c, s.channel? ch = some c ∧ c.tmr.due now = true
      ∧ tmrFire ch now place s = raiseEvent (.wake ch now) place (s.setChannel ch { c with tmr := c.tmr.cancel }) := by
  unfold tmrFire
  split
  · exact .inl rfl
  · rename_i c hc
    split
    · rename_i hb; exact .inr ⟨c, hc, hb, rfl⟩
    · exact .inl rfl

/-- A message that is no operation of its port changes nothing but the answers. -/
theorem rejectMessage_next {p : Port} {e : DecodeError} (h : rejectMessage p e s = .next t) :
    t.rom = s.rom ∧ t.capTable = s.capTable ∧ t.chans = s.chans ∧ t.outs = s.outs := by
  cases p <;> cases h <;> exact ⟨rfl, rfl, rfl, rfl⟩

/-- A message on a port: an operation of it, or nothing but an answer. -/
theorem receive_move {p : Port} {m : List Byte} (h : receive p m s = .next t) :
    (∃ i, decodeOn p m = .ok i ∧ exec i s = .next t)
    ∨ (t.rom = s.rom ∧ t.capTable = s.capTable ∧ t.chans = s.chans ∧ t.outs = s.outs) := by
  cases hd : decodeOn p m with
  | ok i => rw [receive_ok _ hd] at h; exact .inl ⟨i, rfl, h⟩
  | error e => rw [receive_error _ hd] at h; exact .inr (rejectMessage_next h)

/-- An input that brings a message is that message on its port. -/
theorem handle_message {x : Input} {p : Port} {m : List Byte} (hx : x.message? = some (p, m)) (s : State) :
    handle x s = receive p m s := by
  cases x <;> cases hx <;> rfl

/-- A step leaves the ROM and the capacity parameter alone, and makes one move. -/
theorem step_move (h : step s = .next t) : (t.rom = s.rom ∧ t.capTable = s.capTable) ∧ StepMove s t := by
  rcases step_cases s with ⟨-, h'⟩ | ⟨x, rest, hx, h'⟩
  · rw [h'] at h; cases h; exact ⟨⟨rfl, rfl⟩, .inl ⟨rfl, rfl⟩⟩
  · rw [h'] at h
    have message : ∀ p m, x.message? = some (p, m) → (t.rom = s.rom ∧ t.capTable = s.capTable) ∧ StepMove s t := by
      intro p m hm
      rw [handle_message hm] at h
      rcases receive_move h with ⟨i, hd, he⟩ | ⟨h1, h2, h3, h4⟩
      · exact ⟨⟨(exec_move he).1.1, (exec_move he).1.2.1⟩, .inr (.inl ⟨x, p, m, i, rest, hx, hm, hd, he⟩)⟩
      · exact ⟨⟨h1, h2⟩, .inl ⟨h3, h4⟩⟩
    cases x with
    | message p m => exact message p m rfl
    | raised m => exact message .platform m rfl
    | stray m => exact message .platform m rfl
    | genDone ch now place =>
      cases h
      rcases genDone_move ch now place { s with inbox := rest } with he | ⟨c, hc, hb, he⟩ <;> rw [he]
      · exact ⟨⟨rfl, rfl⟩, .inl ⟨rfl, rfl⟩⟩
      · exact ⟨⟨rfl, rfl⟩, .inr (.inr ⟨ch, c, _, hc, .inl ⟨hb, rfl⟩, rfl, rfl⟩)⟩
    | genLost ch =>
      cases h
      rcases genLost_move ch { s with inbox := rest } with he | ⟨c, hc, hb, he⟩ <;> rw [he]
      · exact ⟨⟨rfl, rfl⟩, .inl ⟨rfl, rfl⟩⟩
      · exact ⟨⟨rfl, rfl⟩, .inr (.inr ⟨ch, c, _, hc, .inl ⟨hb, rfl⟩, rfl, rfl⟩)⟩
    | tmrFire ch now place =>
      cases h
      rcases tmrFire_move ch now place { s with inbox := rest } with he | ⟨c, hc, hb, he⟩ <;> rw [he]
      · exact ⟨⟨rfl, rfl⟩, .inl ⟨rfl, rfl⟩⟩
      · exact ⟨⟨rfl, rfl⟩, .inr (.inr ⟨ch, c, _, hc, .inr rfl, rfl, rfl⟩)⟩

/-! ### Power-on -/

@[simp] theorem length_powerOnChannels (first n : Nat) : (powerOnChannels first n).length = n := by
  induction n generalizing first with
  | zero => rfl
  | succ n ih => simp [powerOnChannels, ih]

/-- A channel at power-on has its empty slot and its devices at power-on. -/
theorem mem_powerOnChannels {first n : Nat} {c : Channel} (h : c ∈ powerOnChannels first n) :
    ∃ level, c = Channel.powerOn level := by
  induction n generalizing first with
  | zero => cases h
  | succ n ih =>
    rcases List.mem_cons.1 h with rfl | h
    · exact ⟨_, rfl⟩
    · exact ih h

theorem reset_channel? {ch : ChanId} {c : Channel} (h : State.reset.channel? ch = some c) :
    ∃ level, c = Channel.powerOn level := mem_powerOnChannels (List.mem_of_getElem? h)

/-- Every slot is empty at power-on. -/
theorem reset_session? (ch : ChanId) : State.reset.session? ch = none := by
  unfold State.session?
  cases h : State.reset.channel? ch with
  | none => rfl
  | some c => obtain ⟨level, rfl⟩ := reset_channel? h; rfl

/-- The memory at power-on has its canonical form: there is no buffer. -/
theorem reset_memory_wf (ch : ChanId) (ss : Session) (h : State.reset.session? ch = some ss) : Memory.wf ss.buf := by
  rw [reset_session?] at h; cases h

end Sys2Proof.Machine
end

