-- ==== Sys2Proof/Laws/Sessions.lean ====
section
/-! SUPPORT. What the engine's procedures leave alone in a session, and how one step changes one session: later proofs about
a session cite these and take no step apart. -/

namespace Sys2Proof.Machine

variable {rom : Rom} {ch : ChanId} {p : ChipProfile} {now : Ns64} {ss ss' : Session} {cmds : List Instr}

/-! ### Frames of the engine's procedures -/

theorem startAttempt_keeps (h : startAttempt ch p now ss = .next (ss', cmds)) :
    ss'.cfg = ss.cfg ∧ ss'.buf = ss.buf ∧ ss'.stats = ss.stats ∧ ss'.latch = ss.latch ∧ ss'.snap = ss.snap
      ∧ ss'.eng.fatal = ss.eng.fatal := by
  obtain ⟨w, -, -, rfl, -⟩ := startAttempt_next h
  exact ⟨rfl, rfl, rfl, rfl, rfl, rfl⟩

theorem accept_keeps (h : accept ch p now ss = .next (ss', cmds)) :
    ss'.cfg = ss.cfg ∧ ss'.buf = ss.buf ∧ ss'.stats = ss.stats ∧ ss'.latch = ss.latch ∧ ss'.snap = ss.snap
      ∧ ss'.eng.fatal = ss.eng.fatal := by
  rcases accept_next h with ⟨-, rfl, -⟩ | ⟨-, h⟩
  · exact ⟨rfl, rfl, rfl, rfl, rfl, rfl⟩
  · have k := startAttempt_keeps h; exact k

/-- COMPLETE writes statistics, engine registers and nothing else; `S_OVERRUNS` and FATAL are not among them. -/
theorem completeSession_keeps (h : completeSession rom ch now ss = .next (ss', cmds)) :
    ss'.cfg = ss.cfg ∧ ss'.buf = ss.buf ∧ ss'.latch = ss.latch ∧ ss'.snap = ss.snap ∧ ss'.eng.fatal = ss.eng.fatal
      ∧ ss'.stats.overruns = ss.stats.overruns := by
  rcases completeSession_next h with ⟨-, rfl, -⟩ | ⟨-, -, -, h⟩ | ⟨-, -, -, p, -, h⟩ | ⟨-, -, p, -, h⟩
  · exact ⟨rfl, rfl, rfl, rfl, rfl, rfl⟩
  · obtain ⟨w, -, -, rfl, -⟩ := loadNext_next h
    exact ⟨rfl, rfl, rfl, rfl, rfl, rfl⟩
  · cases h; exact ⟨rfl, rfl, rfl, rfl, rfl, rfl⟩
  · rcases violation_cases ch p now (delayOf now ss.eng.expectT) { ss with stats := ss.stats.signalled }
      with ⟨-, e⟩ | ⟨-, e⟩ <;>
    · rw [e] at h; cases h; exact ⟨rfl, rfl, rfl, rfl, rfl, rfl⟩

/-- WAKE writes engine registers and nothing else; FATAL is not among them. -/
theorem wakeSession_keeps (h : wakeSession rom ch now ss = .next (ss', cmds)) :
    ss'.cfg = ss.cfg ∧ ss'.buf = ss.buf ∧ ss'.stats = ss.stats ∧ ss'.latch = ss.latch ∧ ss'.snap = ss.snap
      ∧ ss'.eng.fatal = ss.eng.fatal := by
  rcases wakeSession_next h with ⟨-, rfl, -⟩ | ⟨-, -, p, -, h⟩ | ⟨-, -, -, p, -, h⟩ | ⟨-, -, -, rfl, -⟩
  · exact ⟨rfl, rfl, rfl, rfl, rfl, rfl⟩
  · have k := startAttempt_keeps h; exact k
  · have k := startAttempt_keeps h; exact k
  · exact ⟨rfl, rfl, rfl, rfl, rfl, rfl⟩

/-! ### One session across a step -/

variable {s t : State} {i : Instr}

/-- An operation leaves a session as it is, or it is addressed to the session's channel and makes a `SessionMove` there. -/
theorem ExecMove.session (h : ExecMove i s t) (ch : ChanId) :
    t.session? ch = s.session? ch
    ∨ ∃ c n cmds, target i s = some ch ∧ s.channel? ch = some c
      ∧ SessionMove s.rom s.capTable s.enc ch c i n cmds ∧ t.session? ch = n := by
  rcases h with ⟨h1, -⟩ | ⟨ch', c, n, cmds, ht, hc, hm, h1, -⟩ | ⟨ch', c, -, -, hc, h1, -⟩
  · exact .inl (session?_congr h1 ch)
  · by_cases e : ch = ch'
    · subst e
      exact .inr ⟨c, n, cmds, ht, hc, hm, by rw [session?_of_channel (channel?_set_same hc h1), deviceEffects_session]⟩
    · exact .inl (session?_set_other e h1)
  · by_cases e : ch = ch'
    · subst e
      exact .inl (by rw [session?_of_channel (channel?_set_same hc h1), deviceEffect_session, session?_of_channel hc])
    · exact .inl (session?_set_other e h1)

/-- A step leaves a session as it is, or it runs an operation that makes a `SessionMove` there. -/
theorem step_session (h : step s = .next t) (ch : ChanId) :
    t.session? ch = s.session? ch
    ∨ ∃ x p m i rest c n cmds, s.inbox = x :: rest ∧ x.message? = some (p, m) ∧ decodeOn p m = .ok i
      ∧ target i { s with inbox := rest } = some ch ∧ s.channel? ch = some c
      ∧ SessionMove s.rom s.capTable s.enc ch c i n cmds ∧ t.session? ch = n := by
  rcases (step_move h).2 with ⟨h1, -⟩ | ⟨x, p, m, i, rest, hi, hx, hd, he⟩ | ⟨ch', c, c', hc, hd, h1, -⟩
  · exact .inl (session?_congr h1 ch)
  · rcases (exec_move he).2.session ch with h | ⟨c, n, cmds, a, b, d, e⟩
    · exact .inl h
    · exact .inr ⟨x, p, m, i, rest, c, n, cmds, hi, hx, hd, a, b, d, e⟩
  · by_cases e : ch = ch'
    · subst e
      exact .inl (by rw [session?_of_channel (channel?_set_same hc h1), hd.session, session?_of_channel hc])
    · exact .inl (session?_set_other e h1)

/-! ### Ports -/

/-- What decodes on a port decodes anywhere. -/
theorem decode_of_decodeOn {p : Port} {m : List Byte} (h : decodeOn p m = .ok i) : decode m = .ok i := by
  cases m with
  | nil => cases h
  | cons a l =>
    simp only [decodeOn] at h
    simp only [decode]
    cases hr : rowOf a with
    | none => rw [hr] at h; cases h
    | some r =>
      rw [hr] at h
      simp only at h ⊢
      split at h
      · exact h
      · cases h

/-- What decodes on a port is an operation of that port. -/
theorem portOf_of_decodeOn {p : Port} {m : List Byte} (h : decodeOn p m = .ok i) : portOf i = p := by
  cases m with
  | nil => cases h
  | cons a l =>
    simp only [decodeOn] at h
    cases hr : rowOf a with
    | none => rw [hr] at h; cases h
    | some r =>
      rw [hr] at h
      simp only at h
      split at h
      · rename_i hp
        have hmem : r ∈ opRows := List.mem_of_find?_eq_some hr
        rw [← hp]
        unfold decodeRow at h
        split at h
        · simp only [opRows, inputRows, outputRows, internalRows, List.mem_append, List.mem_cons, List.not_mem_nil,
            or_false] at hmem
          rcases hmem with ((rfl | rfl | rfl | rfl | rfl | rfl | rfl) | (rfl | rfl | rfl | rfl | rfl | rfl))
            | (rfl | rfl | rfl | rfl | rfl | rfl | rfl)
          all_goals simp only [decodeFields] at h
          all_goals (repeat' split at h)
          all_goals (first | rfl | (cases h; rfl) | cases h)
        · cases h
      · cases h

/-- A message placed as the next input reaches the step as that operation. -/
theorem step_placeMessage {m : List Byte} (h : decodeOn (portOfOpcode (m.getD 0 0)) m = .ok i) (s : State) :
    step (placeMessage m s) = exec i s := receive_ok s h

end Sys2Proof.Machine
end

