-- ==== Sys2Proof/Tests/Slice0.lean ====
section
/-! SUPPORT. Tests. The fixture is the one of 95_test_vectors.md section 1, and every expected value comes from a vector or a
program of that file, or by hand from the rule named beside it. The witnesses at the end show that the hypotheses of each
statement can be met together. -/

namespace Sys2Proof.Tests

open Sys2Proof Sys2Proof.Machine

-- One theorem after another: checked all at once, the kernel evaluations below take more threads than the build allows.
set_option Elab.async false

/-! ### The fixture -/

def chip1 : ChipProfile := ⟨350, 900, false, 6000, 80000⟩
def chip2 : ChipProfile := ⟨300, 600, true, 6000, 80000⟩
def chip3 : ChipProfile := ⟨400, 850, false, 10000, 300000⟩

def testRom : Rom :=
  ⟨⟨[(1, chip1), (2, chip2), (3, chip3)], [(1, ⟨3, [0, 1, 2]⟩), (2, ⟨3, [1, 0, 2]⟩), (3, ⟨4, [1, 0, 2, 3]⟩)],
    [(1, (2, 1)), (2, (3, 2))]⟩, by decide⟩

/-- `led=3 sel=pair(1,1)`, as program P1 has it. -/
def testCfg : CfgRegs := ⟨false, 3, .pair, 1, 1, 3, 0, 4⟩

/-- The three words of V-ENC-10. -/
def testBuf : Buffer :=
  [(0, ⟨0xdb6db6aaaaaaaaaa, 37800⟩), (1, ⟨0xaadb6db6aaaaaaaa, 37800⟩), (2, ⟨0xaaaadb6db6000000, 44400⟩)]

/-- The engine in program P1: before the frame, after step 2, after step 5, and as step 5 would leave it after a frame that
was given up. -/
def engineIn (st : EngineState) : EngineRegs :=
  match st with
  | .idle => EngineRegs.created
  | .sending =>
    { EngineRegs.created with
      st := .sending, notReady := true, wcount := 3, next := 1, remain := 2, expectT := 38800, frameT0 := 1000 }
  | .await =>
    { EngineRegs.created with
      st := .await, notReady := true, wcount := 3, next := 3, expectT := 121400, frameT0 := 1000, tmrArmed := true,
      tmrDeadline := 201500 }
  | .failed =>
    { EngineRegs.created with
      st := .failed, notReady := true, wcount := 3, next := 3, retry := 4, expectT := 121400, frameT0 := 1000,
      tmrArmed := true, tmrDeadline := 201500 }

def sessionWith (e : EngineRegs) : Session := ⟨testCfg, e, ⟨1, 1, 6000, 3⟩, testBuf, Stats.created, ⟨⟨[], by decide⟩, 0, false⟩⟩

def sessionIn (st : EngineState) : Session := sessionWith (engineIn st)

/-- A channel whose generator sends word 0 of the frame. -/
def channelWith (n : Option Session) : Channel := ⟨n, ⟨350, 900, false, true, some 0xdb6db6aaaaaaaaaa⟩, ⟨some 201500⟩⟩

/-- A channel that nothing has been sent to. -/
def restChannel : Channel := Channel.powerOn false

/-- Four channels; channel 0 holds the session, if any. -/
def stateWith (n : Option Session) : State :=
  ⟨testRom, [], [channelWith n, restChannel, restChannel, restChannel], EncUnit.powerOn, .nothing, [], [], []⟩

def stateIn (st : EngineState) : State := stateWith (some (sessionIn st))

/-- A session that has taken the capacity fault. -/
def fatalSession : Session := sessionWith { EngineRegs.created with fatal := true, notReady := true }

/-- The state with one input. -/
def sent (x : Input) (s : State) : State := { s with inbox := [x] }

/-- What a step that goes on leaves. -/
def after (o : Host.Outcome State Fault Refusal) : Option State :=
  match o with
  | .next s => some s
  | .fault _ => none
  | .refused _ => none

/-- Session 0 after a step that goes on. -/
def session0 (o : Host.Outcome State Fault Refusal) : Option Session := (after o).bind (·.session? 0)

/-- The answers and the output commands of a step that goes on. -/
def heard (o : Host.Outcome State Fault Refusal) : Option (List (List Byte) × List (List Byte)) :=
  (after o).map (fun s => (s.answers, s.outs))

/-! ### WellFormed: one ill-formed operation a check, and what stays legal -/

theorem test_wf_reserved_w0 : (Instr.cfg 0 0x0101009a 3 0 0).wellFormed = false := by decide
theorem test_wf_reserved_w1 : (Instr.cfg 0 0x0101001a 0x1003 0 0).wellFormed = false := by decide
theorem test_wf_reserved_w2 : (Instr.cfg 0 0x0101001a 3 0x100 0).wellFormed = false := by decide
theorem test_wf_reserved_mode : (Instr.cfg 0 0x0000001e 3 0 0).wellFormed = false := by decide
theorem test_wf_zero_maxlen : (Instr.statusRead 0 0).wellFormed = false := by decide
theorem test_wf_mode_without_selector : (Instr.cfg 0 0x0000000e 3 0 0).wellFormed = true := by decide

/-! ### Decoding: a word written out from the spec's encoding, for every constructor -/

theorem test_decode_cfg :
    decode [0x01, 0x01, 0x03, 0x03, 0x00, 0x7a, 0, 0, 0x08, 0x00, 0, 0, 0, 0, 0, 0, 0x4e, 0x20]
      = .ok (.cfg 1 0x0303007a 2048 0 20000) := by rfl
theorem test_decode_submit :
    decode [0x02, 0, 0, 0, 0, 0, 0, 0, 0x03, 0xe8, 0xff, 0, 0] = .ok (.submit 0 1000 [0xff, 0, 0]) := by rfl
theorem test_decode_status : decode [0x03, 0x01] = .ok (.status 1) := by rfl
theorem test_decode_status_read : decode [0x04, 0, 0, 0, 0, 0x40] = .ok (.statusRead 0 64) := by rfl
theorem test_decode_shutdown : decode [0x05, 0] = .ok (.shutdown 0) := by rfl
theorem test_decode_complete : decode [0x10, 0, 0, 0, 0, 0, 0, 0x01, 0x2c, 0xc8] = .ok (.complete 0 77000) := by rfl
theorem test_decode_wake : decode [0x11, 1, 0, 0, 0, 0, 0, 0x01, 0xd5, 0x24] = .ok (.wake 1 120100) := by rfl
theorem test_decode_gen_configure :
    decode [0x80, 0, 0, 0, 0x01, 0x5e, 0, 0, 0x03, 0x84, 0x01] = .ok (.genConfigure 0 350 900 true) := by rfl
theorem test_decode_gen_load :
    decode [0x81, 0, 0xdb, 0x6d, 0xb6, 0xaa, 0xaa, 0xaa, 0xaa, 0xaa] = .ok (.genLoad 0 0xdb6db6aaaaaaaaaa) := by rfl
theorem test_decode_gen_enable : decode [0x82, 1] = .ok (.genEnable 1) := by rfl
theorem test_decode_gen_disable : decode [0x83, 0] = .ok (.genDisable 0) := by rfl
theorem test_decode_tmr_arm : decode [0x90, 0, 0, 0, 0, 0, 0, 0x03, 0x13, 0x1c] = .ok (.tmrArm 0 201500) := by rfl
theorem test_decode_tmr_cancel : decode [0x91, 0] = .ok (.tmrCancel 0) := by rfl
theorem test_decode_rom_chip : decode [0xA0, 9] = .ok (.romChip 9) := by rfl
theorem test_decode_rom_layout : decode [0xA1, 2] = .ok (.romLayout 2) := by rfl
theorem test_decode_rom_predef : decode [0xA2, 0] = .ok (.romPredef 0) := by rfl
theorem test_decode_enc_bit0 : decode [0xB0] = .ok .encBit0 := by rfl
theorem test_decode_enc_bit1 : decode [0xB1] = .ok .encBit1 := by rfl
theorem test_decode_enc_pad : decode [0xB2] = .ok .encPad := by rfl
theorem test_decode_encode : decode [0xB3] = .ok .encode := by rfl

/-- Between the opcodes there is nothing (rule R114). -/
theorem test_decode_reserved :
    [0x00, 0x06, 0x0f, 0x12, 0x7f, 0x84, 0x8f, 0x92, 0xA3, 0xB4, 0xff].all (fun o => (rowOf o).isNone) = true := by decide

/-- A GEN_CONFIGURE whose last byte is neither 0 nor 1 is no message (rule R96). -/
theorem test_decode_bad_polarity : decode [0x80, 0, 0, 0, 1, 0x5e, 0, 0, 3, 0x84, 2] = .error .badField := by rfl

/-- The opcode table's numbering: the opcode is byte 0, the channel byte 1. -/
theorem test_table_word : decodeTableWord 16 0x0103 = some (.status 1) := by decide

/-! ### CFG (V-CFG-16, V-CFG-10) -/

theorem test_cfg_creates :
    (after (exec (.cfg 1 0x0303007a 2048 0 20000) (stateWith none))).bind (·.session? 1)
      = some (Session.created ⟨false, 2048, .pair, 3, 3, 0, 20000, 3121⟩) := by decide +kernel
theorem test_cfg_count_before_ids :
    heard (exec (.cfg 0 0x0109001a 0 0 0) (stateWith none)) = some ([[0x01]], []) := by decide +kernel

/-! ### SUBMIT (program P1 step 2; V-SUB-3's CAP with a longer frame, as program P7 step 3) -/

theorem test_submit_starts :
    heard (exec (.submit 0 1000 [0xff, 0, 0, 0, 0xff, 0, 0, 0, 0xff]) (stateIn .idle))
      = some ([[0, 0, 0, 0, 3]],
          [[0x80, 0, 0, 0, 0x01, 0x5e, 0, 0, 0x03, 0x84, 0], [0x81, 0, 0xdb, 0x6d, 0xb6, 0xaa, 0xaa, 0xaa, 0xaa, 0xaa],
            [0x82, 0]]) := by decide +kernel

/-- A session of P7's size: the third word of `ff ff ff ff ff ff` does not fit. -/
def smallSession : Session :=
  { sessionIn .sending with cfg := { testCfg with ledMax := 8, cap := 2 }, buf := [] }

theorem test_submit_capacity_fault :
    heard (exec (.submit 0 1000 (List.replicate 6 0xff)) (stateWith (some smallSession))) = some ([[0x30]], [[0x83, 0]])
      ∧ (session0 (exec (.submit 0 1000 (List.replicate 6 0xff)) (stateWith (some smallSession)))).map
          (fun ss => (ss.eng.fatal, ss.eng.st, ss.eng.wcount, ss.stats.overruns, Memory.read ss.buf 1))
        = some (true, .sending, 3, 1, some ⟨0xdb6db6db6db6db6c, 34500⟩) := by decide +kernel

/-! ### STATUS (program P1 step 8) and STATUS_READ (rule R261) -/

theorem test_status_record :
    heard (exec (.status 0)
      (stateWith (some { sessionIn .idle with
        stats := ⟨1, 0, 0, 0, 3, 0, none, some 100, some 200, some 120500, some 120500, some 120500⟩ })))
      = some ([[0x00, 0x01, 0, 0, 0x3e] ++ List.replicate 15 0 ++ [0x64] ++ List.replicate 7 0 ++ [0xc8]
          ++ [0, 0, 0, 0, 0, 0x01, 0xd6, 0xb4] ++ [0, 0, 0, 0, 0, 0x01, 0xd6, 0xb4] ++ [0, 0, 0, 0, 0, 0x01, 0xd6, 0xb4]
          ++ [0, 0, 0, 1] ++ List.replicate 12 0 ++ [0, 0, 0, 3]], []) := by decide +kernel

theorem test_status_read_chunk :
    heard (exec (.statusRead 0 2) (stateWith (some { sessionIn .idle with snap := ⟨⟨[10, 11, 12, 13, 14], by decide⟩, 1, true⟩ })))
      = some ([[0x00, 11, 12]], []) := by decide +kernel
theorem test_status_read_end :
    (session0 (exec (.statusRead 0 64) (stateWith (some { sessionIn .idle with snap := ⟨⟨[10, 11], by decide⟩, 2, true⟩ })))).map
      (fun ss => ss.snap.valid) = some false := by decide +kernel

/-! ### SHUTDOWN (program P6 step 10) -/

theorem test_shutdown_cancels :
    heard (exec (.shutdown 0) (stateIn .await)) = some ([[0x00]], [[0x91, 0]])
      ∧ session0 (exec (.shutdown 0) (stateIn .await)) = none := by decide +kernel

/-! ### COMPLETE (program P1 step 3; V-ENG-3) -/

theorem test_complete_loads :
    heard (exec (.complete 0 39000) (stateIn .sending))
      = some ([], [[0x81, 0, 0xaa, 0xdb, 0x6d, 0xb6, 0xaa, 0xaa, 0xaa, 0xaa]])
      ∧ (session0 (exec (.complete 0 39000) (stateIn .sending))).map
          (fun ss => (ss.eng.next, ss.eng.remain, ss.eng.expectT, ss.stats.irqs, ss.stats.minDelay, ss.stats.maxDelay))
        = some (2, 1, 76800, 1, some 200, some 200) := by decide +kernel

/-- V-ENG-3's start. -/
def lateSession : Session :=
  { sessionWith { engineIn .sending with expectT := 387250, retry := 2, wcount := 1, remain := 0 } with
    latch := ⟨1, 1, 6000, 2⟩ }

theorem test_complete_exhausts :
    heard (exec (.complete 0 393251) (stateWith (some lateSession)))
      = some ([], [[0x90, 0, 0, 0, 0, 0, 0, 0x07, 0x38, 0xa3]])
      ∧ (session0 (exec (.complete 0 393251) (stateWith (some lateSession)))).map
          (fun ss => (ss.eng.st, ss.stats.retries, ss.stats.errors, ss.stats.lastRetries, ss.stats.lastViol))
        = some (.failed, 1, 1, 3, some 6001) := by decide +kernel

/-! ### WAKE (V-ENG-12's retry, here with P1's frame; program P1 step 6) -/

theorem test_wake_retries :
    (session0 (exec (.wake 0 201600) (stateWith (some (sessionWith { engineIn .await with pendRetry := true, retry := 1 }))))).map
      (fun ss => (ss.eng.st, ss.eng.next, ss.eng.remain, ss.eng.expectT, ss.eng.frameT0, ss.eng.pendRetry))
      = some (.sending, 1, 2, 239400, 1000, false) := by decide +kernel
theorem test_wake_early : after (exec (.wake 0 201499) (stateIn .await)) = some (stateIn .await) := by decide +kernel

/-! ### The output commands (42_engine.md rules R205 to R210) -/

/-- Channel 0's devices after a step that goes on. -/
def devices0 (o : Host.Outcome State Fault Refusal) : Option (Gen × Timer) :=
  ((after o).bind (·.channel? 0)).map (fun c => (c.gen, c.tmr))

theorem test_gen_configure :
    devices0 (exec (.genConfigure 0 400 850 true) (stateWith none))
      = some (⟨400, 850, true, true, some 0xdb6db6aaaaaaaaaa⟩, ⟨some 201500⟩) := by decide +kernel
theorem test_gen_load :
    devices0 (exec (.genLoad 0 7) (stateWith none)) = some (⟨350, 900, false, true, some 7⟩, ⟨some 201500⟩) := by
  decide +kernel
theorem test_gen_enable :
    ((after (exec (.genEnable 3) (stateWith none))).bind (·.channel? 3)).map (fun c => c.gen.en) = some true := by
  decide +kernel
theorem test_gen_disable :
    devices0 (exec (.genDisable 0) (stateWith none)) = some (⟨350, 900, false, false, none⟩, ⟨some 201500⟩) := by
  decide +kernel
theorem test_tmr_arm :
    devices0 (exec (.tmrArm 0 5) (stateWith none))
      = some (⟨350, 900, false, true, some 0xdb6db6aaaaaaaaaa⟩, ⟨some 5⟩) := by decide +kernel
theorem test_tmr_cancel :
    devices0 (exec (.tmrCancel 0) (stateWith none))
      = some (⟨350, 900, false, true, some 0xdb6db6aaaaaaaaaa⟩, ⟨none⟩) := by decide +kernel

/-! ### The lookups (V-ROM-1, -2, -4, -6, -7, -8) -/

theorem test_rom_chip : (after (exec (.romChip 1) (stateWith none))).map (·.ret) = some (.chip (some chip1)) := by
  decide +kernel
theorem test_rom_chip_zero : (after (exec (.romChip 0) (stateWith none))).map (·.ret) = some (.chip none) := by
  decide +kernel
theorem test_rom_layout :
    (after (exec (.romLayout 2) (stateWith none))).map (·.ret) = some (.layout (some ⟨3, [1, 0, 2]⟩)) := by decide +kernel
theorem test_rom_layout_unmapped : (after (exec (.romLayout 4) (stateWith none))).map (·.ret) = some (.layout none) := by
  decide +kernel
theorem test_rom_predef : (after (exec (.romPredef 1) (stateWith none))).map (·.ret) = some (.predef (some (2, 1))) := by
  decide +kernel
theorem test_rom_predef_zero : (after (exec (.romPredef 0) (stateWith none))).map (·.ret) = some (.predef none) := by
  decide +kernel

/-! ### The encoder's operations (V-OP-1, -7, -8, -11, -13 to -15; V-ENC-10, -22) -/

/-- The encoder at slot position `q` with an empty accumulator and chip `p`. -/
def encoderAt (p : ChipProfile) (q : BitVec 6) (e : List Byte) : State :=
  { stateIn .idle with enc := ⟨⟨q, 0, 0, 0⟩, 0, p, e⟩ }

/-- The encoder at slot position 63 with as many words closed as the buffer of an awaiting session holds, and with the operand
of a frame that overruns it. -/
def encoderFull : State := { stateIn .await with enc := ⟨⟨63, 0, 0, 4⟩, 0, chip1, List.replicate 20 0xff⟩ }

/-- The encoder's registers after a step that goes on, and word 0 of the buffer. -/
def encoded (o : Host.Outcome State Fault Refusal) : Option (EncRegs × Option (Option WaveWord)) :=
  (after o).map (fun s => (s.enc.regs, (s.session? 0).map (fun ss => Memory.read ss.buf 0)))

theorem test_enc_bit0 :
    encoded (exec .encBit0 (encoderAt chip1 0 []))
      = some (⟨2, 0x8000000000000000, 1, 0⟩, some (some ⟨0xdb6db6aaaaaaaaaa, 37800⟩)) := by decide +kernel
theorem test_enc_bit0_at_63 :
    encoded (exec .encBit0 (encoderAt chip2 63 [])) = some (⟨0, 0, 0, 1⟩, some (some ⟨1, 38100⟩)) := by decide +kernel
theorem test_enc_bit1 :
    encoded (exec .encBit1 (encoderAt chip1 0 []))
      = some (⟨3, 0xc000000000000000, 2, 0⟩, some (some ⟨0xdb6db6aaaaaaaaaa, 37800⟩)) := by decide +kernel
/-- With room for the word, and with the buffer full (V-OP-15): the fault of rule R305 comes before the word is written. -/
theorem test_enc_bit1_at_63 :
    encoded (exec .encBit1 (encoderAt chip1 63 []))
        = some (⟨3, 0xc000000000000000, 2, 1⟩, some (some ⟨0, 57600⟩))
      ∧ (after (exec .encBit1 encoderFull)).map (fun s => (s.ret, s.outs)) = some (.capacity 4, [[0x91, 0]])
      ∧ ((after (exec .encBit1 encoderFull)).bind (·.session? 0)).map (fun ss => (ss.eng.fatal, ss.buf))
        = some (true, testBuf) := ⟨by decide +kernel, by decide +kernel, by decide +kernel⟩
theorem test_enc_pad :
    encoded (exec .encPad (encoderAt chip1 16 [])) = some (⟨0, 0, 0, 1⟩, some (some ⟨0, 57600⟩)) := by decide +kernel
theorem test_enc_pad_fresh :
    encoded (exec .encPad (encoderAt chip1 0 []))
      = some (⟨0, 0, 0, 0⟩, some (some ⟨0xdb6db6aaaaaaaaaa, 37800⟩)) := by decide +kernel
theorem test_encode :
    (after (exec .encode (encoderAt chip1 5 [0xff, 0, 0, 0, 0xff, 0, 0, 0, 0xff]))).map
      (fun s => (s.ret, (s.session? 0).map (·.buf))) = some (.words 3, some testBuf) := by decide +kernel
theorem test_encode_double_passive :
    (after (exec .encode (encoderAt chip2 0 [0, 0, 0]))).map
      (fun s => (s.ret, (s.session? 0).map (fun ss => (Memory.read ss.buf 0, Memory.read ss.buf 1))))
      = some (.words 2, some (some ⟨0x9249249249249249, 31800⟩, some ⟨0x9000000000000000, 37800⟩)) := by decide +kernel

/-! ### The ports and the devices' own moves -/

/-- An illegal opcode and a wrong length on the host port (rules R114 and R115). -/
theorem test_host_errors :
    heard (step (sent (.message .host [0x10, 0, 0, 0, 0, 0, 0, 0, 0, 0]) (stateIn .idle))) = some ([[0x21]], [])
      ∧ heard (step (sent (.message .host [0x03, 0, 0]) (stateIn .idle))) = some ([[0x22]], [])
      ∧ heard (step (sent (.message .host []) (stateIn .idle))) = some ([[0x21]], []) := by decide +kernel

/-- The generator raises one COMPLETE at the end of slot 63 (42_engine.md rule R206). -/
theorem test_generator_done :
    (after (step (sent (.genDone 0 39000 0) (stateIn .sending)))).map (fun s => (s.inbox, (s.channel? 0).map (·.gen.word)))
      = some ([.raised [0x10, 0, 0, 0, 0, 0, 0, 0, 0x98, 0x58]], some none) := by decide +kernel

/-- With `INV = 1` the passive level is high (rule R205); the output is passive after slot 63 (rule R206) and while the
generator is disabled (rule R208). -/
theorem test_generator_output :
    (Gen.mk 350 900 true true (some 0xdb6db6aaaaaaaaaa)).output.1.take 4 = [(false, 350), (false, 350), (true, 900), (false, 350)]
      ∧ (Gen.mk 350 900 true true (some 7)).finish.output = ([], true)
      ∧ (Gen.mk 350 900 false true (some 7)).disable.output = ([], false) := by decide +kernel

/-- The timer does not fire before its deadline (42_engine.md rule R209). -/
theorem test_timer_not_early :
    after (step (sent (.tmrFire 0 201499 0) (stateIn .await))) = some (stateIn .await) := by decide +kernel

/-! ### Witnesses: the hypotheses of each statement of Certificates/Slice0/Obligations.lean are met together -/

theorem live_in (st : EngineState) : Live (stateIn st) 0 (channelWith (some (sessionIn st))) (sessionIn st) := by
  cases st <;> exact ⟨rfl, rfl, rfl⟩

theorem channel_of_stateWith {n : Option Session} {ch : ChanId} {c : Channel} (h : (stateWith n).channel? ch = some c) :
    ch = 0 ∧ c = channelWith n ∨ c = restChannel := by
  unfold State.channel? stateWith at h
  by_cases h0 : ch = 0
  · subst h0; cases h; exact .inl ⟨rfl, rfl⟩
  · have hne : ch.toNat ≠ 0 := fun e => h0 (BitVec.eq_of_toNat_eq e)
    match hk : ch.toNat, hne with
    | 1, _ => rw [hk] at h; cases h; exact .inr rfl
    | 2, _ => rw [hk] at h; cases h; exact .inr rfl
    | 3, _ => rw [hk] at h; cases h; exact .inr rfl
    | k + 4, _ => rw [hk] at h; cases h

theorem session_of_stateWith (n : Option Session) (ch : ChanId) :
    (stateWith n).session? ch = if ch = 0 then n else none := by
  by_cases h : ch = 0
  · subst h; simp [State.session?, State.channel?, stateWith, channelWith]
  · have h0 : ch.toNat ≠ 0 := fun e => h (BitVec.eq_of_toNat_eq e)
    rw [if_neg h]
    unfold State.session? State.channel? stateWith
    match hk : ch.toNat, h0 with
    | 1, _ => rfl
    | 2, _ => rfl
    | 3, _ => rfl
    | k + 4, _ => rfl

theorem witness_EncodeOfDecode :
    decode [0x05, 0xff] = .ok (.shutdown 0xff)
      ∧ decode [0x80, 0, 0, 0, 0, 0, 0, 0, 0, 0, 1] = .ok (.genConfigure 0 0 0 true) := ⟨rfl, rfl⟩

theorem witness_StepRunsDecoded :
    decode [0x03, 0] = .ok (.status 0)
      ∧ (sent (.message .host [0x03, 0]) (stateIn .idle)).inbox = .message (portOf (.status 0)) [0x03, 0] :: []
      ∧ (sent (.raised (encode (.complete 0 39000))) (stateIn .sending)).inbox = .raised (encode (.complete 0 39000)) :: []
      ∧ (stateIn .idle).inbox = [] := ⟨rfl, rfl, rfl, rfl⟩

theorem witness_IllegalOpcodes :
    (∀ opc ∈ [0x00, 0x06, 0x10, 0xff], opc ∉ ([0x01, 0x02, 0x03, 0x04, 0x05] : List Byte))
      ∧ ∀ opc ∈ [0x00, 0x0f, 0x12, 0x03], opc ∉ ([0x10, 0x11] : List Byte) := by decide

theorem witness_WrongLengths :
    (List.replicate 16 (0 : Byte)).length ≠ 17 ∧ (List.replicate 18 (0 : Byte)).length ≠ 17
      ∧ (List.replicate 8 (0 : Byte)).length < 9 ∧ ([] : List Byte).length ≠ 1 ∧ (List.replicate 2 (0 : Byte)).length ≠ 1
      ∧ (List.replicate 4 (0 : Byte)).length ≠ 5 ∧ (List.replicate 6 (0 : Byte)).length ≠ 5
      ∧ (0x10 :: List.replicate 8 (0 : Byte)).length ≠ 10 ∧ (0x11 :: List.replicate 10 (0 : Byte)).length ≠ 10 := by decide

/-- The fixture is launched; a mapped id 0, a maximum below the minimum, `MAP[j] = C` and a dangling pair are refused. -/
theorem witness_PowerOnState :
    RomTables.wf testRom.tables = true
      ∧ [⟨[(0, chip1)], [], []⟩, ⟨[], [(0, ⟨3, [0, 1, 2]⟩)], []⟩, ⟨[(1, ⟨350, 900, false, 899, 1⟩)], [], []⟩,
          ⟨[], [(1, ⟨3, [0, 1, 3]⟩)], []⟩, ⟨[(1, chip1)], [], [(1, 1, 1)]⟩].all (fun t => !RomTables.wf t) = true := by
  decide +kernel

theorem witness_BadChannelIds :
    (stateIn .idle).chans.length ≤ (4 : ChanId).toNat ∧ (1 : BitVec 32) ≠ 0 := by decide +kernel

theorem witness_RomLookups :
    (3, chip3) ∈ testRom.tables.chips ∧ (∀ p, (4, p) ∉ testRom.tables.chips)
      ∧ (1, ⟨3, [0, 1, 2]⟩) ∈ testRom.tables.layouts ∧ (∀ l, (4, l) ∉ testRom.tables.layouts)
      ∧ (2, (3, 2)) ∈ testRom.tables.predefs ∧ ∀ e, (0, e) ∉ testRom.tables.predefs := by
  simp [testRom]

/-- A step that goes on, for the statements about any step. -/
theorem witness_RomConstant :
    ∃ t, step (sent (.message .platform (encode (.complete 0 39000))) (stateIn .sending)) = .next t := ⟨_, rfl⟩

/-- The classes of rule R242's checks, as the statement has them. -/
abbrev reservedIn (w0 w1 w2 : BitVec 32) : Prop :=
  w0.getLsbD 7 = true ∨ w1.toNat / 2 ^ 12 ≠ 0 ∨ w2.toNat / 2 ^ 8 ≠ 0 ∨ (w0.getLsbD 4 = true ∧ w0.toNat / 2 % 4 = 3)
abbrev missingIn (w0 : BitVec 32) : Prop := w0.getLsbD 3 = false ∨ w0.getLsbD 4 = false
abbrev badCountIn (w1 : BitVec 32) : Prop := w1.toNat % 2 ^ 12 = 0 ∨ 2048 < w1.toNat % 2 ^ 12

theorem witness_CfgCheckOrder_words :
    reservedIn 0x0101009a 3 0 ∧ reservedIn 0x0101001a 0x1000 0 ∧ reservedIn 0x0101001a 3 0x100 ∧ reservedIn 0x1e 3 0
      ∧ (¬reservedIn 0x0e 3 0 ∧ missingIn 0x0e) ∧ (¬reservedIn 0x01010012 0xfff 0xff ∧ missingIn 0x01010012)
      ∧ (¬reservedIn 0x0101001a 0 0 ∧ ¬missingIn 0x0101001a ∧ badCountIn 0 ∧ badCountIn 2049) := by decide +kernel

theorem witness_CfgCheckOrder :
    (¬badCountIn 1 ∧ ¬badCountIn 2048)
      ∧ (¬missingIn 0x00000018 ∧ (0x00000018 : BitVec 32).toNat / 2 % 4 = 0 ∧ testRom.predef 0 = none)
      ∧ (¬missingIn 0x00000218 ∧ (0x00000218 : BitVec 32).toNat / 2 % 4 = 0 ∧ testRom.predef 2 = some (3, 2))
      ∧ (¬missingIn 0x0400001a ∧ (0x0400001a : BitVec 32).toNat / 2 % 4 = 1 ∧ testRom.layout 0 = none
        ∧ testRom.chip 4 = none)
      ∧ (¬missingIn 0x0303001a ∧ (0x0303001a : BitVec 32).toNat / 2 % 4 = 1 ∧ testRom.layout 3 ≠ none
        ∧ testRom.chip 3 ≠ none)
      ∧ (¬missingIn 0x1c ∧ ¬reservedIn 0x1c 1 0 ∧ (0x1c : BitVec 32).toNat / 2 % 4 = 2) := by decide +kernel

/-- The fixture without layouts, for the refusal of VARIABLE mode. -/
def bareRom : Rom := ⟨⟨[(1, chip1)], [], []⟩, by decide⟩

theorem witness_CfgErrorsChangeNothing :
    ((stateWith (some fatalSession)).channel? 0 = some (channelWith (some fatalSession)) ∧ fatalSession.eng.fatal = true)
      ∧ ((stateIn .idle).channel? 0 = some (channelWith (some (sessionIn .idle)))
        ∧ (sessionIn .idle).eng.fatal = false)
      ∧ ((stateWith none).channel? 3 = some restChannel ∧ cfgCheck testRom 0x0101001a 0 0 = .error .cfgLedCount)
      ∧ (bareRom.tables.layouts = [] ∧ cfgCheck bareRom 0x1c 1 0 = .ok (.perFrame, 0, 0)) :=
  ⟨⟨rfl, rfl⟩, ⟨rfl, rfl⟩, ⟨rfl, rfl⟩, rfl, rfl⟩

theorem witness_CfgCreatesSession :
    (stateWith none).channel? 0 = some (channelWith none) ∧ (channelWith none).session = none
      ∧ (cfgCheck testRom 0x218 2048 0 = .ok (.predef, 3, 2) ∧ testRom.layout 3 = some ⟨4, [1, 0, 2, 3]⟩)
      ∧ (cfgCheck testRom 0x0101001a 1 0 = .ok (.pair, 1, 1) ∧ testRom.layout 1 = some ⟨3, [0, 1, 2]⟩)
      ∧ (cfgCheck testRom 0x7c 4 5 = .ok (.perFrame, 0, 0) ∧ testRom.cmax = some 4)
      ∧ ∀ w, ((2048, 4), w) ∉ ([] : List ((Nat × Nat) × BitVec 16)) :=
  ⟨rfl, rfl, ⟨rfl, rfl⟩, ⟨rfl, rfl⟩, ⟨rfl, rfl⟩, fun _ h => by cases h⟩

/-- The registers of a VARIABLE session. -/
def varCfg : CfgRegs := ⟨false, 2, .perFrame, 0, 0, 3, 0, 4⟩

/-- The refusal that an outcome is. -/
def refusal (o : Host.Outcome State Fault Refusal) : Option Refusal :=
  match o with
  | .refused r => some r
  | .next _ => none
  | .fault _ => none

/-- A launch from each engine state goes on, FATAL with the registers of none included; IDLE with an armed timer is outside rule
R54 and is refused (93_implementation_defined.md section 3), and so is VARIABLE mode over an empty layout table (rule R353). -/
theorem test_launch :
    [stateIn .idle, stateIn .sending, stateIn .await, stateIn .failed, stateWith (some fatalSession)].all
        (fun s => (after (launchFrom testRom.tables s)).isSome) = true
      ∧ refusal (launchFrom testRom.tables (stateWith (some (sessionWith { EngineRegs.created with tmrArmed := true }))))
        = some .illFormedLaunch
      ∧ refusal (launchFrom ⟨[], [], []⟩ (stateWith (some { sessionIn .idle with cfg := varCfg }))) = some .illFormedRom := by
  decide +kernel

/-- When a header is malformed, as the statement has it. -/
abbrev malformedHeader (frame : List Byte) : Prop :=
  frame = [] ∨ (byteAt frame 0).toNat < 5 ∨ frame.length < (byteAt frame 0).toNat + 1

theorem witness_VariableHeader :
    varCfg.mode = .perFrame
      ∧ malformedHeader [] ∧ malformedHeader [4, 1, 1, 0, 0, 0] ∧ malformedHeader [5, 1, 1, 0, 0]
      ∧ (¬malformedHeader [5, 0, 1, 0, 0, 0] ∧ testRom.layout 0 = none)
      ∧ (¬malformedHeader [5, 1, 4, 0, 0, 0] ∧ testRom.chip 4 = none)
      ∧ (¬malformedHeader [5, 2, 3, 0, 0, 0] ∧ ¬malformedHeader [7, 2, 3, 0xff, 0xff, 0xff, 9, 9, 1, 2, 3]
        ∧ testRom.layout 2 = some ⟨3, [1, 0, 2]⟩ ∧ testRom.chip 3 = some chip3) := by decide +kernel

theorem witness_FixedModeFrame :
    testCfg.mode ≠ .perFrame ∧ testRom.layout testCfg.layout = some ⟨3, [0, 1, 2]⟩
      ∧ testRom.chip testCfg.chip = some chip1 := by decide +kernel

theorem witness_RemapRule :
    testRom.layout 3 = some ⟨4, [1, 0, 2, 3]⟩
      ∧ 1 < min ((List.replicate 9 (7 : Byte)).length / 4) varCfg.ledMax.toNat ∧ 3 < 4 := by decide +kernel

/-- A VARIABLE session that waits for frames, and a session whose layout the ROM does not hold. -/
def varSession : Session := { sessionIn .idle with cfg := varCfg }
def lostSession : Session := { sessionIn .idle with cfg := { testCfg with layout := 9 } }

theorem witness_RejectedFrameChangesNothing :
    Live (stateWith (some varSession)) 0 (channelWith (some varSession)) varSession
      ∧ parseFrame testRom varCfg [4, 1, 1, 0, 0] = .error .frameMalformed
      ∧ parseFrame testRom varCfg [5, 1, 9, 0, 0, 0] = .error .frameId
      ∧ Live (stateWith (some lostSession)) 0 (channelWith (some lostSession)) lostSession
      ∧ lostSession.cfg.mode ≠ .perFrame ∧ testRom.layout lostSession.cfg.layout = none :=
  ⟨⟨rfl, rfl, rfl⟩, rfl, rfl, ⟨rfl, rfl, rfl⟩, by decide, rfl⟩

/-- The frame a payload comes to in the fixed mode of the fixture. -/
def fixedFrame (payload : List Byte) : Frame := ⟨1, 1, ⟨3, [0, 1, 2]⟩, chip1, 6000, 3, payload⟩

/-- The payload of program P1. -/
def payloadP1 : List Byte := [0xff, 0, 0, 0, 0xff, 0, 0, 0, 0xff]

theorem parse_fixed (payload : List Byte) : parseFrame testRom testCfg payload = .ok (fixedFrame payload) := rfl

theorem witness_ZeroLedFrame :
    Live (stateIn .sending) 0 (channelWith (some (sessionIn .sending))) (sessionIn .sending)
      ∧ parseFrame testRom testCfg [1, 2] = .ok (fixedFrame [1, 2])
      ∧ min ([1, 2].length / 3) testCfg.ledMax.toNat = 0 := ⟨live_in _, rfl, by decide⟩

/-- Program P1's frame has an LED and fits. -/
theorem frame_P1_fits :
    1 ≤ (fixedFrame payloadP1).leds testCfg
      ∧ encodeFrame chip1 testCfg.cap ((fixedFrame payloadP1).encoded testCfg) testBuf = .ok ⟨⟨0, 0, 0, 3⟩, testBuf⟩ := by
  refine ⟨by decide +kernel, ?_⟩
  have h : (match encodeFrame chip1 testCfg.cap ((fixedFrame payloadP1).encoded testCfg) testBuf with
      | .ok x => some x
      | .error _ => none) = some ⟨⟨0, 0, 0, 3⟩, testBuf⟩ := by decide +kernel
  split at h
  · rename_i x hx; rw [hx]; cases h; rfl
  · cases h

theorem witness_SubmitWhenIdle :
    Live (stateIn .idle) 0 (channelWith (some (sessionIn .idle))) (sessionIn .idle) ∧ (sessionIn .idle).eng.st = .idle :=
  ⟨live_in _, rfl⟩

theorem witness_SubmitWhenSending :
    Live (stateIn .sending) 0 (channelWith (some (sessionIn .sending))) (sessionIn .sending)
      ∧ (sessionIn .sending).eng.st = .sending := ⟨live_in _, rfl⟩

theorem witness_SubmitInWindow :
    (Live (stateIn .await) 0 (channelWith (some (sessionIn .await))) (sessionIn .await)
      ∧ (sessionIn .await).eng.st = .await)
      ∧ Live (stateIn .failed) 0 (channelWith (some (sessionIn .failed))) (sessionIn .failed)
      ∧ (sessionIn .failed).eng.st = .failed := ⟨⟨live_in _, rfl⟩, live_in _, rfl⟩

theorem witness_CapacityFaultInSubmit :
    Live (stateWith (some smallSession)) 0 (channelWith (some smallSession)) smallSession
      ∧ 1 ≤ (fixedFrame (List.replicate 6 0xff)).leds smallSession.cfg
      ∧ ∃ x, encodeFrame chip1 2 ((fixedFrame (List.replicate 6 0xff)).encoded smallSession.cfg) [] = .error x := by
  refine ⟨⟨rfl, rfl, rfl⟩, by decide +kernel, ?_⟩
  have h : (match encodeFrame chip1 2 ((fixedFrame (List.replicate 6 0xff)).encoded smallSession.cfg) [] with
      | .ok _ => true
      | .error _ => false) = false := by decide +kernel
  split at h
  · cases h
  · rename_i x hx; exact ⟨x, hx⟩

theorem witness_ZeroBitSlots :
    (chip1.doublePassiveForZero = false ∧ (61 : BitVec 6).toNat ≤ 61)
      ∧ (chip2.doublePassiveForZero = true ∧ (60 : BitVec 6).toNat ≤ 60)
      ∧ (0xfffe : BitVec 16) < 0xffff := by decide

theorem witness_OneBitSlots : (60 : BitVec 6).toNat ≤ 60 ∧ (0 : BitVec 16) < 1 := by decide

theorem witness_PadSlots : (1 : BitVec 6) ≠ 0 ∧ (63 : BitVec 6) ≠ 0 ∧ (0 : BitVec 16) < 1 := by decide

/-- A clause each: a buffer with room, a full one with an armed timer, a frame that overruns it, and no session, with the word
open and with it fresh. -/
theorem witness_EncoderOpsComplete :
    ((encoderAt chip1 63 [1]).channel? (encoderAt chip1 63 [1]).enc.ch = some (channelWith (some (sessionIn .idle)))
      ∧ (encoderAt chip1 63 [1]).enc.regs.k < testCfg.cap
      ∧ 8 * (List.replicate 10 (0xff : Byte)).length ≤ 21 * testCfg.cap.toNat)
    ∧ (encoderFull.channel? encoderFull.enc.ch = some (channelWith (some (sessionIn .await)))
      ∧ testCfg.cap ≤ encoderFull.enc.regs.k ∧ 61 < encoderFull.enc.regs.pos.toNat
      ∧ (encodeFrame chip1 testCfg.cap encoderFull.enc.bytes testBuf).isOk = false)
    ∧ ({ encoderFull with chans := [] } : State).session? encoderFull.enc.ch = none ∧ encoderFull.enc.bytes ≠ []
    ∧ State.reset.session? State.reset.enc.ch = none ∧ State.reset.enc.regs.pos = 0 ∧ State.reset.enc.bytes = [] :=
  ⟨⟨rfl, by decide +kernel, by decide +kernel⟩, ⟨rfl, by decide +kernel, by decide +kernel, by decide +kernel⟩,
    rfl, by decide, reset_session? _, rfl, rfl⟩

theorem witness_WorstCaseWordCount :
    (8 * (List.replicate 21 (0xff : Byte)).length ≤ 21 * (8 : BitVec 16).toNat ∧ 8 * 0 ≤ 21 * (0 : BitVec 16).toNat)
      ∧ parseFrame testRom testCfg payloadP1 = .ok (fixedFrame payloadP1)
      ∧ (testRom.layout testCfg.layout = some ⟨3, [0, 1, 2]⟩ ∧ testCfg.cap.toNat = (testCfg.ledMax.toNat * 3 * 8 + 20) / 21)
      ∧ testRom.cmax = some 4 ∧ varCfg.cap.toNat = (varCfg.ledMax.toNat * 4 * 8 + 20) / 21 :=
  ⟨by decide, parse_fixed _, by decide +kernel, by decide +kernel⟩

/-- For the four statements about a run of the encoder that completes: `WordCountFormula`, `FirstSlotActive`,
`WordDurations` and the first clause of `EncoderWritesOnlyItsWords`, whose second clause `witness_CapacityFaultInSubmit`
meets. -/
theorem witness_WordCountFormula :
    encodeFrame chip1 testCfg.cap ((fixedFrame payloadP1).encoded testCfg) testBuf = .ok ⟨⟨0, 0, 0, 3⟩, testBuf⟩
      ∧ 2 < (3 : BitVec 16).toNat ∧ payloadP1[8]? = some 0xff := ⟨frame_P1_fits.2, by decide, rfl⟩

theorem witness_CompleteLoadsNextWord :
    Live (stateIn .sending) 0 (channelWith (some (sessionIn .sending))) (sessionIn .sending)
      ∧ (((38800 + 6000 : Ns64).toNat : Int) - (engineIn .sending).expectT.toNat ≤ ((6000 : Ns32).toNat : Int)
        ∧ (engineIn .sending).remain ≠ 0 ∧ (engineIn .sending).next.toNat < (engineIn .sending).wcount.toNat
        ∧ Memory.read testBuf 1 = some ⟨0xaadb6db6aaaaaaaa, 37800⟩) := ⟨live_in _, by decide +kernel⟩

/-- The end of program P1's frame. -/
def lastWordSession : Session := sessionWith { engineIn .sending with next := 3, remain := 0, expectT := 121400 }

theorem witness_CompleteFinishesFrame :
    Live (stateWith (some lastWordSession)) 0 (channelWith (some lastWordSession)) lastWordSession
      ∧ lastWordSession.eng.st = .sending ∧ lastWordSession.eng.remain = 0
      ∧ ((121500 : Ns64).toNat : Int) - lastWordSession.eng.expectT.toNat ≤ (lastWordSession.latch.maxPassNs.toNat : Int)
      ∧ testRom.chip lastWordSession.latch.chip = some chip1 := ⟨⟨rfl, rfl, rfl⟩, by decide +kernel⟩

/-- One ns beyond the tolerance, with the budget's last retry left and with none left (`F_MAXRETRY = 2`). -/
theorem witness_LateComplete :
    Live (stateWith (some lateSession)) 0 (channelWith (some lateSession)) lateSession
      ∧ lateSession.eng.st = .sending
      ∧ (lateSession.latch.maxPassNs.toNat : Int) < ((393251 : Ns64).toNat : Int) - lateSession.eng.expectT.toNat
      ∧ testRom.chip lateSession.latch.chip = some chip1
      ∧ lateSession.latch.maxRetry.toNat < (lateSession.eng.retry + 1).toNat
      ∧ ((1 : BitVec 16) + 1).toNat ≤ lateSession.latch.maxRetry.toNat := ⟨⟨rfl, rfl, rfl⟩, by decide +kernel⟩

theorem witness_StrayCompleteOnlyCounts :
    Live (stateIn .await) 0 (channelWith (some (sessionIn .await))) (sessionIn .await)
      ∧ (sessionIn .await).eng.st ≠ .sending := ⟨live_in _, by decide⟩

/-- A window with a retry due and one with a queued frame. -/
def windowSession (retry new : Bool) : Session :=
  sessionWith { engineIn .await with pendRetry := retry, pendNew := new }

theorem witness_WakeStartsAttempt :
    (∀ retry new, Live (stateWith (some (windowSession retry new))) 0 (channelWith (some (windowSession retry new)))
      (windowSession retry new) ∧ (windowSession retry new).eng.tmrArmed = true
      ∧ (windowSession retry new).eng.tmrDeadline.toNat ≤ (201500 : Ns64).toNat)
      ∧ (windowSession true false).eng.pendRetry = true ∧ (windowSession false true).eng.pendNew = true
      ∧ testRom.chip (windowSession true false).latch.chip = some chip1
      ∧ 1 ≤ (windowSession true false).eng.wcount.toNat
      ∧ Memory.read testBuf 0 = some ⟨0xdb6db6aaaaaaaaaa, 37800⟩ :=
  ⟨fun _ _ => ⟨⟨rfl, rfl, rfl⟩, rfl, Nat.le_refl 201500⟩, by decide +kernel⟩

theorem witness_WakeWithoutFrame :
    Live (stateIn .await) 0 (channelWith (some (sessionIn .await))) (sessionIn .await)
      ∧ (201499 : Ns64).toNat < (engineIn .await).tmrDeadline.toNat
      ∧ ((engineIn .await).tmrArmed = true ∧ (engineIn .await).tmrDeadline.toNat ≤ (201500 : Ns64).toNat
        ∧ (engineIn .await).pendRetry = false ∧ (engineIn .await).pendNew = false)
      ∧ (engineIn .idle).tmrArmed = false := ⟨live_in _, by decide +kernel⟩

theorem witness_TimesAreExact :
    TimeInRange 0x7fffffffffffffff ∧ (64 * (2 ^ 32 - 1) : Ns64).toNat ≤ 64 * (2 ^ 32 - 1)
      ∧ (engineIn .sending).frameT0.toNat ≤ (1000 : Ns64).toNat := by
  unfold TimeInRange; decide +kernel

/-- Two timed inputs of one session in order, and a COMPLETE that its generator raises between them. -/
theorem witness_TimesAreExact_order :
    let s := { stateIn .sending with
      inbox := [.message .platform (encode (.complete 0 39000)), .genDone 0 76900 0, .message .host (encode (.submit 0 76900 []))] }
    s.TimesOrdered ∧ s.FramesStarted ∧ ∃ t, step s = .next t := by
  refine ⟨⟨?_, ?_⟩, ?_, _, rfl⟩
  · intro x hx ch now h
    simp only [List.mem_cons, List.not_mem_nil, or_false] at hx
    rcases hx with rfl | rfl | rfl <;> cases h <;> unfold TimeInRange <;> decide +kernel
  · have h39 : ∀ x ∈ [Input.genDone 0 76900 0, .message .host (encode (.submit 0 76900 []))],
        ∀ ch a b, Input.time (.message .platform (encode (.complete 0 39000))) = some (ch, a) → Input.time x = some (ch, b) →
          a.toNat ≤ b.toNat := by
      intro x hx ch a b ha hb
      simp only [List.mem_cons, List.not_mem_nil, or_false] at hx
      rcases hx with rfl | rfl <;> cases ha <;> cases hb <;> decide +kernel
    exact .cons (fun y hy _ => h39 y hy) (.cons (fun _ _ h => by cases h) (.cons (fun _ h => by cases h) .nil))
  · intro ch ss hs x hx now h
    have h0 : (stateIn .sending).session? ch = some ss := hs
    rw [stateIn, session_of_stateWith] at h0
    split at h0
    · cases h0
      simp only [List.mem_cons, List.not_mem_nil, or_false] at hx
      rcases hx with rfl | rfl | rfl <;> cases h <;> decide +kernel
    · cases h0

/-- A block at rest: a run in which the surroundings do nothing keeps every duty of rule R318. -/
theorem honest_run_at_rest : HonestRun (fun _ => State.reset) where
  start :=
    { channels := by
        have := Config.lastChannel.isLt
        simp only [State.reset, State.suppliedChannels, length_powerOnChannels]; omega
      layouts := fun ch ss h => by rw [reset_session?] at h; cases h
      sound := fun ch ss h => by rw [reset_session?] at h; cases h
      buffers := fun ch ss h => by rw [reset_session?] at h; cases h
      agree := fun ch c ss h => by obtain ⟨level, rfl⟩ := reset_channel? h.channel; cases h.session
      free := fun ch c h hb => by obtain ⟨level, rfl⟩ := reset_channel? h; cases hb
      completions := ⟨fun _ => Nat.zero_le _, fun _ _ h => by cases h⟩
      wakes := fun _ => ⟨Nat.zero_le _, fun _ h => by cases h⟩ }
  steps _ := rfl
  duties _ :=
    { external := fun _ _ h => by cases h
      times := ⟨fun _ h => (by cases h), List.Pairwise.nil⟩
      strayDone := fun _ _ _ _ _ _ _ h => by cases h
      strayWake := fun _ _ _ _ _ _ _ h => by cases h
      disabled := fun t ch h hm => by cases h; simp [sentBetween] at hm }
  generator _ ch c h hb := by obtain ⟨level, rfl⟩ := reset_channel? h; cases hb
  timer _ ch c d h hr := by obtain ⟨level, rfl⟩ := reset_channel? h; cases hr

/-- An event in flight keeps a session from being quiescent; a command of the host to come does not (rule R370). -/
theorem test_quiescent :
    Quiescent (sent (.message .host [0x03, 0]) (stateIn .idle)) 0 (sessionIn .idle)
      ∧ ¬Quiescent (sent (.raised (encode (.complete 0 5))) (stateIn .idle)) 0 (sessionIn .idle)
      ∧ ¬Quiescent (sent (.stray (encode (.wake 0 5))) (stateIn .idle)) 0 (sessionIn .idle)
      ∧ Quiescent (sent (.raised (encode (.complete 1 5))) (stateIn .idle)) 0 (sessionIn .idle) := by
  unfold Quiescent; decide +kernel

/-- A completion that a device still holds, and a stray signal to come, keep no run from being over; a message of the host to
come does (rule R370). -/
theorem test_run_over :
    (∀ x ∈ [Input.genDone 0 5 0, .message .platform (encode (.complete 0 5))], RunOver (sent x (stateIn .idle)))
      ∧ ¬RunOver (sent (.message .host [0x03, 0]) (stateIn .idle)) := by
  have rest : ∀ (x : Input) (ch : ChanId),
      (sent x (stateIn .idle)).session? ch = none ∨ (sent x (stateIn .idle)).session? ch = some (sessionIn .idle) :=
    fun _ => show ∀ ch, (stateIn .idle).session? ch = none ∨ (stateIn .idle).session? ch = some (sessionIn .idle) by
      decide +kernel
  refine ⟨fun x hx => ⟨?_, fun ch ss hs => ?_⟩, fun h => by cases h.1 _ List.mem_cons_self⟩
  · intro y hy
    simp only [sent, List.mem_singleton] at hy
    simp only [List.mem_cons, List.not_mem_nil, or_false] at hx
    subst hy; rcases hx with rfl | rfl <;> rfl
  · have : ss = sessionIn .idle := by rcases rest x ch with h | h <;> rw [h] at hs <;> cases hs; rfl
    subst this
    refine ⟨rfl, rfl, rfl, fun y hy => ?_⟩
    simp only [sent, List.mem_singleton] at hy
    simp only [List.mem_cons, List.not_mem_nil, or_false] at hx
    subst hy; rcases hx with rfl | rfl <;> rfl

theorem witness_OptionalStatistics :
    (-2 ^ 63 ≤ (-2 ^ 63 : Int) ∧ (-2 ^ 63 : Int) < 2 ^ 63) ∧ -2 ^ 63 ≤ (2 ^ 63 - 1 : Int) ∧ (2 ^ 63 - 1 : Int) < 2 ^ 63 := by
  decide

theorem witness_OutputCommands :
    (stateIn .idle).channel? 3 = some restChannel ∧ (stateIn .idle).chans.length ≤ (4 : ChanId).toNat :=
  ⟨rfl, by decide +kernel⟩

theorem witness_DeviceMoves :
    (stateIn .sending).channel? 0 = some (channelWith (some (sessionIn .sending)))
      ∧ (sent (.genDone 0 39000 0) (stateIn .sending)).inbox = .genDone 0 39000 0 :: []
      ∧ (sent (.genLost 0) (stateIn .sending)).inbox = .genLost 0 :: []
      ∧ (sent (.tmrFire 0 201500 0) (stateIn .sending)).inbox = .tmrFire 0 201500 0 :: []
      ∧ ((channelWith none).gen.en = true ∧ (channelWith none).gen.word ≠ none)
      ∧ (channelWith none).tmr.req = some 201500 ∧ (201500 : Ns64).toNat ≤ (201500 : Ns64).toNat :=
  ⟨rfl, rfl, rfl, rfl, by decide, rfl, by decide⟩

theorem witness_WaveLastsItsDuration :
    Memory.read testBuf 2 = some ⟨0xaaaadb6db6000000, 44400⟩ ∧ (channelWith none).gen.activeNs = chip1.t0ActiveNs
      ∧ (channelWith none).gen.passiveNs = chip1.tPassiveMinNs ∧ (channelWith none).gen.en = true
      ∧ restChannel.gen.en = false := by decide +kernel

theorem witness_StatusRecord :
    Live (stateIn .sending) 0 (channelWith (some (sessionIn .sending))) (sessionIn .sending) := live_in _

theorem witness_StatusReadChunk :
    Live (stateIn .idle) 0 (channelWith (some (sessionIn .idle))) (sessionIn .idle) ∧ (1 : BitVec 32) ≠ 0 :=
  ⟨live_in _, by decide⟩

theorem witness_ShutdownEmptiesSlot :
    (stateIn .sending).channel? 0 = some (channelWith (some (sessionIn .sending)))
      ∧ (stateWith (some fatalSession)).channel? 0 = some (channelWith (some fatalSession)) := ⟨rfl, rfl⟩

theorem witness_FatalSessionIsDead :
    (stateWith (some fatalSession)).channel? 0 = some (channelWith (some fatalSession))
      ∧ (channelWith (some fatalSession)).session = some fatalSession ∧ fatalSession.eng.fatal = true
      ∧ (1 : BitVec 32) ≠ 0 := ⟨rfl, rfl, rfl, by decide⟩

theorem witness_EmptySlotAnswers :
    (stateIn .idle).channel? 3 = some restChannel ∧ restChannel.session = none ∧ (1 : BitVec 32) ≠ 0 :=
  ⟨rfl, rfl, by decide⟩

theorem witness_ConfigReadOnly :
    ∃ t ss', step (sent (.message .platform (encode (.complete 0 39000))) (stateIn .sending)) = .next t
      ∧ (stateIn .sending).session? 0 = some (sessionIn .sending) ∧ t.session? 0 = some ss' := ⟨_, _, rfl, rfl, rfl⟩

theorem witness_FatalIsSticky :
    (∃ t, step (sent (.message .platform (encode (.wake 0 9))) (stateWith (some fatalSession))) = .next t)
      ∧ (∃ t, step (sent (.message .host [0x05, 0]) (stateWith (some fatalSession))) = .next t)
      ∧ (stateWith (some fatalSession)).session? 0 = some fatalSession ∧ fatalSession.eng.fatal = true :=
  ⟨⟨_, rfl⟩, ⟨_, rfl⟩, rfl, rfl⟩

theorem witness_StatisticsWriters :
    ∃ t ss', exec (.wake 0 201600) (stateIn .await) = .next t
      ∧ (stateIn .await).session? 0 = some (sessionIn .await) ∧ t.session? 0 = some ss'
      ∧ (∀ now frame, Instr.wake 0 201600 ≠ .submit 0 now frame) ∧ ∀ now, Instr.wake 0 201600 ≠ .complete 0 now :=
  ⟨_, _, rfl, rfl, rfl, (fun _ _ h => by cases h), (fun _ h => by cases h)⟩

theorem witness_BufferWriters :
    ∃ t ss', exec (.complete 0 39000) (stateIn .sending) = .next t
      ∧ (stateIn .sending).session? 0 = some (sessionIn .sending) ∧ t.session? 0 = some ss'
      ∧ (∀ now frame, Instr.complete 0 39000 ≠ .submit 0 now frame)
      ∧ Instr.complete 0 39000 ∉ [Instr.encBit0, .encBit1, .encPad, .encode] :=
  ⟨_, _, rfl, rfl, rfl, (fun _ _ h => by cases h), by decide⟩

theorem witness_OtherChannelsUntouched :
    (∃ t, exec (.complete 0 39000) (stateIn .sending) = .next t) ∧ target (.complete 0 39000) (stateIn .sending) ≠ some 1 :=
  ⟨⟨_, rfl⟩, by decide⟩

theorem witness_SessionsAreIndependent :
    portOf (.complete 0 39000) = .platform ∧ target (.complete 0 39000) (stateIn .sending) = some 0
      ∧ (stateIn .sending).channel? 0 = ((stateIn .sending).setChannel 1 (channelWith none)).channel? 0
      ∧ (∃ t, exec (.complete 0 39000) (stateIn .sending) = .next t) := ⟨rfl, rfl, rfl, _, rfl⟩

/-- A read of the session in between, and a command to another one. -/
theorem witness_StatusIsRepeatable :
    (∃ t, exec (.statusRead 0 1) (stateIn .idle) = .next t) ∧ (∃ t, exec (.shutdown 1) (stateIn .idle) = .next t)
      ∧ portOf (.statusRead 0 1) ≠ .internal ∧ portOf (.shutdown 1) ≠ .internal
      ∧ Live (stateIn .idle) 0 (channelWith (some (sessionIn .idle))) (sessionIn .idle)
      ∧ target (.shutdown 1) (stateIn .idle) ≠ some 0
      ∧ ∃ a, exec (.status 0) (stateIn .idle)
        = .next { stateIn .idle with answers := (stateIn .idle).answers ++ [a] } :=
  ⟨⟨_, rfl⟩, ⟨_, rfl⟩, by decide, by decide, live_in _, by decide, _, rfl⟩

theorem witness_CommandsOfAStep :
    ∃ t, exec (.submit 0 1000 payloadP1) (stateIn .sending) = .next t := ⟨_, rfl⟩

/-- A SENDING session meets the invariants. -/
theorem sending_sound : SessionSound testRom (sessionIn .sending) where
  config := ⟨by decide +kernel, fun _ => by decide +kernel, fun h => by cases h⟩
  engine :=
    { idle := fun h => by cases h
      sending := fun _ => ⟨rfl, rfl, rfl, rfl, ⟨by decide +kernel, by decide +kernel, by decide +kernel⟩⟩
      await := fun h => by cases h
      failed := fun h => by cases h
      count := by decide +kernel
      retry := by decide +kernel }
  frame := ⟨by decide +kernel, fun _ => by decide +kernel, fun _ => by decide +kernel⟩

theorem sending_state_sound : (stateIn .sending).Sound := by
  intro ch ss h _
  rw [stateIn, session_of_stateWith] at h
  split at h
  · cases h; exact sending_sound
  · cases h

theorem witness_StepKeepsSound :
    (stateIn .sending).Sound ∧ ∃ t, step (stateIn .sending) = .next t := ⟨sending_state_sound, _, rfl⟩

theorem witness_StepKeepsBuffersCanonical :
    (stateIn .sending).BuffersCanonical ∧ ∃ t, step (stateIn .sending) = .next t := by
  refine ⟨fun ch ss h => ?_, _, rfl⟩
  rw [stateIn, session_of_stateWith] at h
  split at h
  · cases h; decide +kernel
  · cases h

/-- The two inputs at the edge of what the surroundings can make: an empty message and a stray event. -/
theorem witness_SurroundingsNeverStopTheBlock :
    ∀ x ∈ [Input.message .host [], .message .platform (encode (.complete 3 0))],
      (sent x (stateIn .sending)).Sound ∧ (sent x (stateIn .sending)).HasLayout ∧ (sent x (stateIn .sending)).NextExternal := by
  intro x hx
  refine ⟨sending_state_sound, (fun h => by cases h), fun y rest h => ?_⟩
  have hy : x = y := (List.cons.inj h).1
  subst hy
  simp only [List.mem_cons, List.not_mem_nil, or_false] at hx
  rcases hx with rfl | rfl <;> rfl

theorem witness_StepKeepsGeneratorsAgreeing : (stateIn .sending).GeneratorsAgree := by
  intro ch c ss hl _
  have h := hl.session
  have hs : (stateIn .sending).session? ch = some ss := by rw [State.session?, hl.channel]; exact h
  rw [stateIn, session_of_stateWith] at hs
  split at hs
  · rename_i h0
    subst h0
    cases hs
    have hc : channelWith (some (sessionIn .sending)) = c := Option.some.inj hl.channel
    subst hc
    exact ⟨rfl, ⟨chip1, by decide +kernel⟩, rfl, fun b hb => by cases hb; exact ⟨by decide, _, rfl, rfl⟩⟩
  · cases hs

/-- For the second clause: SUBMIT to a SENDING engine whose generator is sending a word. -/
theorem witness_StepKeepsGeneratorsAgreeing_duties :
    let s := sent (.message .host (encode (.submit 0 2000 payloadP1))) (stateIn .sending)
    s.GeneratorsFree ∧ s.CompletionsOwned ∧ s.DutiesKept ∧ (∃ t, step s = .next t)
      ∧ ∃ c, s.channel? 0 = some c ∧ c.gen.busy = true := by
  have hd : decodeOn .host (encode (.submit 0 2000 payloadP1)) = .ok (.submit 0 2000 payloadP1) := by decide +kernel
  refine ⟨fun ch c hc hb => ?_, ⟨fun _ => Nat.le_succ_of_le (Nat.le_refl 0), fun ch x hx h => ?_⟩, ?_, ?_, _, rfl, rfl⟩
  · rcases channel_of_stateWith hc with ⟨rfl, rfl⟩ | rfl
    · exact ⟨sessionIn .sending, ⟨rfl, rfl, rfl⟩, rfl⟩
    · cases hb
  · cases List.mem_singleton.1 hx; cases h
  · refine ⟨fun x rest h => ?_, ⟨fun x hx ch now h => ?_, ?_⟩, fun x rest m ch now c ss h hm => ?_,
      fun x rest m ch now c ss h hm => ?_, fun t ch h _ x hx => ?_⟩
    · cases h; rfl
    · cases List.mem_singleton.1 hx
      rw [show Input.time (.message .host (encode (.submit 0 2000 payloadP1))) = timeOf (.submit 0 2000 payloadP1) by
        simp only [Input.time, messageTime, hd]] at h
      cases h; unfold TimeInRange; decide
    · exact List.pairwise_singleton _ _
    · cases h; cases hm
    · cases h; cases hm
    · have he : step (sent (.message .host (encode (.submit 0 2000 payloadP1))) (stateIn .sending))
          = exec (.submit 0 2000 payloadP1) (stateIn .sending) := receive_ok (stateIn .sending) hd
      rw [he] at h
      rw [(exec_move h).1.2.2] at hx; cases hx
  · have : (after (step (sent (.message .host (encode (.submit 0 2000 payloadP1))) (stateIn .sending)))).isSome = true := by
      decide +kernel
    cases h : step (sent (.message .host (encode (.submit 0 2000 payloadP1))) (stateIn .sending)) with
    | next t => exact ⟨t, rfl⟩
    | fault f => rw [h] at this; cases this
    | refused r => rw [h] at this; cases this

end Sys2Proof.Tests
end

section
/-! The words that a run of the encoder leaves in the buffer (41_encoder.md rules R155 and R160): they are all written, they
are within the capacity, and a frame with a byte has one. -/

namespace Sys2Proof.Machine

variable {p : ChipProfile} {cap : BitVec 16} {x y : EncRun}

theorem toNat_succ_of_lt {a b : BitVec 16} (h : a < b) : (a + 1).toNat = a.toNat + 1 := by bv_omega

theorem toNat_pred_of_ne_zero {a : BitVec 16} (h : a ≠ 0) : (a - 1).toNat = a.toNat - 1 := by bv_omega

theorem After.of_ok {P Q : EncRun → Prop} {r : Except EncRun EncRun} (h : After P Q r) (hr : r = .ok y) : P y := by
  subst hr; exact h

/-- The words a run has closed are within the capacity and written. -/
structure WordsClosed (cap : BitVec 16) (x : EncRun) : Prop where
  count   : x.regs.k.toNat ≤ cap.toNat
  written : ∀ j, j < x.regs.k.toNat → (Memory.read x.buf j).isSome = true

theorem slotsKeep_wordsClosed : SlotsKeep p cap (WordsClosed cap) (fun _ => True) := by
  intro s x hx _
  cases h : emitSlot p cap s x with
  | error y => trivial
  | ok y =>
    rcases emitSlot_ok h with ⟨-, rfl⟩ | ⟨-, hk, rfl⟩
    · exact ⟨hx.count, hx.written⟩
    · have hs := toNat_succ_of_lt hk
      have hlt : x.regs.k.toNat < cap.toNat := hk
      refine ⟨by simp only [hs]; omega, fun j hj => ?_⟩
      rw [Memory.read_write]
      split
      · rfl
      · exact hx.written j (by simp only [hs] at hj; omega)

/-- A run has emitted a slot: it is inside a word, or it has closed one. -/
def Begun (x : EncRun) : Prop := x.regs.pos ≠ 0 ∨ 1 ≤ x.regs.k.toNat

theorem emitSlot_begun (s : Bool) (x : EncRun) : After Begun (fun _ => True) (emitSlot p cap s x) := by
  cases h : emitSlot p cap s x with
  | error y => trivial
  | ok y =>
    rcases emitSlot_ok h with ⟨hp, rfl⟩ | ⟨-, hk, rfl⟩
    · refine .inl fun h0 => ?_
      have := pos_succ hp
      simp only at h0
      rw [h0] at this
      cases this
    · have := toNat_succ_of_lt hk
      exact .inr (by simp only; omega)

theorem slotsKeep_begun : SlotsKeep p cap Begun (fun _ => True) := fun s x _ _ => emitSlot_begun s x

theorem encodeBit_begun (b : Bool) (hx : x.regs.pos = 0) : After Begun (fun _ => True) (encodeBit p cap b x) := by
  cases b with
  | false =>
    rw [encodeBit, if_neg (by decide), encodeZero_bind]
    exact (emitSlot_begun true x).bind fun y hy => slotsKeep_begun.trailing _ hy
  | true =>
    have hl : leadingSlot p cap x = .ok x := by rw [leadingSlot, hx, if_neg (by decide)]
    rw [encodeBit, if_pos rfl, encodeOne_bind, hl]
    exact (emitSlot_begun true x).bind fun y _ => (emitSlot_begun true y).bind fun z hz => slotsKeep_begun.trailing 1 hz

/-- A byte has bits, so that a frame with a byte emits a slot. -/
theorem encodeBits_begun {e : List Byte} (he : e ≠ []) (hx : x.regs.pos = 0) :
    After Begun (fun _ => True) (encodeBits p cap (bitsOf e) x) := by
  obtain ⟨b, l, rfl⟩ := List.exists_cons_of_ne_nil he
  rw [show bitsOf (b :: l) = b.getLsbD 7 :: ((byteBits b).tail ++ bitsOf l) from rfl, encodeBits_cons]
  exact (encodeBit_begun _ hx).bind fun y hy => slotsKeep_begun.encodeBits _ hy

/-- Passive slots to the end of a word close it (rule R159). -/
theorem trailing_closes {n : Nat} (h : trailing p cap n x = .ok y) (hn : x.regs.pos = 0 ∨ 64 ≤ x.regs.pos.toNat + n) :
    y.regs.pos = 0 := by
  induction n generalizing x with
  | zero =>
    have := x.regs.pos.isLt
    cases h
    exact hn.resolve_right (by omega)
  | succ n ih =>
    by_cases h0 : x.regs.pos = 0
    · rw [trailing_fresh _ h0] at h; cases h; exact h0
    · rw [trailing_succ n h0] at h
      cases hz : emitSlot p cap false x with
      | error z => rw [hz] at h; cases h
      | ok z =>
        rw [hz] at h
        refine ih h ?_
        rcases emitSlot_ok hz with ⟨hp, rfl⟩ | ⟨-, -, rfl⟩
        · have := pos_succ hp
          have := hn.resolve_left h0
          exact .inr (by simp only; omega)
        · exact .inl rfl

/-- The words of a frame (rules R160 and R166): within the capacity, written, and one at least where the frame has a byte. -/
theorem encodeFrame_words {e : List Byte} {buf : Buffer} (h : encodeFrame p cap e buf = .ok x) (he : e ≠ []) :
    WordsClosed cap x ∧ 1 ≤ x.regs.k.toNat := by
  refine ⟨(slotsKeep_wordsClosed.encodeFrame e buf ⟨Nat.zero_le _, fun j hj => absurd hj (Nat.not_lt_zero j)⟩).of_ok h, ?_⟩
  rw [encodeFrame_bind] at h
  have begun : Begun x :=
    ((encodeBits_begun he rfl).bind fun y hy => slotsKeep_begun.trailing 64 hy).of_ok h
  cases hy : encodeBits p cap (bitsOf e) ⟨EncRegs.zero, buf⟩ with
  | error y => rw [hy] at h; cases h
  | ok y =>
    rw [hy] at h
    exact begun.resolve_left (not_not_intro (trailing_closes h (.inr (Nat.le_add_left _ _))))

/-- A parsed frame with an LED has a byte to encode (rules R151 and R252). -/
theorem Frame.encoded_ne_nil {rom : Rom} {cfg : CfgRegs} {frame : List Byte} {f : Frame}
    (h : parseFrame rom cfg frame = .ok f) (hn : f.leds cfg ≠ 0) : f.encoded cfg ≠ [] := by
  obtain ⟨hc, hm, -⟩ := Rom.layout_wf (parseFrame_entries h).1
  have hl : (f.encoded cfg).length = f.leds cfg * f.layout.map.length := length_remap ..
  have pos : 0 < f.leds cfg * f.layout.map.length := Nat.mul_pos (Nat.pos_of_ne_zero hn) (by omega)
  exact List.ne_nil_of_length_pos (hl ▸ pos)

end Sys2Proof.Machine
end

section
/-! The invariants of the sessions (10_state.md rule R54 with what it rests on) across every operation and every step. -/

namespace Sys2Proof.Machine

variable {rom : Rom} {ch : ChanId} {p : ChipProfile} {now : Ns64} {ss ss' : Session} {cmds : List Instr}

/-! ### The configuration of a new session (43_session.md rules R242 and R243) -/

/-- What an accepted CFG has passed: the LED count is in range and the ids are the selection's. -/
theorem cfgCheck_ok {w0 w1 w2 : BitVec 32} {m : Mode} {ids : RomId × RomId} (h : cfgCheck rom w0 w1 w2 = .ok (m, ids)) :
    1 ≤ (cfgLedCount w1).toNat ∧ (cfgLedCount w1).toNat ≤ Config.ledMaxLimit ∧ cfgSelection rom m w0 = .ok ids := by
  unfold cfgCheck at h
  split at h
  · cases h
  · split at h
    · cases h
    · split at h
      · cases h
      · rename_i hled
        obtain ⟨h0, hlim⟩ : cfgLedCount w1 ≠ 0 ∧ (cfgLedCount w1).toNat ≤ Config.ledMaxLimit := by simpa using hled
        have hpos : (cfgLedCount w1).toNat ≠ 0 := fun e => h0 (BitVec.eq_of_toNat_eq e)
        split at h
        · cases h
        · split at h
          · cases h
          · rename_i hsel
            cases h
            exact ⟨Nat.pos_of_ne_zero hpos, hlim, hsel⟩

theorem cfgSelection_mapped {m : Mode} {w0 : BitVec 32} {ids : RomId × RomId} (h : cfgSelection rom m w0 = .ok ids)
    (hm : m ≠ .perFrame) : (rom.layout ids.1).isSome = true ∧ (rom.chip ids.2).isSome = true := by
  cases m with
  | perFrame => exact absurd rfl hm
  | predef =>
    simp only [cfgSelection] at h
    split at h
    · rename_i e he; cases h; exact Rom.predef_mapped he
    · cases h
  | pair =>
    simp only [cfgSelection] at h
    split at h
    · rename_i hp; cases h; simpa using hp
    · cases h

theorem Rom.layouts_of_cmax {n : Nat} (h : rom.cmax = some n) : rom.tables.layouts ≠ [] := by
  intro h0
  rw [Rom.cmax, h0] at h
  cases h

/-- The registers that an accepted CFG stores are sound (10_state.md rules R23 and R25). -/
theorem cfgRegs_sound {w0 w1 w2 w3 : BitVec 32} {m : Mode} {ids : RomId × RomId} {n : Nat} (cap : BitVec 16)
    (h : cfgCheck rom w0 w1 w2 = .ok (m, ids)) (hn : cfgChannels rom m ids.1 = some n) :
    ConfigSound rom (cfgRegs m ids cap w0 w1 w2 w3) := by
  obtain ⟨low, high, sel⟩ := cfgCheck_ok h
  refine ⟨⟨low, high⟩, cfgSelection_mapped sel, ?_⟩
  rintro rfl
  cases sel
  exact ⟨rfl, rfl, Rom.layouts_of_cmax hn⟩

/-! ### The cursor (10_state.md rule R34) -/

/-- LoadNext moves the cursor on by one word. -/
theorem CursorSound.loaded {e : EngineRegs} {dur : Ns64} (hlt : e.next < e.wcount) (hr : e.remain ≠ 0)
    (hsum : e.next.toNat + e.remain.toNat = e.wcount.toNat) : CursorSound (e.loaded now dur) := by
  have hn := toNat_succ_of_lt hlt
  have hp := toNat_pred_of_ne_zero hr
  have hpos : e.remain.toNat ≠ 0 := fun h0 => hr (BitVec.eq_of_toNat_eq h0)
  constructor <;> simp only [EngineRegs.loaded_next, EngineRegs.loaded_remain, EngineRegs.loaded_wcount, hn, hp] <;> omega

theorem CursorSound.started {e : EngineRegs} (h : CursorSound e) : CursorSound e.started := ⟨h.low, h.high, h.sum⟩

/-! ### A frame that is in flight or due -/

/-- A session with a frame that an attempt may be made for: it is written, its chip is in the ROM, and its retry count is
within budget. What rule R54 says of the engine's state stands apart. -/
structure FrameReady (rom : Rom) (ss : Session) : Prop where
  config  : ConfigSound rom ss.cfg
  count   : ss.eng.wcount.toNat ≤ ss.cfg.cap.toNat
  written : ∀ k, k < ss.eng.wcount.toNat → (Memory.read ss.buf k).isSome = true
  chip    : (rom.chip ss.latch.chip).isSome = true ∧ 1 ≤ ss.eng.wcount.toNat
  budget  : ss.eng.retry.toNat ≤ ss.latch.maxRetry.toNat

/-- The engine's state, its flags and the statistics have no part in it. -/
theorem FrameReady.congr (h : FrameReady rom ss) (hcfg : ss'.cfg = ss.cfg) (hbuf : ss'.buf = ss.buf)
    (hlatch : ss'.latch = ss.latch) (hwcount : ss'.eng.wcount = ss.eng.wcount) (hretry : ss'.eng.retry = ss.eng.retry) :
    FrameReady rom ss' :=
  ⟨hcfg ▸ h.config, by rw [hcfg, hwcount]; exact h.count, by rw [hbuf, hwcount]; exact h.written,
    by rw [hlatch, hwcount]; exact h.chip, by rw [hlatch, hretry]; exact h.budget⟩

/-- A sound session has such a frame while an attempt is running or due. -/
theorem SessionSound.frameReady (h : SessionSound rom ss)
    (due : ss.eng.st = .sending ∨ ss.eng.pendRetry = true ∨ ss.eng.pendNew = true) : FrameReady rom ss := by
  refine ⟨h.config, h.engine.count, h.frame.written, h.frame.chip fun hi => ?_, h.frame.budget due⟩
  obtain ⟨-, -, hn, hr⟩ := h.engine.idle hi
  simp [hi, hn, hr] at due

theorem FrameReady.sending_sound (h : FrameReady rom ss) (hst : ss.eng.st = .sending) (hr : ss.eng.notReady = true)
    (ht : ss.eng.tmrArmed = false) (hpn : ss.eng.pendNew = false) (hpr : ss.eng.pendRetry = false)
    (hc : CursorSound ss.eng) : SessionSound rom ss where
  config := h.config
  engine :=
    { idle := fun e => nomatch hst.symm.trans e
      sending := fun _ => ⟨hr, ht, hpn, hpr, hc⟩
      await := fun e => nomatch hst.symm.trans e
      failed := fun e => nomatch hst.symm.trans e
      count := h.count
      retry := Nat.le_succ_of_le h.budget }
  frame := ⟨h.written, fun _ => h.chip, fun _ => h.budget⟩

theorem FrameReady.await_sound (h : FrameReady rom ss) (hst : ss.eng.st = .await) (hr : ss.eng.notReady = true)
    (ht : ss.eng.tmrArmed = true) (hp : ¬(ss.eng.pendNew = true ∧ ss.eng.pendRetry = true)) : SessionSound rom ss where
  config := h.config
  engine :=
    { idle := fun e => nomatch hst.symm.trans e
      sending := fun e => nomatch hst.symm.trans e
      await := fun _ => ⟨hr, ht, hp⟩
      failed := fun e => nomatch hst.symm.trans e
      count := h.count
      retry := Nat.le_succ_of_le h.budget }
  frame := ⟨h.written, fun _ => h.chip, fun _ => h.budget⟩

/-! ### The engine's procedures (42_engine.md section 2) -/

/-- StartAttempt (rule R192) leaves a sound session, with no timer armed and nothing pending. -/
theorem startAttempt_sound (h : startAttempt ch p now ss = .next (ss', cmds)) (hr : FrameReady rom ss)
    (ht : ss.eng.tmrArmed = false) (hpn : ss.eng.pendNew = false) (hpr : ss.eng.pendRetry = false) :
    SessionSound rom ss' := by
  obtain ⟨w, hw, -, rfl, -⟩ := startAttempt_next h
  have cursor : CursorSound ((ss.eng.rewound).loaded now w.dur) :=
    .loaded hw (fun h0 => BitVec.lt_irrefl _ (h0 ▸ hw)) (Nat.zero_add _)
  exact FrameReady.sending_sound (hr.congr rfl rfl rfl rfl rfl) rfl rfl ht hpn hpr cursor.started

/-- Abort (rule R203) withdraws a retry, and no flag else changes. -/
theorem abort_flags (ch : ChanId) (ss : Session) :
    (abort ch ss).1.eng.pendRetry = false ∧ (abort ch ss).1.eng.pendNew = ss.eng.pendNew
      ∧ (abort ch ss).1.eng.notReady = ss.eng.notReady := by
  by_cases h : ss.eng.st = .sending
  · rw [abort_sending h]; exact ⟨rfl, rfl, rfl⟩
  · rw [abort_other h]; exact ⟨rfl, rfl, rfl⟩

/-- Outside the windows no timer is armed and no frame is queued. -/
theorem EngineSound.no_window (h : EngineSound ss) (hst : ss.eng.st = .idle ∨ ss.eng.st = .sending) :
    ss.eng.tmrArmed = false ∧ ss.eng.pendNew = false := by
  rcases hst with hst | hst
  · obtain ⟨-, ht, hn, -⟩ := h.idle hst; exact ⟨ht, hn⟩
  · obtain ⟨-, ht, hn, -, -⟩ := h.sending hst; exact ⟨ht, hn⟩

/-- In a window the engine is not ready and its timer is armed. -/
theorem EngineSound.window (h : EngineSound ss) (hst : ss.eng.st = .await ∨ ss.eng.st = .failed) :
    ss.eng.notReady = true ∧ ss.eng.tmrArmed = true := by
  rcases hst with hst | hst
  · obtain ⟨hr, ht, -⟩ := h.await hst; exact ⟨hr, ht⟩
  · obtain ⟨hr, ht, -, -⟩ := h.failed hst; exact ⟨hr, ht⟩

/-- No frame is queued while a retry is due. -/
theorem EngineSound.pendNew_of_pendRetry (h : EngineSound ss) (hr : ss.eng.pendRetry = true) : ss.eng.pendNew = false := by
  cases hst : ss.eng.st with
  | idle => exact (h.no_window (.inl hst)).2
  | sending => exact (h.no_window (.inr hst)).2
  | await =>
    obtain ⟨-, -, both⟩ := h.await hst
    simpa [hr] using both
  | failed =>
    obtain ⟨-, -, hn, -⟩ := h.failed hst
    exact hn

/-- An accepted frame (43_session.md rule R245) leaves a sound session: it is queued in a window, or its first attempt
starts. -/
theorem submit_sound {f : Frame} {x : EncRun} {frame : List Byte} (hs : SessionSound rom ss)
    (parsed : parseFrame rom ss.cfg frame = .ok f) (leds : f.leds ss.cfg ≠ 0)
    (run : encodeFrame f.chip ss.cfg.cap (f.encoded ss.cfg) ss.buf = .ok x)
    (h : accept ch f.chip now (latchFrame f x (abort ch (countOverrun ss)).1) = .next (ss', cmds)) :
    SessionSound rom ss' := by
  obtain ⟨words, one⟩ := encodeFrame_words run (Frame.encoded_ne_nil parsed leds)
  obtain ⟨kcfg, keng, -⟩ := countOverrun_keeps ss
  obtain ⟨acfg, -, -, -, -, ast, atmr, -⟩ := abort_keeps ch (countOverrun ss)
  obtain ⟨noRetry, anew, anot⟩ := abort_flags ch (countOverrun ss)
  rw [kcfg] at acfg
  rw [keng] at ast atmr anew anot
  have chip : (rom.chip f.chipId).isSome = true := by rw [(parseFrame_entries parsed).2]; rfl
  have ready : FrameReady rom (latchFrame f x (abort ch (countOverrun ss)).1) :=
    ⟨acfg ▸ hs.config, acfg ▸ words.count, words.written, ⟨chip, one⟩, Nat.zero_le _⟩
  rcases accept_next h with ⟨hst, rfl, -⟩ | ⟨hst, h⟩
  · obtain ⟨notReady, armed⟩ := hs.engine.window (ast ▸ hst)
    exact FrameReady.await_sound (ready.congr rfl rfl rfl rfl rfl) rfl (anot.trans notReady) (atmr.trans armed)
      fun ⟨_, hr⟩ => Bool.false_ne_true (noRetry.symm.trans hr)
  · obtain ⟨unarmed, noNew⟩ := hs.engine.no_window (ast ▸ hst)
    exact startAttempt_sound h (ready.congr rfl rfl rfl rfl rfl) (atmr.trans unarmed) (anew.trans noNew) noRetry

/-- A violation of the tolerance (rule R198) leaves a sound session: in the retry window, or in the failure window with the
retry count one past the budget. -/
theorem violation_sound {d : Int} (h : violation ch p now d ss = (ss', cmds)) (hr : FrameReady rom ss)
    (hnr : ss.eng.notReady = true) (hpn : ss.eng.pendNew = false) : SessionSound rom ss' := by
  have hsucc : (ss.eng.retry + 1).toNat = ss.eng.retry.toNat + 1 := by
    have := hr.budget
    have := ss.latch.maxRetry.isLt
    rw [BitVec.toNat_add, show (1 : BitVec 16).toNat = 1 from rfl]
    omega
  rcases violation_cases ch p now d ss with ⟨-, e⟩ | ⟨hb, e⟩ <;> rw [e] at h <;> cases h
  · exact
      { config := hr.config
        engine :=
          { idle := nofun
            sending := nofun
            await := nofun
            failed := fun _ => ⟨hnr, rfl, hpn, rfl⟩
            count := hr.count
            retry := hsucc ▸ Nat.succ_le_succ hr.budget }
        frame := ⟨hr.written, fun _ => hr.chip, by simp [hpn]⟩ }
  · have within : (ss.eng.retry + 1).toNat ≤ ss.latch.maxRetry.toNat := by simpa [budgetExhausted] using hb
    exact FrameReady.await_sound ⟨hr.config, hr.count, hr.written, hr.chip, within⟩ rfl hnr rfl (by simp [hpn])

/-- A session that differs from a sound one in its statistics, its snapshot and what its written entries hold is sound. -/
theorem SessionSound.congr (h : SessionSound rom ss) (hcfg : ss'.cfg = ss.cfg) (heng : ss'.eng = ss.eng)
    (hlatch : ss'.latch = ss.latch)
    (hbuf : ∀ k, (Memory.read ss.buf k).isSome = true → (Memory.read ss'.buf k).isSome = true) : SessionSound rom ss' := by
  obtain ⟨cfg, eng, latch, buf, stats, snap⟩ := ss
  obtain ⟨cfg', eng', latch', buf', stats', snap'⟩ := ss'
  cases hcfg; cases heng; cases hlatch
  obtain ⟨config, engine, frame⟩ := h
  exact
    ⟨config, ⟨engine.idle, engine.sending, engine.await, engine.failed, engine.count, engine.retry⟩,
      fun k hk => hbuf k (frame.written k hk), frame.chip, frame.budget⟩

/-- COMPLETE (rule R195) leaves a sound session. -/
theorem completeSession_sound (hs : SessionSound rom ss) (h : completeSession rom ch now ss = .next (ss', cmds)) :
    SessionSound rom ss' := by
  rcases completeSession_next h with ⟨-, rfl, -⟩ | ⟨hst, -, hrem, h⟩ | ⟨hst, -, -, p, -, h⟩ | ⟨hst, -, p, -, h⟩
  · exact hs.congr rfl rfl rfl fun _ hk => hk
  all_goals
    have ready := hs.frameReady (.inl hst)
    obtain ⟨notReady, unarmed, noNew, noRetry, cursor⟩ := hs.engine.sending hst
  · obtain ⟨w, hlt, -, rfl, -⟩ := loadNext_next h
    exact FrameReady.sending_sound (ready.congr rfl rfl rfl rfl rfl) hst notReady unarmed noNew noRetry
      (.loaded hlt hrem cursor.sum)
  · cases h
    exact FrameReady.await_sound (ready.congr rfl rfl rfl rfl rfl) rfl notReady rfl nofun
  · exact violation_sound h (ready.congr rfl rfl rfl rfl rfl) notReady noNew

/-- WAKE (rule R201) leaves a sound session. -/
theorem wakeSession_sound (hs : SessionSound rom ss) (h : wakeSession rom ch now ss = .next (ss', cmds)) :
    SessionSound rom ss' := by
  rcases wakeSession_next h with ⟨-, rfl, -⟩ | ⟨-, hpr, p, -, h⟩ | ⟨-, hpr, hpn, p, -, h⟩ | ⟨-, hpr, hpn, rfl, -⟩
  · exact hs
  · exact startAttempt_sound h ((hs.frameReady (.inr (.inl hpr))).congr rfl rfl rfl rfl rfl) rfl
      (hs.engine.pendNew_of_pendRetry hpr) rfl
  · exact startAttempt_sound h ((hs.frameReady (.inr (.inr hpn))).congr rfl rfl rfl rfl rfl) rfl rfl hpr
  · exact
      { config := hs.config
        engine :=
          { idle := fun _ => ⟨rfl, rfl, hpn, hpr⟩
            sending := nofun
            await := nofun
            failed := nofun
            count := hs.engine.count
            retry := hs.engine.retry }
        frame := ⟨hs.frame.written, fun hi => absurd rfl hi, by simp [hpn, hpr]⟩ }

/-! ### Every operation and every step -/

@[simp] theorem capacityFault_fatal (ch : ChanId) (ss : Session) : (capacityFault ch ss).1.eng.fatal = true := rfl

/-- Whatever moves a session, it is sound behind the move unless it is FATAL, if it was sound before. -/
theorem SessionMove.sound {capTable : List ((Nat × Nat) × BitVec 16)} {enc : EncUnit} {c : Channel} {i : Instr}
    (h : SessionMove rom capTable enc ch c i (some ss') cmds) (alive : ss'.eng.fatal = false)
    (hs : ∀ ss, c.session = some ss → ss.eng.fatal = false → SessionSound rom ss) : SessionSound rom ss' := by
  cases h with
  | create w0 w1 w2 w3 m ids n empty check chans =>
    exact
      { config := cfgRegs_sound _ check chans
        engine :=
          { idle := fun _ => ⟨rfl, rfl, rfl, rfl⟩
            sending := nofun
            await := nofun
            failed := nofun
            count := Nat.zero_le _
            retry := Nat.zero_le _ }
        frame := ⟨nofun, fun hi => absurd rfl hi, fun _ => Nat.zero_le _⟩ }
  | overrun ss now frame f x full alive' parsed leds run => exact absurd alive (by simp)
  | frame ss now frame f x ss2 cmds2 full live parsed leds run accepted =>
    exact submit_sound (hs ss full live) parsed leds run accepted
  | read ss maxLen full live => exact (hs ss full live).congr rfl rfl rfl fun _ hk => hk
  | complete ss ss' now cmds full live moved => exact completeSession_sound (hs ss full live) moved
  | wake ss ss' now cmds full live moved => exact wakeSession_sound (hs ss full live) moved
  | encoded i ss x op own full grows => exact (hs ss full alive).congr rfl rfl rfl grows.kept
  | encOverrun i ss x op own full grows => exact absurd alive (by simp)

/-- Settles O58: a step leaves a session alone, or it makes one `SessionMove`, which keeps it sound. -/
theorem stepKeepsSound : Obligations.StepKeepsSound := by
  intro s t hs h ch ss' hss' alive
  rw [(step_move h).1.1]
  rcases step_session h ch with e | ⟨x, port, m, i, rest, c, n, cmds, -, -, -, -, hc, move, hn⟩
  · exact hs ch ss' (e ▸ hss') alive
  · rw [hss'] at hn
    subst hn
    exact move.sound alive fun ss full => hs ch ss (by rw [session?_of_channel hc, full])

end Sys2Proof.Machine
end

section
/-! What an operation or a step leaves of a session and of the channels it is not addressed to (10_state.md rules R21, R29,
R33 and R46). -/

namespace Sys2Proof.Machine

variable {rom : Rom} {capTable : List ((Nat × Nat) × BitVec 16)} {enc : EncUnit} {ch : ChanId} {c : Channel} {i : Instr}
  {ss ss' : Session} {cmds : List Instr} {n : Option Session}

/-! ### The capacity fault and the frame of SUBMIT -/

@[simp] theorem capacityFault_cfg (ch : ChanId) (ss : Session) : (capacityFault ch ss).1.cfg = ss.cfg := rfl
@[simp] theorem capacityFault_stats (ch : ChanId) (ss : Session) : (capacityFault ch ss).1.stats = ss.stats := rfl

/-- Before a SUBMIT encodes its frame it has counted the overrun and aborted the attempt. -/
theorem abort_countOverrun_keeps (ch : ChanId) (ss : Session) :
    (abort ch (countOverrun ss)).1.cfg = ss.cfg
      ∧ { (abort ch (countOverrun ss)).1.stats with overruns := 0 } = { ss.stats with overruns := 0 } := by
  obtain ⟨acfg, -, -, astats, -⟩ := abort_keeps ch (countOverrun ss)
  obtain ⟨kcfg, -, -, -, -, kstats⟩ := countOverrun_keeps ss
  exact ⟨acfg.trans kcfg, astats ▸ kstats⟩

/-! ### The configuration registers (rule R29) -/

theorem SessionMove.cfg_eq (h : SessionMove rom capTable enc ch c i (some ss') cmds) (hs : c.session = some ss) :
    ss'.cfg = ss.cfg := by
  cases h with
  | create w0 w1 w2 w3 m ids k empty => rw [empty] at hs; cases hs
  | overrun ss now frame f x full => cases full.symm.trans hs; exact (abort_countOverrun_keeps ch ss).1
  | frame ss now frame f x ss2 cmds2 full _ _ _ _ accepted =>
    cases full.symm.trans hs
    exact (accept_keeps accepted).1.trans (abort_countOverrun_keeps ch ss).1
  | read ss maxLen full => cases full.symm.trans hs; rfl
  | complete ss ss' now cmds full _ moved => cases full.symm.trans hs; exact (completeSession_keeps moved).1
  | wake ss ss' now cmds full _ moved => cases full.symm.trans hs; exact (wakeSession_keeps moved).1
  | encoded i ss x op own full => cases full.symm.trans hs; rfl
  | encOverrun i ss x op own full => cases full.symm.trans hs; rfl

/-- Settles O48: a step leaves a session alone, or it makes one `SessionMove`, and none writes a configuration register. -/
theorem configReadOnly : Obligations.ConfigReadOnly := by
  intro s t ch ss ss' h hs hs'
  rcases step_session h ch with e | ⟨x, port, m, i, rest, c, n, cmds, -, -, -, -, hc, move, hn⟩
  · rw [hs, hs'] at e; cases e; rfl
  · rw [hs'] at hn
    subst hn
    exact move.cfg_eq ((session?_of_channel hc).symm.trans hs)

/-! ### FATAL (rule R33) -/

/-- A move of a FATAL session leaves it FATAL, or it is the SHUTDOWN that empties its slot. -/
theorem SessionMove.fatal (h : SessionMove rom capTable enc ch c i n cmds) (hs : c.session = some ss)
    (hf : ss.eng.fatal = true) : (∃ ss', n = some ss' ∧ ss'.eng.fatal = true) ∨ (n = none ∧ i = .shutdown ch) := by
  have dead : ∀ {ss1 : Session}, c.session = some ss1 → ¬ss1.eng.fatal = false := by
    intro ss1 full alive
    cases full.symm.trans hs
    exact Bool.false_ne_true (alive.symm.trans hf)
  cases h with
  | create w0 w1 w2 w3 m ids k empty => rw [empty] at hs; cases hs
  | overrun ss1 now frame f x full alive => exact absurd alive (dead full)
  | frame ss1 now frame f x ss2 cmds2 full alive => exact absurd alive (dead full)
  | read ss1 maxLen full alive => exact absurd alive (dead full)
  | shutdown ss1 full => exact .inr ⟨rfl, rfl⟩
  | complete ss1 ss' now cmds full alive => exact absurd alive (dead full)
  | wake ss1 ss' now cmds full alive => exact absurd alive (dead full)
  | encoded i ss1 x op own full => cases full.symm.trans hs; exact .inl ⟨_, rfl, hf⟩
  | encOverrun i ss1 x op own full => exact .inl ⟨_, rfl, capacityFault_fatal ..⟩

/-- What decodes on a port has a row of the opcode map there, with the row's opcode, length and fields. -/
theorem decodeOn_row {p : Port} {m : List Byte} (h : decodeOn p m = .ok i) :
    ∃ opc tail r, m = opc :: tail ∧ r ∈ opRows ∧ r.opc = opc ∧ r.port = p ∧ r.fits m.length = true
      ∧ decodeFields r.op m = .ok i := by
  cases m with
  | nil => cases h
  | cons opc tail =>
    simp only [decodeOn] at h
    cases hr : rowOf opc with
    | none => rw [hr] at h; cases h
    | some r =>
      simp only [hr] at h
      split at h
      · rename_i hp
        unfold decodeRow at h
        split at h
        · rename_i hfits
          exact ⟨opc, tail, r, rfl, List.mem_of_find?_eq_some hr, by simpa using List.find?_some hr, hp, hfits, h⟩
        · cases h
      · cases h

theorem decodeFields_shutdown {op : Op} {m : List Byte} (h : decodeFields op m = .ok (.shutdown ch)) :
    op = .shutdown ∧ byteAt m 1 = ch := by
  cases op with
  | shutdown => cases h; exact ⟨rfl, rfl⟩
  | genConfigure =>
    simp only [decodeFields] at h
    split at h
    · cases h
    · split at h <;> cases h
  | _ => cases h

/-- The one message of SHUTDOWN, on the host port (30_encoding.md rules R91 and R94). -/
theorem decodeOn_shutdown {p : Port} {m : List Byte} (h : decodeOn p m = .ok (.shutdown ch)) :
    p = .host ∧ m = [0x05, ch] := by
  obtain ⟨opc, tail, r, rfl, hr, hopc, hp, hfits, hfields⟩ := decodeOn_row h
  obtain ⟨hop, hch⟩ := decodeFields_shutdown hfields
  have row : ∀ r ∈ opRows, r.op = .shutdown → r = ⟨.shutdown, 0x05, .host, 2, false⟩ := by decide
  cases row r hr hop
  obtain ⟨b, rfl⟩ : ∃ b, tail = [b] := List.length_eq_one_iff.1 (by simpa [OpRow.fits] using hfits)
  cases hopc
  cases hch
  exact ⟨hp.symm, rfl⟩

/-- Settles O49: the one move of a FATAL session that does not leave it FATAL is SHUTDOWN, which has one message. -/
theorem fatalIsSticky : Obligations.FatalIsSticky := by
  intro s t ch ss h hs hf
  rcases step_session h ch with e | ⟨x, port, m, i, rest, c, n, cmds, hx, hm, hd, -, hc, move, hn⟩
  · exact .inl ⟨ss, e.trans hs, hf⟩
  · subst hn
    refine (move.fatal ((session?_of_channel hc).symm.trans hs) hf).imp_right ?_
    rintro ⟨hnone, rfl⟩
    obtain ⟨rfl, rfl⟩ := decodeOn_shutdown hd
    refine ⟨hnone, _, rest, ?_, rfl⟩
    cases x <;> cases hm
    exact hx

/-! ### The statistics (rule R46) -/

theorem SessionMove.overruns_eq (h : SessionMove rom capTable enc ch c i (some ss') cmds) (hs : c.session = some ss)
    (hi : ∀ now frame, i ≠ .submit ch now frame) : ss'.stats.overruns = ss.stats.overruns := by
  cases h with
  | create w0 w1 w2 w3 m ids k empty => rw [empty] at hs; cases hs
  | overrun ss now frame => exact absurd rfl (hi now frame)
  | frame ss now frame => exact absurd rfl (hi now frame)
  | read ss maxLen full => cases full.symm.trans hs; rfl
  | complete ss ss' now cmds full _ moved =>
    cases full.symm.trans hs
    obtain ⟨-, -, -, -, -, overruns⟩ := completeSession_keeps moved
    exact overruns
  | wake ss ss' now cmds full _ moved =>
    cases full.symm.trans hs
    obtain ⟨-, -, stats, -⟩ := wakeSession_keeps moved
    rw [stats]
  | encoded i ss x op own full => cases full.symm.trans hs; rfl
  | encOverrun i ss x op own full => cases full.symm.trans hs; rfl

theorem SessionMove.other_stats_eq (h : SessionMove rom capTable enc ch c i (some ss') cmds) (hs : c.session = some ss)
    (hi : ∀ now, i ≠ .complete ch now) : { ss'.stats with overruns := 0 } = { ss.stats with overruns := 0 } := by
  cases h with
  | create w0 w1 w2 w3 m ids k empty => rw [empty] at hs; cases hs
  | overrun ss now frame f x full => cases full.symm.trans hs; exact (abort_countOverrun_keeps ch ss).2
  | frame ss now frame f x ss2 cmds2 full _ _ _ _ accepted =>
    cases full.symm.trans hs
    obtain ⟨-, -, stats, -⟩ := accept_keeps accepted
    rw [stats]
    exact (abort_countOverrun_keeps ch ss).2
  | read ss maxLen full => cases full.symm.trans hs; rfl
  | complete ss ss' now => exact absurd rfl (hi now)
  | wake ss ss' now cmds full _ moved =>
    cases full.symm.trans hs
    obtain ⟨-, -, stats, -⟩ := wakeSession_keeps moved
    rw [stats]
  | encoded i ss x op own full => cases full.symm.trans hs; rfl
  | encOverrun i ss x op own full => cases full.symm.trans hs; rfl

/-- Settles O50: of all the moves of a session, SUBMIT's alone write `S_OVERRUNS` and COMPLETE's alone the other
statistics. -/
theorem statisticsWriters : Obligations.StatisticsWriters := by
  intro i s t ch ss ss' h hs hs'
  rcases (exec_move h).2.session ch with e | ⟨c, n, cmds, -, hc, move, hn⟩
  · rw [hs, hs'] at e
    cases e
    exact ⟨fun _ => rfl, fun _ => rfl⟩
  · rw [hs'] at hn
    subst hn
    have full := (session?_of_channel hc).symm.trans hs
    exact ⟨move.overruns_eq full, move.other_stats_eq full⟩

/-! ### The other channels (rules R21 and R80) -/

/-- Settles O52: the one channel that an operation puts back is the one it is addressed to. -/
theorem otherChannelsUntouched : Obligations.OtherChannelsUntouched := by
  intro i s t ch h hne
  have other : ∀ {ch' : ChanId}, target i s = some ch' → ch ≠ ch' := fun ht e => hne (e ▸ ht)
  rcases (exec_move h).2 with ⟨same, -⟩ | ⟨ch', c, n, cmds, ht, -, -, put, -⟩ | ⟨ch', c, -, ht, -, put, -⟩
  · exact channel?_congr same ch
  · exact channel?_set_other (other ht) put
  · exact channel?_set_other (other ht) put

end Sys2Proof.Machine
end

section
/-! The optional statistics (10_state.md rule R45), and the session that a successful CFG creates (rule R52, 43_session.md
rules R241 to R244). -/

namespace Sys2Proof.Machine

/-! ### The optional statistics -/

/-- A delay of the signed 64-bit range is what its register holds. -/
theorem toInt_delayWord {d : Int} (low : -2 ^ 63 ≤ d) (high : d < 2 ^ 63) : (delayWord d).toInt = d :=
  BitVec.toInt_ofInt_eq_self (by decide) low high

theorem minDelayWith_some {d : Int} (low : -2 ^ 63 ≤ d) (high : d < 2 ^ 63) (o : BitVec 64) :
    ∃ v, minDelayWith (some o) d = some v ∧ v.toInt = min o.toInt d := by
  refine ⟨_, rfl, ?_⟩
  split
  · rw [toInt_delayWord low high]; omega
  · omega

theorem maxDelayWith_some {d : Int} (low : -2 ^ 63 ≤ d) (high : d < 2 ^ 63) (o : BitVec 64) :
    ∃ v, maxDelayWith (some o) d = some v ∧ v.toInt = max o.toInt d := by
  refine ⟨_, rfl, ?_⟩
  split
  · rw [toInt_delayWord low high]; omega
  · omega

theorem minUpdWith_some (o d : Ns64) : ∃ v, minUpdWith (some o) d = some v ∧ v.toNat = min o.toNat d.toNat := by
  refine ⟨_, rfl, ?_⟩
  split
  · rename_i h; have : d.toNat < o.toNat := h; omega
  · rename_i h; have : ¬d.toNat < o.toNat := h; omega

theorem maxUpdWith_some (o d : Ns64) : ∃ v, maxUpdWith (some o) d = some v ∧ v.toNat = max o.toNat d.toNat := by
  refine ⟨_, rfl, ?_⟩
  split
  · rename_i h; have : o.toNat < d.toNat := h; omega
  · rename_i h; have : ¬o.toNat < d.toNat := h; omega

/-- Settles O39: a new value takes the place of the old one exactly where the comparison of its kind says so. -/
theorem optionalStatistics : Obligations.OptionalStatistics :=
  ⟨fun _ low high => ⟨rfl, rfl, fun o => ⟨minDelayWith_some low high o, maxDelayWith_some low high o⟩⟩,
    fun d => ⟨rfl, rfl, fun o => ⟨minUpdWith_some o d, maxUpdWith_some o d⟩⟩⟩

/-! ### The capacity parameter (00_scope.md rule R5) -/

/-- The worst case of the longest frame, 2048 LEDs of 4 channels, is 3121 words, so that the 16 bits of CAP hold every
default. -/
theorem capWords_default {table : List ((Nat × Nat) × BitVec 16)} {ledMax c : Nat} (hled : ledMax ≤ 2048) (hc : c ≤ 4)
    (hno : ∀ w, ((ledMax, c), w) ∉ table) : (capWords table ledMax c).toNat = (ledMax * c * 8 + 20) / 21 := by
  have absent : table.find? (fun e => e.1 == (ledMax, c)) = none := by
    rw [List.find?_eq_none]
    rintro ⟨k, w⟩ hmem hk
    cases eq_of_beq hk
    exact hno w hmem
  have bound : ledMax * c ≤ 2048 * 4 := Nat.mul_le_mul hled hc
  rw [capWords, absent, BitVec.toNat_ofNat]
  exact Nat.mod_eq_of_lt (by unfold capWordsDefault ceilDiv; omega)

theorem capWords_cons (table : List ((Nat × Nat) × BitVec 16)) (ledMax c : Nat) (w : BitVec 16) :
    capWords (((ledMax, c), w) :: table) ledMax c = w := by simp [capWords]

/-! ### `CMAX` (00_scope.md rule R6) -/

/-- The fold of `CMAX` over a list that is not empty is attained in it and bounds it. -/
theorem foldr_channels_largest (e : RomId × LayoutProfile) (ls : List (RomId × LayoutProfile)) :
    (∃ a ∈ e :: ls, a.2.channels = (e :: ls).foldr (fun a m => max a.2.channels m) 0)
      ∧ ∀ a ∈ e :: ls, a.2.channels ≤ (e :: ls).foldr (fun a m => max a.2.channels m) 0 := by
  induction ls generalizing e with
  | nil => simp
  | cons f ls ih =>
    obtain ⟨⟨a, ha, hmax⟩, hle⟩ := ih f
    rw [List.foldr_cons]
    refine ⟨?_, ?_⟩
    · rcases Nat.le_total e.2.channels a.2.channels with h | h
      · exact ⟨a, List.mem_cons_of_mem _ ha, by omega⟩
      · exact ⟨e, List.mem_cons_self, by omega⟩
    · intro b hb
      rcases List.mem_cons.1 hb with rfl | hb
      · exact Nat.le_max_left _ _
      · exact Nat.le_trans (hle b hb) (Nat.le_max_right _ _)

/-- `CMAX` is attained by a layout, and bounds every layout. -/
theorem Rom.cmax_largest {rom : Rom} {n : Nat} (h : rom.cmax = some n) :
    (∃ a ∈ rom.tables.layouts, a.2.channels = n) ∧ ∀ a ∈ rom.tables.layouts, a.2.channels ≤ n := by
  obtain ⟨e, ls, hl⟩ := List.exists_cons_of_ne_nil (Rom.layouts_of_cmax h)
  rw [Rom.cmax, hl] at h
  cases h
  rw [hl]
  exact foldr_channels_largest e ls

theorem Rom.cmax_eq_some_iff {rom : Rom} {n : Nat} :
    rom.cmax = some n ↔
      (∃ id l, (id, l) ∈ rom.tables.layouts ∧ l.channels = n) ∧ ∀ id l, (id, l) ∈ rom.tables.layouts → l.channels ≤ n := by
  constructor
  · intro h
    obtain ⟨⟨a, ha, hn⟩, hle⟩ := Rom.cmax_largest h
    exact ⟨⟨a.1, a.2, ha, hn⟩, fun id l hl => hle (id, l) hl⟩
  · rintro ⟨⟨id, l, hl, rfl⟩, hle⟩
    obtain ⟨m, hm⟩ := Rom.cmax_of_layouts (List.ne_nil_of_mem hl)
    obtain ⟨⟨a, ha, hn⟩, hbound⟩ := Rom.cmax_largest hm
    rw [hm, Nat.le_antisymm (hn ▸ hle a.1 a.2 ha) (hbound (id, l) hl)]

/-! ### CFG (rule R241) -/

theorem cfgChannels_eq_some {rom : Rom} {m : Mode} {lay : RomId} {n : Nat} (hvar : m = .perFrame → rom.cmax = some n)
    (hfix : m ≠ .perFrame → ∃ l, rom.layout lay = some l ∧ l.channels = n) : cfgChannels rom m lay = some n := by
  cases m with
  | perFrame => exact hvar rfl
  | predef => obtain ⟨l, hl, rfl⟩ := hfix nofun; simp [cfgChannels, hl]
  | pair => obtain ⟨l, hl, rfl⟩ := hfix nofun; simp [cfgChannels, hl]

/-- CFG on an empty slot with operands that pass the checks fills the slot and answers OK. -/
theorem execCfg_created {s : State} {ch : ChanId} {c : Channel} {w0 w1 w2 w3 : BitVec 32} {m : Mode} {ids : RomId × RomId}
    {n : Nat} (hc : s.channel? ch = some c) (hs : c.session = none) (hk : cfgCheck s.rom w0 w1 w2 = .ok (m, ids))
    (hn : cfgChannels s.rom m ids.1 = some n) :
    execCfg ch w0 w1 w2 w3 s = .next
      (answer .ok []
        (commit ch c
          (some (Session.created (cfgRegs m ids (capWords s.capTable (cfgLedCount w1).toNat n) w0 w1 w2 w3))) [] s)) := by
  simp only [execCfg, hc, hs, hk, createSession, hn]

/-- A step that emits no command writes its slot and nothing else. -/
theorem commit_nil (ch : ChanId) (c : Channel) (n : Option Session) (s : State) :
    commit ch c n [] s = s.setChannel ch { c with session := n } := by
  simp [commit, State.setChannel]

/-- Settles O13: the two parameters have their closed forms, and a CFG that passes its checks creates the session of rule
R52. -/
theorem cfgCreatesSession : Obligations.CfgCreatesSession := by
  refine ⟨fun _ _ _ hled hc hno => capWords_default hled hc hno, capWords_cons, fun _ _ => Rom.cmax_eq_some_iff, ?_⟩
  intro s ch c w0 w1 w2 w3 m lay chp n hc hs hk hvar hfix
  have led : (cfgLedCount w1).toNat = w1.toNat % 2 ^ 12 := BitVec.toNat_ofNat w1.toNat 12
  rw [show exec (.cfg ch w0 w1 w2 w3) s = execCfg ch w0 w1 w2 w3 s from rfl,
    execCfg_created hc hs hk (cfgChannels_eq_some hvar hfix), commit_nil, led]
  rfl

end Sys2Proof.Machine
end

section
/-! What a command or event does to its channel depends on no other channel (20_memory.md rule R80, 10_state.md
rule R21). -/

namespace Sys2Proof.Machine

variable {ch : ChanId} {s s1 s2 t : State} {c : Channel} {d : Option Channel} {o a : List (List Byte)}
  {r1 r2 : Result State} {α : Type}

/-! ### What a step leaves and sends -/

/-- A step leaves `d` at channel `ch`, sends the commands `o` and gives the answers `a`. -/
structure Leaves (ch : ChanId) (s t : State) (d : Option Channel) (o a : List (List Byte)) : Prop where
  channel : t.channel? ch = d
  outs    : t.outs = s.outs ++ o
  answers : t.answers = s.answers ++ a

theorem Leaves.refl (h : s.channel? ch = d) : Leaves ch s s d [] [] :=
  ⟨h, (List.append_nil _).symm, (List.append_nil _).symm⟩

theorem Leaves.answer (h : Leaves ch s t d o []) (code : Code) (rest : List Byte) :
    Leaves ch s (answer code rest t) d o [code.byte :: rest] :=
  ⟨h.channel, h.outs, by rw [answer_answers, h.answers, List.append_nil]⟩

theorem Leaves.enc (h : Leaves ch s t d o a) (e : EncUnit) : Leaves ch s { t with enc := e } d o a :=
  ⟨h.channel, h.outs, h.answers⟩

theorem Leaves.commit (h : Leaves ch s t (some c) o a) (n : Option Session) (cmds : List Instr) :
    Leaves ch s (commit ch c n cmds t) (some (deviceEffects cmds { c with session := n })) (o ++ cmds.map encode) a :=
  ⟨commit_channel_same h.channel, by rw [commit_outs, h.outs, List.append_assoc], h.answers⟩

/-! ### Two runs of one rule -/

/-- Where the rule's run from `s1` goes on, its run from `s2` goes on, and they leave, send and answer the same. -/
def Alike (ch : ChanId) (s1 s2 : State) (r1 r2 : Result State) : Prop :=
  ∀ t1, r1 = .next t1 → ∃ t2 d o a, r2 = .next t2 ∧ Leaves ch s1 t1 d o a ∧ Leaves ch s2 t2 d o a

theorem Leaves.alike {t1 t2 : State} (h1 : Leaves ch s1 t1 d o a) (h2 : Leaves ch s2 t2 d o a) :
    Alike ch s1 s2 (.next t1) (.next t2) := by
  intro t ht
  cases ht
  exact ⟨t2, d, o, a, rfl, h1, h2⟩

theorem alike_answer (h : s1.channel? ch = s2.channel? ch) (code : Code) (rest : List Byte) :
    Alike ch s1 s2 (.next (answer code rest s1)) (.next (answer code rest s2)) :=
  ((Leaves.refl h).answer code rest).alike ((Leaves.refl rfl).answer code rest)

theorem alike_commit (h : s1.channel? ch = s2.channel? ch) (hc : s2.channel? ch = some c) (n : Option Session)
    (cmds : List Instr) : Alike ch s1 s2 (.next (commit ch c n cmds s1)) (.next (commit ch c n cmds s2)) :=
  ((Leaves.refl (h.trans hc)).commit n cmds).alike ((Leaves.refl hc).commit n cmds)

theorem alike_answer_commit {t1 t2 : State} (h1 : Leaves ch s1 t1 (some c) [] []) (h2 : Leaves ch s2 t2 (some c) [] [])
    (n : Option Session) (cmds : List Instr) (code : Code) (rest : List Byte) :
    Alike ch s1 s2 (.next (answer code rest (commit ch c n cmds t1)))
      (.next (answer code rest (commit ch c n cmds t2))) :=
  ((h1.commit n cmds).answer code rest).alike ((h2.commit n cmds).answer code rest)

theorem alike_andThen {r : Result α} {f1 f2 : α → Result State} (h : ∀ x, Alike ch s1 s2 (f1 x) (f2 x)) :
    Alike ch s1 s2 (andThen r f1) (andThen r f2) := by
  intro t1 ht
  obtain ⟨x, rfl, hx⟩ := andThen_next ht
  exact h x t1 hx

theorem alike_withSession {f1 f2 : Channel → Session → Result State} (h : s1.channel? ch = s2.channel? ch)
    (hf : ∀ c ss, s2.channel? ch = some c → Alike ch s1 s2 (f1 c ss) (f2 c ss)) :
    Alike ch s1 s2 (withSession ch s1 f1) (withSession ch s2 f2) := by
  unfold withSession
  rw [h]
  split
  · exact alike_answer h .badChannel []
  · rename_i c hc
    split
    · exact alike_answer h .noSession []
    · split
      · exact alike_answer h .fatal []
      · exact hf c _ hc

theorem alike_onEvent {f1 f2 : Channel → Session → Result State} (h : s1.channel? ch = s2.channel? ch)
    (hf : ∀ c ss, s2.channel? ch = some c → Alike ch s1 s2 (f1 c ss) (f2 c ss)) :
    Alike ch s1 s2 (onEvent ch s1 f1) (onEvent ch s2 f2) := by
  have ignored : Alike ch s1 s2 (.next s1) (.next s2) := (Leaves.refl h).alike (Leaves.refl rfl)
  unfold onEvent
  rw [h]
  split
  · exact ignored
  · rename_i c hc
    split
    · exact ignored
    · split
      · exact ignored
      · exact hf c _ hc

/-! ### The host commands and the two events -/

section

variable (hch : s1.channel? ch = s2.channel? ch)
include hch

theorem alike_execCfg (hrom : s1.rom = s2.rom) (hcap : s1.capTable = s2.capTable) (w0 w1 w2 w3 : BitVec 32) :
    Alike ch s1 s2 (execCfg ch w0 w1 w2 w3 s1) (execCfg ch w0 w1 w2 w3 s2) := by
  unfold execCfg
  rw [hrom, hch]
  split
  · exact alike_answer hch .badChannel []
  · rename_i c hc
    split
    · split
      · exact alike_answer hch .fatal []
      · exact alike_answer hch .cfgExists []
    · split
      · exact alike_answer hch _ []
      · unfold createSession
        rw [hrom, hcap]
        split
        · exact fun _ ht => nomatch ht
        · exact alike_answer_commit (.refl (hch.trans hc)) (.refl hc) _ [] .ok []

theorem alike_submitFrame (hc : s2.channel? ch = some c) (now : Ns64) (f : Frame) (ss : Session) :
    Alike ch s1 s2 (submitFrame ch now f c ss s1) (submitFrame ch now f c ss s2) := by
  have l1 := (Leaves.refl (hch.trans hc)).enc (encDiscarded ch f.chip (f.encoded ss.cfg))
  have l2 := (Leaves.refl hc).enc (encDiscarded ch f.chip (f.encoded ss.cfg))
  unfold submitFrame
  dsimp only
  split
  · exact alike_answer_commit l1 l2 _ _ .capacity []
  · exact alike_andThen fun _ => alike_answer_commit l1 l2 _ _ .ok _

theorem alike_execSubmit (hrom : s1.rom = s2.rom) (now : Ns64) (frame : List Byte) :
    Alike ch s1 s2 (execSubmit ch now frame s1) (execSubmit ch now frame s2) := by
  refine alike_withSession hch fun c ss hc => ?_
  unfold submitSession
  rw [hrom]
  split
  · split
    · exact fun _ ht => nomatch ht
    · exact alike_answer hch _ []
  · split
    · exact alike_answer hch .ok (bytes32 0)
    · exact alike_submitFrame hch hc now _ ss

theorem alike_execStatus : Alike ch s1 s2 (execStatus ch s1) (execStatus ch s2) :=
  alike_withSession hch fun _ ss _ => alike_answer hch .ok (snapshotRecord ss)

theorem alike_execStatusRead (maxLen : BitVec 32) :
    Alike ch s1 s2 (execStatusRead ch maxLen s1) (execStatusRead ch maxLen s2) := by
  unfold execStatusRead
  split
  · exact alike_answer hch .badLength []
  · exact alike_withSession hch fun _ _ hc => alike_answer_commit (.refl (hch.trans hc)) (.refl hc) _ [] .ok _

theorem alike_execShutdown : Alike ch s1 s2 (execShutdown ch s1) (execShutdown ch s2) := by
  unfold execShutdown
  rw [hch]
  split
  · exact alike_answer hch .badChannel []
  · rename_i c hc
    split
    · exact alike_answer hch .noSession []
    · exact alike_answer_commit (.refl (hch.trans hc)) (.refl hc) none _ .ok []

theorem alike_execComplete (hrom : s1.rom = s2.rom) (now : Ns64) :
    Alike ch s1 s2 (execComplete ch now s1) (execComplete ch now s2) := by
  refine alike_onEvent hch fun c ss hc => ?_
  rw [hrom]
  exact alike_andThen fun _ => alike_commit hch hc _ _

theorem alike_execWake (hrom : s1.rom = s2.rom) (now : Ns64) :
    Alike ch s1 s2 (execWake ch now s1) (execWake ch now s2) := by
  refine alike_onEvent hch fun c ss hc => ?_
  rw [hrom]
  exact alike_andThen fun _ => alike_commit hch hc _ _

end

/-- Settles O53: each host command and each event reads the ROM, the capacity parameter and its own channel alone, so
that two runs that agree there go on alike. -/
theorem sessionsAreIndependent : Obligations.SessionsAreIndependent := by
  intro i s1 s2 t1 ch hport htarget hrom hcap hch hexec
  have alike : Alike ch s1 s2 (exec i s1) (exec i s2) := by
    cases i with
    | cfg ch' w0 w1 w2 w3 => cases htarget; exact alike_execCfg hch hrom hcap w0 w1 w2 w3
    | submit ch' now frame => cases htarget; exact alike_execSubmit hch hrom now frame
    | status ch' => cases htarget; exact alike_execStatus hch
    | statusRead ch' maxLen => cases htarget; exact alike_execStatusRead hch maxLen
    | shutdown ch' => cases htarget; exact alike_execShutdown hch
    | complete ch' now => cases htarget; exact alike_execComplete hch hrom now
    | wake ch' now => cases htarget; exact alike_execWake hch hrom now
    | _ => exact hport.elim nofun nofun
  obtain ⟨t2, d, o, a, h2, l1, l2⟩ := alike t1 hexec
  exact ⟨t2, d, o, a, h2, l1.channel, l2.channel, l1.outs, l2.outs, l1.answers, l2.answers⟩

end Sys2Proof.Machine
end

section
/-! Who writes the output buffers and in what form they stay (20_memory.md rules R60, R69 and R83), and what no step writes
at all (20_memory.md rule R63, 70_reset_and_hazards.md rule R352). -/

namespace Sys2Proof.Machine

variable {rom : Rom} {capTable : List ((Nat × Nat) × BitVec 16)} {enc : EncUnit} {ch : ChanId} {c : Channel} {i : Instr}
  {s t : State} {ss ss' : Session} {cmds : List Instr}

/-! ### The buffer across one move of a session -/

theorem After.of_error {P Q : EncRun → Prop} {r : Except EncRun EncRun} {x : EncRun} (h : After P Q r)
    (hr : r = .error x) : Q x := by
  subst hr; exact h

/-- Whatever moves a session, its buffer is canonical behind the move, if it was before. -/
theorem SessionMove.buf_wf (h : SessionMove rom capTable enc ch c i (some ss') cmds)
    (hw : ∀ ss, c.session = some ss → Memory.wf ss.buf) : Memory.wf ss'.buf := by
  cases h with
  | create => exact Memory.wf_nil
  | overrun ss now frame f x full _ _ _ run => exact ((encodeFrame_grows _ _).of_error run).wf (hw ss full)
  | frame ss now frame f x ss2 cmds2 full _ _ _ run accepted =>
    obtain ⟨-, buf, -⟩ := accept_keeps accepted
    exact buf ▸ ((encodeFrame_grows _ _).of_ok run).wf (hw ss full)
  | read ss maxLen full => exact hw ss full
  | complete ss ss2 now cmds full _ moved =>
    obtain ⟨-, buf, -⟩ := completeSession_keeps moved
    exact buf ▸ hw ss full
  | wake ss ss2 now cmds full _ moved =>
    obtain ⟨-, buf, -⟩ := wakeSession_keeps moved
    exact buf ▸ hw ss full
  | encoded i ss x op own full grows => exact grows.wf (hw ss full)
  | encOverrun i ss x op own full grows => exact grows.wf (hw ss full)

/-- The moves that are neither SUBMIT's nor the encoder's leave the buffer alone. -/
theorem SessionMove.buf_eq (h : SessionMove rom capTable enc ch c i (some ss') cmds) (hs : c.session = some ss)
    (hsubmit : ∀ now frame, i ≠ .submit ch now frame) (henc : i ∉ [.encBit0, .encBit1, .encPad, .encode]) :
    ss'.buf = ss.buf := by
  cases h with
  | create w0 w1 w2 w3 m ids k empty => rw [empty] at hs; cases hs
  | overrun ss1 now frame => exact absurd rfl (hsubmit now frame)
  | frame ss1 now frame => exact absurd rfl (hsubmit now frame)
  | read ss1 maxLen full => cases full.symm.trans hs; rfl
  | complete ss1 ss2 now cmds full _ moved =>
    cases full.symm.trans hs
    obtain ⟨-, buf, -⟩ := completeSession_keeps moved
    exact buf
  | wake ss1 ss2 now cmds full _ moved =>
    cases full.symm.trans hs
    obtain ⟨-, buf, -⟩ := wakeSession_keeps moved
    exact buf
  | encoded i ss1 x op => exact absurd op henc
  | encOverrun i ss1 x op => exact absurd op henc

/-! ### The buffers across a step -/

/-- Settles O57: a step leaves a session alone, or it makes one `SessionMove`, which keeps its buffer
canonical. -/
theorem stepKeepsBuffersCanonical : Obligations.StepKeepsBuffersCanonical := by
  intro s t hcanonical h ch ss' hss'
  rcases step_session h ch with e | ⟨x, port, m, i, rest, c, n, cmds, -, -, -, -, hc, move, hn⟩
  · exact hcanonical ch ss' (e ▸ hss')
  · rw [hss'] at hn
    subst hn
    exact move.buf_wf fun ss hs => hcanonical ch ss ((session?_of_channel hc).trans hs)

/-- Settles O51: an operation leaves a session alone, or it makes one `SessionMove`, and of these only SUBMIT's and the
encoder's write the buffer. -/
theorem bufferWriters : Obligations.BufferWriters := by
  intro i s t ch ss ss' h hsubmit henc hs hs' k
  rcases (exec_move h).2.session ch with e | ⟨c, n, cmds, -, hc, move, hn⟩
  · rw [hs, hs'] at e
    cases e
    rfl
  · rw [hs'] at hn
    subst hn
    rw [move.buf_eq ((session?_of_channel hc).symm.trans hs) hsubmit henc]

/-! ### The parameters -/

/-- An operation puts a channel back where it was. -/
theorem ExecMove.chans_length (h : ExecMove i s t) : t.chans.length = s.chans.length := by
  rcases h with ⟨same, -⟩ | ⟨ch, c, n, cmds, -, -, -, put, -⟩ | ⟨ch, c, -, -, -, put, -⟩
  · rw [same]
  · rw [put, List.length_set]
  · rw [put, List.length_set]

/-- Settles O10: a step copies the ROM and the capacity table, and it makes one move, which puts at most one channel back. -/
theorem romConstant : Obligations.RomConstant := by
  intro s t h
  obtain ⟨⟨hrom, hcap⟩, move⟩ := step_move h
  refine ⟨hrom, hcap, ?_⟩
  rcases move with ⟨same, -⟩ | ⟨x, p, m, i, rest, -, -, -, he⟩ | ⟨ch, c, c', -, -, put, -⟩
  · rw [same]
  · exact (exec_move he).2.chans_length
  · rw [put, List.length_set]

end Sys2Proof.Machine
end

section
/-! No input of the surroundings stops the block (20_memory.md rule R77, 60_exceptions.md rules R311, R318 and R322): each
part of an operation goes on from a sound session. -/

namespace Sys2Proof.Machine

variable {rom : Rom} {ch : ChanId} {p : ChipProfile} {now : Ns64} {ss : Session} {s : State} {α β : Type}

/-! ### Going on -/

/-- A part of a step has a value: no fault and no refusal stops it. -/
def GoesOn (r : Result α) : Prop := ∃ a, r = .next a

theorem goesOn_next (a : α) : GoesOn (.next a : Result α) := ⟨a, rfl⟩

theorem GoesOn.andThen {r : Result α} {f : α → Result β} (h : GoesOn r) (hf : ∀ a, GoesOn (f a)) :
    GoesOn (andThen r f) := by
  obtain ⟨a, rfl⟩ := h
  exact hf a

/-- The session checks stop nothing (43_session.md rule R240). -/
theorem goesOn_withSession {f : Channel → Session → Result State} (hf : ∀ c ss, Live s ch c ss → GoesOn (f c ss)) :
    GoesOn (withSession ch s f) := by
  unfold withSession
  split
  · exact goesOn_next _
  · rename_i c hc
    split
    · exact goesOn_next _
    · rename_i ss hs
      split
      · exact goesOn_next _
      · rename_i alive
        exact hf c ss ⟨hc, hs, by simpa using alive⟩

theorem goesOn_onEvent {f : Channel → Session → Result State} (hf : ∀ c ss, Live s ch c ss → GoesOn (f c ss)) :
    GoesOn (onEvent ch s f) := by
  unfold onEvent
  split
  · exact goesOn_next _
  · rename_i c hc
    split
    · exact goesOn_next _
    · rename_i ss hs
      split
      · exact goesOn_next _
      · rename_i alive
        exact hf c ss ⟨hc, hs, by simpa using alive⟩

theorem State.Sound.of_live {c : Channel} (h : s.Sound) (hl : Live s ch c ss) : SessionSound s.rom ss :=
  h ch ss ((session?_of_channel hl.channel).trans hl.session) hl.alive

/-! ### The engine's procedures (42_engine.md section 2) -/

theorem goesOn_frameChip (h : (rom.chip ss.latch.chip).isSome = true) : GoesOn (frameChip rom ch ss) := by
  obtain ⟨p, hp⟩ := Option.isSome_iff_exists.1 h
  exact ⟨p, frameChip_of_some hp⟩

/-- LoadNext goes on while the cursor is within the written words (rules R41 and R193). -/
theorem goesOn_loadNext (hlt : ss.eng.next < ss.eng.wcount)
    (hw : ∀ k, k < ss.eng.wcount.toNat → (Memory.read ss.buf k).isSome = true) : GoesOn (loadNext ch now ss) := by
  obtain ⟨w, hw⟩ := Option.isSome_iff_exists.1 (hw _ hlt)
  exact ⟨_, loadNext_of_word hlt hw⟩

/-- StartAttempt goes on for a frame with a word, all of it written (rule R192). -/
theorem goesOn_startAttempt (hone : 1 ≤ ss.eng.wcount.toNat)
    (hw : ∀ k, k < ss.eng.wcount.toNat → (Memory.read ss.buf k).isSome = true) : GoesOn (startAttempt ch p now ss) := by
  obtain ⟨w, hw⟩ := Option.isSome_iff_exists.1 (hw 0 hone)
  exact ⟨_, startAttempt_of_word hone hw⟩

theorem goesOn_accept (hone : 1 ≤ ss.eng.wcount.toNat)
    (hw : ∀ k, k < ss.eng.wcount.toNat → (Memory.read ss.buf k).isSome = true) : GoesOn (accept ch p now ss) := by
  unfold accept
  cases ss.eng.st with
  | await => exact goesOn_next _
  | failed => exact goesOn_next _
  | idle => exact goesOn_startAttempt hone hw
  | sending => exact goesOn_startAttempt hone hw

/-! ### The two events -/

/-- COMPLETE goes on: a SENDING engine has its frame's chip, and a word where `REMAIN` says so (rule R195). -/
theorem goesOn_completeSession (hs : SessionSound rom ss) : GoesOn (completeSession rom ch now ss) := by
  unfold completeSession
  by_cases hst : ss.eng.st = .sending
  · have ready := hs.frameReady (.inl hst)
    obtain ⟨-, -, -, -, cursor⟩ := hs.engine.sending hst
    rw [if_neg (not_not_intro hst)]
    dsimp only
    split
    · unfold completeInTime
      split
      · rename_i hrem
        have hpos : ss.eng.remain.toNat ≠ 0 := fun h0 => hrem (BitVec.eq_of_toNat_eq h0)
        have hsum := cursor.sum
        exact goesOn_loadNext (BitVec.lt_def.2 (by simp only; omega)) ready.written
      · exact (goesOn_frameChip ready.chip.1).andThen fun _ => goesOn_next _
    · exact (goesOn_frameChip ready.chip.1).andThen fun _ => goesOn_next _
  · rw [if_pos hst]
    exact goesOn_next _

/-- WAKE goes on: a session with an attempt due has a frame that is ready for it (rule R201). -/
theorem goesOn_wakeSession (hs : SessionSound rom ss) : GoesOn (wakeSession rom ch now ss) := by
  unfold wakeSession
  split
  · exact goesOn_next _
  · split
    · rename_i hretry
      have ready := hs.frameReady (.inr (.inl hretry))
      exact (goesOn_frameChip ready.chip.1).andThen fun _ => goesOn_startAttempt ready.chip.2 ready.written
    · split
      · rename_i hnew
        have ready := hs.frameReady (.inr (.inr hnew))
        exact (goesOn_frameChip ready.chip.1).andThen fun _ => goesOn_startAttempt ready.chip.2 ready.written
      · exact goesOn_next _

/-! ### The host commands -/

/-- A CFG that passes its checks knows the channels of its LEDs, where VARIABLE mode has a layout (00_scope.md rule R6,
70_reset_and_hazards.md rule R353). -/
theorem cfgChannels_of_cfgCheck {w0 w1 w2 : BitVec 32} {m : Mode} {ids : RomId × RomId} (hlay : rom.tables.layouts ≠ [])
    (h : cfgCheck rom w0 w1 w2 = .ok (m, ids)) : ∃ n, cfgChannels rom m ids.1 = some n := by
  obtain ⟨n, hn⟩ := Rom.cmax_of_layouts hlay
  by_cases hm : m = .perFrame
  · exact ⟨n, cfgChannels_eq_some (fun _ => hn) fun hne => absurd hm hne⟩
  · obtain ⟨-, -, hsel⟩ := cfgCheck_ok h
    obtain ⟨l, hl⟩ := Option.isSome_iff_exists.1 (cfgSelection_mapped hsel hm).1
    exact ⟨l.channels, cfgChannels_eq_some (fun he => absurd he hm) fun _ => ⟨l, hl, rfl⟩⟩

theorem goesOn_execCfg (hlay : s.HasLayout) (w0 w1 w2 w3 : BitVec 32) : GoesOn (execCfg ch w0 w1 w2 w3 s) := by
  unfold execCfg
  split
  · exact goesOn_next _
  · split
    · split
      · exact goesOn_next _
      · exact goesOn_next _
    · split
      · exact goesOn_next _
      · rename_i m ids hk
        obtain ⟨n, hn⟩ := cfgChannels_of_cfgCheck hlay hk
        rw [createSession, hn]
        exact goesOn_next _

/-- In the fixed modes a frame has no bad id where CFG's ids are in the ROM (43_session.md rule R246). -/
theorem parseFrame_fixed {cfg : CfgRegs} (hcfg : ConfigSound rom cfg) (hm : cfg.mode ≠ .perFrame) (frame : List Byte) :
    ∃ f, parseFrame rom cfg frame = .ok f := by
  have head : frameHead cfg frame = .ok (fixedHead cfg frame) := by
    cases hmode : cfg.mode with
    | perFrame => exact absurd hmode hm
    | predef => simp only [frameHead, hmode]
    | pair => simp only [frameHead, hmode]
  obtain ⟨layout, chip⟩ := hcfg.fixed hm
  obtain ⟨l, hl⟩ := Option.isSome_iff_exists.1 layout
  obtain ⟨p, hp⟩ := Option.isSome_iff_exists.1 chip
  simp [parseFrame, head, fixedHead, hl, hp]

/-- A frame with an LED is encoded to a word at least, or it overruns the capacity (43_session.md rules R245 and R257). -/
theorem goesOn_submitFrame {frame : List Byte} {f : Frame} {c : Channel} (hp : parseFrame rom ss.cfg frame = .ok f)
    (hn : f.leds ss.cfg ≠ 0) : GoesOn (submitFrame ch now f c ss s) := by
  unfold submitFrame
  dsimp only
  split
  · exact goesOn_next _
  · rename_i x hx
    obtain ⟨words, one⟩ := encodeFrame_words hx (Frame.encoded_ne_nil hp hn)
    exact (goesOn_accept one words.written).andThen fun _ => goesOn_next _

theorem goesOn_submitSession {c : Channel} (hs : SessionSound s.rom ss) (frame : List Byte) :
    GoesOn (submitSession ch now frame c ss s) := by
  unfold submitSession
  split
  · rename_i e he
    split
    · rename_i hm
      obtain ⟨f, hf⟩ := parseFrame_fixed hs.config hm frame
      rw [he] at hf
      cases hf
    · exact goesOn_next _
  · rename_i f hf
    split
    · exact goesOn_next _
    · rename_i hn
      exact goesOn_submitFrame hf hn

theorem goesOn_execShutdown (ch : ChanId) (s : State) : GoesOn (execShutdown ch s) := by
  unfold execShutdown
  split
  · exact goesOn_next _
  · split
    · exact goesOn_next _
    · exact goesOn_next _

theorem goesOn_execStatusRead (maxLen : BitVec 32) : GoesOn (execStatusRead ch maxLen s) := by
  unfold execStatusRead
  split
  · exact goesOn_next _
  · exact goesOn_withSession fun _ _ _ => goesOn_next _

/-! ### Every input -/

/-- Every command of the host and every event goes on from a sound state. -/
theorem goesOn_exec {i : Instr} (hport : portOf i = .host ∨ portOf i = .platform) (hs : s.Sound) (hlay : s.HasLayout) :
    GoesOn (exec i s) := by
  cases i with
  | cfg ch w0 w1 w2 w3 => exact goesOn_execCfg hlay w0 w1 w2 w3
  | submit ch now frame => exact goesOn_withSession fun c ss hl => goesOn_submitSession (hs.of_live hl) frame
  | status ch => exact goesOn_withSession fun _ _ _ => goesOn_next _
  | statusRead ch maxLen => exact goesOn_execStatusRead maxLen
  | shutdown ch => exact goesOn_execShutdown ch s
  | complete ch now =>
    exact goesOn_onEvent fun c ss hl => (goesOn_completeSession (hs.of_live hl)).andThen fun _ => goesOn_next _
  | wake ch now =>
    exact goesOn_onEvent fun c ss hl => (goesOn_wakeSession (hs.of_live hl)).andThen fun _ => goesOn_next _
  | _ => exact hport.elim nofun nofun

/-- Every message on an input port goes on: it is one of the port's operations, or it is answered or ignored (30_encoding.md
rule R113). -/
theorem goesOn_receive {port : Port} (hport : port = .host ∨ port = .platform) (hs : s.Sound) (hlay : s.HasLayout)
    (m : List Byte) : GoesOn (receive port m s) := by
  cases hd : decodeOn port m with
  | ok i =>
    rw [receive_ok s hd]
    rw [← portOf_of_decodeOn hd] at hport
    exact goesOn_exec hport hs hlay
  | error e =>
    rw [receive_error s hd]
    rcases hport with rfl | rfl
    · exact goesOn_next _
    · exact goesOn_next _

theorem goesOn_handle {x : Input} (hx : x.external = true) (hs : s.Sound) (hlay : s.HasLayout) : GoesOn (handle x s) := by
  cases x with
  | message port m =>
    cases port with
    | host => exact goesOn_receive (.inl rfl) hs hlay m
    | platform => exact goesOn_receive (.inr rfl) hs hlay m
    | output => cases hx
    | internal => cases hx
  | raised m => exact goesOn_receive (.inr rfl) hs hlay m
  | stray m => exact goesOn_receive (.inr rfl) hs hlay m
  | genDone ch now place => exact goesOn_next _
  | genLost ch => exact goesOn_next _
  | tmrFire ch now place => exact goesOn_next _

/-- Settles O59: there is nothing to do, or the input at the head of the inbox goes on, since the state without it is as
sound. -/
theorem surroundingsNeverStopTheBlock : Obligations.SurroundingsNeverStopTheBlock := by
  intro s hs hlay hext
  rcases step_cases s with ⟨-, h⟩ | ⟨x, rest, hx, h⟩
  · exact ⟨s, h⟩
  · rw [h]
    exact goesOn_handle (s := { s with inbox := rest }) (hext x rest hx) hs hlay

end Sys2Proof.Machine
end

section
/-! Times (20_memory.md rule R62, 60_exceptions.md rules R315 and R318): what `FRAME_T0` is set to, which times an inbox
holds behind a step, and that predictions, deadlines and durations do not wrap. -/

namespace Sys2Proof.Machine

variable {rom : Rom} {capTable : List ((Nat × Nat) × BitVec 16)} {enc : EncUnit} {ch : ChanId} {c : Channel} {i : Instr}
  {s t : State} {ss ss' : Session} {cmds : List Instr} {p : ChipProfile} {now : Ns64}

/-! ### The start of a frame (10_state.md rule R37) -/

theorem startAttempt_frameT0 (h : startAttempt ch p now ss = .next (ss', cmds)) : ss'.eng.frameT0 = ss.eng.frameT0 := by
  obtain ⟨w, -, -, rfl, -⟩ := startAttempt_next h
  rfl

/-- Accept starts a frame now, or it queues it and leaves the running one's start (rule R204). -/
theorem accept_frameT0 (h : accept ch p now ss = .next (ss', cmds)) :
    ss'.eng.frameT0 = ss.eng.frameT0 ∨ ss'.eng.frameT0 = now := by
  rcases accept_next h with ⟨-, rfl, -⟩ | ⟨-, h⟩
  · exact .inl rfl
  · exact .inr (startAttempt_frameT0 h)

theorem abort_countOverrun_frameT0 (ch : ChanId) (ss : Session) :
    (abort ch (countOverrun ss)).1.eng.frameT0 = ss.eng.frameT0 := by
  have abort_eq : (abort ch (countOverrun ss)).1.eng.frameT0 = (countOverrun ss).eng.frameT0 := by
    by_cases h : (countOverrun ss).eng.st = .sending
    · rw [abort_sending h]
    · rw [abort_other h]
  obtain ⟨-, eng, -⟩ := countOverrun_keeps ss
  rw [abort_eq, eng]

theorem completeSession_frameT0 (h : completeSession rom ch now ss = .next (ss', cmds)) :
    ss'.eng.frameT0 = ss.eng.frameT0 := by
  rcases completeSession_next h with ⟨-, rfl, -⟩ | ⟨-, -, -, h⟩ | ⟨-, -, -, p, -, h⟩ | ⟨-, -, p, -, h⟩
  · rfl
  · obtain ⟨w, -, -, rfl, -⟩ := loadNext_next h
    rfl
  · cases h
    rfl
  · rcases violation_cases ch p now (delayOf now ss.eng.expectT) { ss with stats := ss.stats.signalled }
      with ⟨-, e⟩ | ⟨-, e⟩
    · rw [e] at h; cases h; rfl
    · rw [e] at h; cases h; rfl

/-- WAKE starts a queued frame now, or it leaves the running one's start (rule R201). -/
theorem wakeSession_frameT0 (h : wakeSession rom ch now ss = .next (ss', cmds)) :
    ss'.eng.frameT0 = ss.eng.frameT0 ∨ ss'.eng.frameT0 = now := by
  rcases wakeSession_next h with ⟨-, rfl, -⟩ | ⟨-, -, p, -, h⟩ | ⟨-, -, -, p, -, h⟩ | ⟨-, -, -, rfl, -⟩
  · exact .inl rfl
  · have kept := startAttempt_frameT0 h
    exact .inl kept
  · exact .inr (startAttempt_frameT0 h)
  · exact .inl rfl

/-- Behind any move, a session's frame started at 0 (there is none yet), when it had, or at the operation's own time. -/
theorem SessionMove.frameT0 (h : SessionMove rom capTable enc ch c i (some ss') cmds) :
    ss'.eng.frameT0 = 0 ∨ (∃ ss, c.session = some ss ∧ ss'.eng.frameT0 = ss.eng.frameT0)
      ∨ timeOf i = some (ch, ss'.eng.frameT0) := by
  cases h with
  | create => exact .inl rfl
  | overrun ss now frame f x full => exact .inr (.inl ⟨ss, full, abort_countOverrun_frameT0 ch ss⟩)
  | frame ss now frame f x ss2 cmds2 full _ _ _ _ accepted =>
    rcases accept_frameT0 accepted with h | h
    · exact .inr (.inl ⟨ss, full, h.trans (abort_countOverrun_frameT0 ch ss)⟩)
    · exact .inr (.inr (by rw [h]; rfl))
  | read ss maxLen full => exact .inr (.inl ⟨ss, full, rfl⟩)
  | complete ss ss2 now cmds full _ moved => exact .inr (.inl ⟨ss, full, completeSession_frameT0 moved⟩)
  | wake ss ss2 now cmds full _ moved =>
    rcases wakeSession_frameT0 moved with h | h
    · exact .inr (.inl ⟨ss, full, h⟩)
    · exact .inr (.inr (by rw [h]; rfl))
  | encoded i ss x op own full => exact .inr (.inl ⟨ss, full, rfl⟩)
  | encOverrun i ss x op own full => exact .inr (.inl ⟨ss, full, rfl⟩)

/-! ### The times of the inputs to come -/

theorem word64At_event (opc ch : Byte) (now : Ns64) : word64At (opc :: ch :: bytes64 now) 2 = now := by
  simpa using word64At_mid [opc, ch] [] now

/-- A raised COMPLETE has the time of the move that raised it. -/
theorem time_raised_complete (ch : ChanId) (now : Ns64) :
    Input.time (.raised (encode (.complete ch now))) = some (ch, now) := by
  show some (ch, word64At (0x10 :: ch :: bytes64 now) 2) = some (ch, now)
  rw [word64At_event]

/-- A raised WAKE has the time of the move that raised it. -/
theorem time_raised_wake (ch : ChanId) (now : Ns64) :
    Input.time (.raised (encode (.wake ch now))) = some (ch, now) := by
  show some (ch, word64At (0x11 :: ch :: bytes64 now) 2) = some (ch, now)
  rw [word64At_event]

theorem time_of_message {x : Input} {port : Port} {m : List Byte} (hx : x.message? = some (port, m))
    (hd : decodeOn port m = .ok i) : Input.time x = timeOf i := by
  have hm : messageTime port m = timeOf i := by rw [messageTime, hd]
  cases x <;> cases hx <;> exact hm

theorem mem_raiseEvent {y : Input} {place : Nat} (h : y ∈ (raiseEvent i place s).inbox) :
    y ∈ s.inbox ∨ y = .raised (encode i) := by
  rw [raiseEvent_inbox, List.mem_append, List.mem_cons] at h
  rcases h with h | h | h
  · exact .inl (List.mem_of_mem_take h)
  · exact .inr h
  · exact .inl (List.mem_of_mem_drop h)

theorem receive_inbox {port : Port} {m : List Byte} (h : receive port m s = .next t) : t.inbox = s.inbox := by
  cases hd : decodeOn port m with
  | ok i =>
    rw [receive_ok s hd] at h
    obtain ⟨⟨-, -, inbox⟩, -⟩ := exec_move h
    exact inbox
  | error e =>
    rw [receive_error s hd] at h
    cases port <;> cases h <;> rfl

/-- What is to come behind the handling of an input was to come before, or a device's move has raised it, with the move's
own time. -/
theorem handle_inbox {x y : Input} (h : handle x s = .next t) (hy : y ∈ t.inbox) :
    y ∈ s.inbox ∨ (x.message? = none ∧ Input.time y = Input.time x) := by
  cases x with
  | message port m => rw [receive_inbox h] at hy; exact .inl hy
  | raised m => rw [receive_inbox h] at hy; exact .inl hy
  | stray m => rw [receive_inbox h] at hy; exact .inl hy
  | genDone ch now place =>
    cases h
    rcases genDone_move ch now place s with e | ⟨c, -, -, e⟩ <;> rw [e] at hy
    · exact .inl hy
    · exact (mem_raiseEvent hy).imp_right (by rintro rfl; exact ⟨rfl, time_raised_complete ch now⟩)
  | genLost ch =>
    cases h
    rcases genLost_move ch s with e | ⟨c, -, -, e⟩ <;> rw [e] at hy <;> exact .inl hy
  | tmrFire ch now place =>
    cases h
    rcases tmrFire_move ch now place s with e | ⟨c, -, -, e⟩ <;> rw [e] at hy
    · exact .inl hy
    · exact (mem_raiseEvent hy).imp_right (by rintro rfl; exact ⟨rfl, time_raised_wake ch now⟩)

/-- Every time to come behind a step was to come before it. -/
theorem step_times {y : Input} (h : step s = .next t) (hy : y ∈ t.inbox) : ∃ x ∈ s.inbox, Input.time x = Input.time y := by
  rcases step_cases s with ⟨-, e⟩ | ⟨x, rest, hx, e⟩ <;> rw [e] at h
  · cases h; exact ⟨y, hy, rfl⟩
  · rw [hx]
    rcases handle_inbox h hy with hy | ⟨-, ht⟩
    · exact ⟨y, List.mem_cons_of_mem x hy, rfl⟩
    · exact ⟨x, List.mem_cons_self, ht.symm⟩

/-- Behind the handling of a message only the inputs behind it are to come. -/
theorem step_inbox_of_message {x : Input} {rest : List Input} (h : step s = .next t) (hx : s.inbox = x :: rest)
    (hm : x.message?.isSome = true) : ∀ y ∈ t.inbox, y ∈ rest := by
  intro y hy
  rcases step_cases s with ⟨hnil, -⟩ | ⟨x', rest', hx', e⟩
  · rw [hnil] at hx; cases hx
  · rw [hx] at hx'
    cases hx'
    rw [e] at h
    refine (handle_inbox h hy).resolve_right ?_
    rintro ⟨hnone, -⟩
    rw [hnone] at hm
    cases hm

/-- No frame started later than a time to come, behind a step as before it: the time of an operation that starts a frame is
not later than those behind it. -/
theorem step_framesStarted (htimes : s.TimesOrdered) (hstarted : s.FramesStarted) (h : step s = .next t) :
    t.FramesStarted := by
  intro ch ss' hss' y hy now hnow
  have kept : ∀ ss, s.session? ch = some ss → ss.eng.frameT0.toNat ≤ now.toNat := by
    intro ss hss
    obtain ⟨x, hx, ht⟩ := step_times h hy
    exact hstarted ch ss hss x hx now (ht.trans hnow)
  rcases step_session h ch with e | ⟨x, port, m, i, rest, c, n, cmds, hx, hm, hd, -, hc, move, hn⟩
  · exact kept ss' (e ▸ hss')
  · rw [hss'] at hn
    subst hn
    have isMessage : x.message?.isSome = true := by rw [hm]; rfl
    rcases move.frameT0 with h0 | ⟨ss, hs, h0⟩ | h0
    · rw [h0]; exact Nat.zero_le _
    · rw [h0]; exact kept ss ((session?_of_channel hc).trans hs)
    · have behind := step_inbox_of_message h hx isMessage y hy
      have ordered := htimes.ordered
      rw [hx, List.pairwise_cons] at ordered
      exact ordered.1 y behind isMessage ch _ now ((time_of_message hm hd).trans h0) hnow

/-! ### Sums that do not wrap -/

theorem toNat_add_of_inRange {d : Ns64} (h : TimeInRange now) (hd : d.toNat < 2 ^ 63) :
    (now + d).toNat = now.toNat + d.toNat := by
  unfold TimeInRange at h
  rw [BitVec.toNat_add]
  omega

theorem toNat_deadlineAt {window : Nat} (h : TimeInRange now) (hw : window < 2 ^ 63) :
    (deadlineAt now window).toNat = now.toNat + window := by
  have exact_window : (BitVec.ofNat 64 window).toNat = window := by rw [BitVec.toNat_ofNat]; omega
  rw [deadlineAt, toNat_add_of_inRange h (by omega), exact_window]

/-- Settles O38: a step keeps every frame's start behind the times to come, and the four sums and differences of a timestamp
in range are exact. -/
theorem timesAreExact : Obligations.TimesAreExact := by
  refine ⟨fun s t => step_framesStarted, fun now p e dur hnow hdur => ?_⟩
  have hreset := p.tResetNs.isLt
  refine ⟨toNat_add_of_inRange hnow (by omega), toNat_deadlineAt hnow ?_, toNat_deadlineAt hnow ?_, fun hle => ?_⟩
  · unfold resetWindow; omega
  · unfold retryWindow; omega
  · exact BitVec.toNat_sub_of_le hle

end Sys2Proof.Machine
end

section
/-! Messages and operations are one to one (30_encoding.md rules R91 to R97 and R112): every operation is read back from its
message, and every message that decodes is the message of its operation. -/

namespace Sys2Proof

/-! ### A field behind other bytes -/

@[simp] theorem byteAt_cons_zero (a : Byte) (m : List Byte) : byteAt (a :: m) 0 = a := rfl

@[simp] theorem byteAt_cons_succ (a : Byte) (m : List Byte) (i : Nat) : byteAt (a :: m) (i + 1) = byteAt m i := rfl

@[simp] theorem word32At_cons_succ (a : Byte) (m : List Byte) (i : Nat) : word32At (a :: m) (i + 1) = word32At m i := rfl

@[simp] theorem word64At_cons_succ (a : Byte) (m : List Byte) (i : Nat) : word64At (a :: m) (i + 1) = word64At m i := rfl

@[simp] theorem word32At_skip32 (w : BitVec 32) (m : List Byte) (i : Nat) :
    word32At (bytes32 w ++ m) (i + 4) = word32At m i := rfl

@[simp] theorem word32At_skip64 (w : BitVec 64) (m : List Byte) (i : Nat) :
    word32At (bytes64 w ++ m) (i + 8) = word32At m i := rfl

@[simp] theorem word64At_skip64 (w : BitVec 64) (m : List Byte) (i : Nat) :
    word64At (bytes64 w ++ m) (i + 8) = word64At m i := rfl

@[simp] theorem byteAt_skip32 (w : BitVec 32) (m : List Byte) (i : Nat) :
    byteAt (bytes32 w ++ m) (i + 4) = byteAt m i := rfl

@[simp] theorem word32At_bytes32_append (w : BitVec 32) (m : List Byte) : word32At (bytes32 w ++ m) 0 = w :=
  word32At_mid [] m w

@[simp] theorem word64At_bytes64_append (w : BitVec 64) (m : List Byte) : word64At (bytes64 w ++ m) 0 = w :=
  word64At_mid [] m w

@[simp] theorem word32At_bytes32 (w : BitVec 32) : word32At (bytes32 w) 0 = w := word32At_mid [] [] w

@[simp] theorem word64At_bytes64 (w : BitVec 64) : word64At (bytes64 w) 0 = w := word64At_mid [] [] w

/-! ### The opcode map -/

/-- The opcode of a row's operation selects that row: no two rows share one. -/
theorem rowOf_op_opc {r : OpRow} (h : r ∈ opRows) : rowOf r.op.opc = some r := by
  revert r; decide

theorem op_opc_of_mem_opRows {r : OpRow} (h : r ∈ opRows) : r.op.opc = r.opc := by
  revert r; decide

/-! ### From an operation to its message and back -/

/-- Every operation's message has the form that the opcode map gives its row. -/
theorem encodedForm (i : Instr) : Laws.EncodedForm.Statement i := by
  cases i with
  | cfg => exact Laws.EncodedForm.cfg ..
  | submit => exact Laws.EncodedForm.submit ..
  | status => exact Laws.EncodedForm.status ..
  | statusRead => exact Laws.EncodedForm.statusRead ..
  | shutdown => exact Laws.EncodedForm.shutdown ..
  | complete => exact Laws.EncodedForm.complete ..
  | wake => exact Laws.EncodedForm.wake ..
  | genConfigure => exact Laws.EncodedForm.genConfigure ..
  | genLoad => exact Laws.EncodedForm.genLoad ..
  | genEnable => exact Laws.EncodedForm.genEnable ..
  | genDisable => exact Laws.EncodedForm.genDisable ..
  | tmrArm => exact Laws.EncodedForm.tmrArm ..
  | tmrCancel => exact Laws.EncodedForm.tmrCancel ..
  | romChip => exact Laws.EncodedForm.romChip ..
  | romLayout => exact Laws.EncodedForm.romLayout ..
  | romPredef => exact Laws.EncodedForm.romPredef ..
  | encBit0 => exact Laws.EncodedForm.encBit0
  | encBit1 => exact Laws.EncodedForm.encBit1
  | encPad => exact Laws.EncodedForm.encPad
  | encode => exact Laws.EncodedForm.encode

/-- An operation's message selects the operation's row, and its length is the row's. -/
theorem decode_encode_eq_decodeFields (i : Instr) : decode (encode i) = decodeFields i.op (encode i) := by
  obtain ⟨r, hr, hop, -, hfits, -⟩ := encodedForm i
  have hrow : rowOf i.op.opc = some r := hop ▸ rowOf_op_opc hr
  rw [encode] at hfits ⊢
  simp only [decode, hrow, decodeRow, hfits, if_true, hop]

/-- The fields of a message are the operands that were written (rules R92 to R97 and R112). -/
theorem decodeFields_encode (i : Instr) : decodeFields i.op (encode i) = .ok i := by
  cases i with
  | cfg | statusRead | complete | wake | genLoad | tmrArm => simp [Instr.op, encode, encodeFields, decodeFields]
  | submit ch now frame =>
    have hdrop : (encode (.submit ch now frame)).drop 10 = frame := rfl
    simp only [Instr.op, decodeFields, hdrop]
    simp [encode, encodeFields]
  | genConfigure ch a p inv => cases inv <;> simp [Instr.op, encode, encodeFields, decodeFields]
  | status | shutdown | genEnable | genDisable | tmrCancel | romChip | romLayout | romPredef => rfl
  | encBit0 | encBit1 | encPad | encode => rfl

/-- Settles O1: the message selects the operation's row, and its fields are the operands. -/
theorem decodeOfEncode : Obligations.DecodeOfEncode :=
  fun i => (decode_encode_eq_decodeFields i).trans (decodeFields_encode i)

/-- Settles O3: each of the messages is the encoding of the operation it stands for. -/
theorem writtenOutMessagesDecode : Obligations.WrittenOutMessagesDecode :=
  ⟨decodeOfEncode (.cfg 1 0x118 1 0 0), decodeOfEncode (.submit 0 1000 [0xff, 0, 7]), decodeOfEncode (.complete 0 39000),
    decodeOfEncode (.genConfigure 0 350 900 false), decodeOfEncode (.genLoad 0 0xdb6db6aaaaaaaaaa),
    decodeOfEncode (.tmrArm 0 201500), decodeOfEncode (.romLayout 2), decodeOfEncode .encBit1⟩

/-! ### From a message to its operation and back -/

/-- The rest of a message begins with the byte that is read there. -/
theorem drop_eq_byteAt_cons {m : List Byte} {i : Nat} (h : i < m.length) : m.drop i = byteAt m i :: m.drop (i + 1) := by
  rw [List.drop_eq_getElem_cons h, byteAt, List.getD_eq_getElem _ _ h]

/-- The rest of a message begins with the bytes of the 32-bit field that is read there. -/
theorem drop_eq_bytes32_append {m : List Byte} {i : Nat} (h : i + 4 ≤ m.length) :
    m.drop i = bytes32 (word32At m i) ++ m.drop (i + 4) := by
  rw [bytes32_word32At m i h, ← List.drop_drop, List.take_append_drop]

/-- The rest of a message begins with the bytes of the 64-bit field that is read there. -/
theorem drop_eq_bytes64_append {m : List Byte} {i : Nat} (h : i + 8 ≤ m.length) :
    m.drop i = bytes64 (word64At m i) ++ m.drop (i + 8) := by
  rw [bytes64_word64At m i h, ← List.drop_drop, List.take_append_drop]

/-- The message of an id or index alone. -/
theorem drop_one_of_length_two {m : List Byte} (h : m.length = 2) : m.drop 1 = [byteAt m 1] := by
  rw [drop_eq_byteAt_cons (by omega), List.drop_of_length_le (by omega)]

/-- The message of a channel id and a 64-bit operand. -/
theorem drop_one_of_length_ten {m : List Byte} (h : m.length = 10) : m.drop 1 = byteAt m 1 :: bytes64 (word64At m 2) := by
  rw [drop_eq_byteAt_cons (by omega), drop_eq_bytes64_append (by omega), List.drop_of_length_le (by omega), List.append_nil]

theorem op_of_decodeFields {op : Op} {m : List Byte} {i : Instr} (h : decodeFields op m = .ok i) : i.op = op := by
  cases op with
  | genConfigure =>
    simp only [decodeFields] at h
    split at h
    · cases h; rfl
    · split at h <;> cases h; rfl
  | _ => cases h; rfl

/-- The bytes written for the operands are those that they were read from, where the message has the length of its row. -/
theorem encodeFields_of_decodeFields {op : Op} {m : List Byte} {i : Instr}
    (hfits : ∀ r, rowOf op.opc = some r → r.fits m.length = true) (h : decodeFields op m = .ok i) :
    encodeFields i = m.drop 1 := by
  cases op with
  | cfg =>
    have hlen : m.length = 18 := eq_of_beq (hfits _ rfl)
    cases h
    rw [drop_eq_byteAt_cons (by omega), drop_eq_bytes32_append (by omega), drop_eq_bytes32_append (by omega),
      drop_eq_bytes32_append (by omega), drop_eq_bytes32_append (by omega), List.drop_of_length_le (by omega)]
    simp [encodeFields]
  | submit =>
    have hlen : 10 ≤ m.length := of_decide_eq_true (hfits _ rfl)
    cases h
    rw [drop_eq_byteAt_cons (i := 1) (by omega), drop_eq_bytes64_append (i := 2) hlen]
    rfl
  | statusRead =>
    have hlen : m.length = 6 := eq_of_beq (hfits _ rfl)
    cases h
    rw [drop_eq_byteAt_cons (by omega), drop_eq_bytes32_append (by omega), List.drop_of_length_le (by omega),
      List.append_nil]
    rfl
  | genConfigure =>
    have hlen : m.length = 11 := eq_of_beq (hfits _ rfl)
    rw [drop_eq_byteAt_cons (by omega), drop_eq_bytes32_append (by omega), drop_eq_bytes32_append (by omega),
      drop_eq_byteAt_cons (by omega), List.drop_of_length_le (by omega)]
    simp only [decodeFields] at h
    split at h
    · rename_i hinv
      cases h
      simp [encodeFields, hinv]
    · split at h
      · rename_i hinv
        cases h
        simp [encodeFields, hinv]
      · cases h
  | status | shutdown | genEnable | genDisable | tmrCancel | romChip | romLayout | romPredef =>
    cases h
    exact (drop_one_of_length_two (eq_of_beq (hfits _ rfl))).symm
  | complete | wake | genLoad | tmrArm =>
    cases h
    exact (drop_one_of_length_ten (eq_of_beq (hfits _ rfl))).symm
  | encBit0 | encBit1 | encPad | encode =>
    have hlen : m.length = 1 := eq_of_beq (hfits _ rfl)
    cases h
    exact (List.drop_of_length_le hlen.le).symm

end Sys2Proof

namespace Sys2Proof.Machine

/-- What decodes at all decodes on its operation's own port. -/
theorem decodeOn_of_decode {m : List Byte} {i : Instr} (h : decode m = .ok i) : decodeOn (portOf i) m = .ok i := by
  cases m with
  | nil => cases h
  | cons opc tail =>
    cases hr : rowOf opc with
    | none => simp only [decode, hr] at h; cases h
    | some r =>
      have hon : decodeOn r.port (opc :: tail) = .ok i := (decodeOn_port rfl hr).trans h
      rw [portOf_of_decodeOn hon]
      exact hon

/-- Settles O2: the message has the row of its operation, so that its opcode and its fields are written as they were read. -/
theorem encodeOfDecode : Obligations.EncodeOfDecode := by
  intro m i h
  obtain ⟨opc, tail, r, rfl, hr, rfl, -, hfits, hfields⟩ := decodeOn_row (decodeOn_of_decode h)
  have hlen : ∀ r', rowOf r.op.opc = some r' → r'.fits (r.opc :: tail).length = true := fun r' hr' =>
    Option.some.inj ((rowOf_op_opc hr).symm.trans hr') ▸ hfits
  rw [encode, op_of_decodeFields hfields, op_opc_of_mem_opRows hr, encodeFields_of_decodeFields hlen hfields,
    List.drop_one, List.tail_cons]

end Sys2Proof.Machine
end

section
/-! What a step does with a message before any operation's own rule (30_encoding.md rules R113 to R116): it runs the operation
that the message decodes to, or it rejects the message, and an operation rejects an id that no channel has. -/

namespace Sys2Proof.Machine

variable {s : State} {ch : ChanId} {i : Instr} {m : List Byte} {port : Port} {opc : Byte} {tail : List Byte} {r : OpRow}
  {rest : List Input}

/-! ### The step and its next input -/

theorem step_of_inbox {x : Input} (h : s.inbox = x :: rest) : step s = handle x { s with inbox := rest } := by
  simp only [step, h]

theorem step_of_message (h : s.inbox = .message port m :: rest) : step s = receive port m { s with inbox := rest } :=
  step_of_inbox h

/-- Settles O4: an operation's message decodes on the operation's own port, and a pending event is a message on the platform
port. -/
theorem stepRunsDecoded : Obligations.StepRunsDecoded := by
  refine ⟨fun s m i rest hd hin => ?_, fun s m rest hin => ?_, fun s hin => ?_⟩
  · rw [step_of_message hin, receive_ok _ (decodeOn_of_decode hd)]
  · rcases hin with hin | hin <;> rw [step_of_inbox hin] <;> rfl
  · simp only [step, hin]

/-! ### Messages that do not decode on their port -/

/-- An opcode that no row of the port has is no opcode there. -/
theorem decodeOn_badOpcode (h : ∀ r ∈ opRows, r.port = port → r.opc ≠ opc) :
    decodeOn port (opc :: tail) = .error .badOpcode := by
  cases hr : rowOf opc with
  | none => simp only [decodeOn, hr]
  | some r =>
    have hopc : r.opc = opc := by simpa using List.find?_some hr
    have hport : r.port ≠ port := fun hp => h r (List.mem_of_find?_eq_some hr) hp hopc
    simp only [decodeOn, hr, if_neg hport]

/-- A length that the opcode's row does not have is rejected as a length. -/
theorem decodeOn_badLength (hr : rowOf opc = some r) (hport : r.port = port) (hfits : r.fits (tail.length + 1) = false) :
    decodeOn port (opc :: tail) = .error .badLength := by
  simp [decodeOn, decodeRow, hr, hport, hfits]

/-- A message on the platform port that decodes has 10 bytes (rule R95). -/
theorem length_of_decodeOn_platform (h : decodeOn .platform m = .ok i) : m.length = 10 := by
  obtain ⟨opc, tail, r, rfl, hr, -, hport, hfits, -⟩ := decodeOn_row h
  have row : ∀ r ∈ opRows, r.port = .platform → r.open_ = false ∧ r.len = 10 := by decide
  obtain ⟨hopen, hlen⟩ := row r hr hport
  simpa [OpRow.fits, hopen, hlen] using hfits

/-- A message that does not decode on the host port is answered, and nothing else happens (rule R113). -/
theorem step_of_host_error {e : DecodeError} (h : s.inbox = .message .host m :: rest) (hd : decodeOn .host m = .error e) :
    step s = answerOnly (hostError e) { s with inbox := rest } := by
  rw [step_of_message h, receive_error _ hd, rejectMessage]

/-- A message that does not decode on the platform port is ignored (rule R113). -/
theorem step_of_platform_error {e : DecodeError} (h : s.inbox = .message .platform m :: rest)
    (hd : decodeOn .platform m = .error e) : step s = .next { s with inbox := rest } := by
  rw [step_of_message h, receive_error _ hd, rejectMessage]

/-- Settles O5: the opcodes of the rows of the host port are 0x01 to 0x05, those of the platform port 0x10 and 0x11. -/
theorem illegalOpcodes : Obligations.IllegalOpcodes := by
  intro s opc tail rest
  have host : ∀ r ∈ opRows, r.port = .host → r.opc ∈ [0x01, 0x02, 0x03, 0x04, 0x05] := by decide
  have platform : ∀ r ∈ opRows, r.port = .platform → r.opc ∈ [0x10, 0x11] := by decide
  refine ⟨fun hin hopc => ?_, fun hin hopc => ?_⟩
  · exact step_of_host_error hin (decodeOn_badOpcode fun r hr hp he => hopc (he ▸ host r hr hp))
  · exact step_of_platform_error hin (decodeOn_badOpcode fun r hr hp he => hopc (he ▸ platform r hr hp))

/-- A host message whose length its opcode's row does not have is answered `E_BAD_LENGTH`. -/
theorem step_of_host_badLength (h : s.inbox = .message .host (opc :: tail) :: rest) (hr : rowOf opc = some r)
    (hport : r.port = .host) (hfits : r.fits (tail.length + 1) = false) :
    step s = answerOnly .badLength { s with inbox := rest } :=
  step_of_host_error (e := .badLength) h (decodeOn_badLength hr hport hfits)

/-- Settles O6: the length stands in the opcode's row, `MAXLEN = 0` is the first check of STATUS_READ, and what does not
decode on the platform port is ignored. -/
theorem wrongLengths : Obligations.WrongLengths := by
  refine ⟨fun s opc tail rest hin hlen => ?_, fun s ch => ?_, fun s rest hin => ?_, fun s m rest hin hlen => ?_⟩
  · rcases hlen with ⟨rfl, hlen⟩ | ⟨rfl, hlen⟩ | ⟨rfl, hlen⟩ | ⟨rfl, hlen⟩ | ⟨rfl, hlen⟩ <;>
      exact step_of_host_badLength hin rfl rfl (by simpa [OpRow.fits] using hlen)
  · rfl
  · exact step_of_host_error hin rfl
  · cases hd : decodeOn .platform m with
    | ok i => exact absurd (length_of_decodeOn_platform hd) hlen
    | error e => exact step_of_platform_error hin hd

/-! ### Channel ids that no channel has -/

theorem withSession_badChannel {f : Channel → Session → Result State} (h : s.channel? ch = none) :
    withSession ch s f = answerOnly .badChannel s := by simp only [withSession, h]

theorem onEvent_badChannel {f : Channel → Session → Result State} (h : s.channel? ch = none) :
    onEvent ch s f = .next s := by simp only [onEvent, h]

/-- Settles O7: the channel is the first check of every host command but STATUS_READ, where it is the second, and of both
events. -/
theorem badChannelIds : Obligations.BadChannelIds := by
  intro s ch hch
  have hnone : s.channel? ch = none := channel?_eq_none.2 hch
  refine ⟨fun w0 w1 w2 w3 => ?_, fun now frame => withSession_badChannel hnone, withSession_badChannel hnone,
    fun maxLen hmax => ?_, ?_, fun now => onEvent_badChannel hnone, fun now => onEvent_badChannel hnone⟩
  · show execCfg ch w0 w1 w2 w3 s = answerOnly .badChannel s
    simp only [execCfg, hnone]
  · exact (if_neg hmax).trans (withSession_badChannel hnone)
  · show execShutdown ch s = answerOnly .badChannel s
    simp only [execShutdown, hnone]

end Sys2Proof.Machine
end

section
/-! The snapshot record that STATUS answers (30_encoding.md rule R99), field by field at its byte offset. -/

namespace Sys2Proof.Machine

theorem append_bytes16 (w : BitVec 16) : w.extractLsb' 8 8 ++ w.extractLsb' 0 8 = w :=
  (BitVec.extractLsb'_append_extractLsb'_eq_extractLsb' rfl).trans BitVec.extractLsb'_eq_self

/-- The bits of `VALID` (30_encoding.md rule R99), bit 0 first. -/
theorem getLsbD_validByte (t : Stats) {i : Nat} (hi : i < 8) :
    (validByte t).getLsbD i
      = [t.lastViol.isSome, t.minDelay.isSome, t.maxDelay.isSome, t.lastUpd.isSome, t.minUpd.isSome, t.maxUpd.isSome,
          false, false].getD i false := by
  unfold validByte
  generalize t.lastViol.isSome = a, t.minDelay.isSome = b, t.maxDelay.isSome = c, t.lastUpd.isSome = d,
    t.minUpd.isSome = e, t.maxUpd.isSome = f
  revert a b c d e f i
  decide

theorem length_snapshotRecord (ss : Session) : (snapshotRecord ss).length = 72 := by
  simp [snapshotRecord, bytes16]

/-- Settles O43: the answer is OK and the snapshot record, whose fields are read where their bytes were written. -/
theorem statusRecord : Obligations.StatusRecord := by
  intro s ch c ss hl
  refine ⟨Code.ok.byte :: snapshotRecord ss, withSession_live hl.channel hl.session hl.alive, ?_, rfl, ?_, ?_, ?_, ?_⟩
  · rw [List.length_cons, length_snapshotRecord]
  · simp [snapshotRecord, readyByte]
  · simpa [snapshotRecord, bytes16] using append_bytes16 ss.stats.lastRetries
  · simpa [snapshotRecord, bytes16] using fun i => getLsbD_validByte ss.stats
  · simp [snapshotRecord, bytes16, optField]

end Sys2Proof.Machine
end

section
/-! The duration of a waveform word (30_encoding.md rule R108): what `E_NA` counts while a word is open is what its duration
is computed from when it is closed (41_encoder.md rules R154 to R156). -/

namespace Sys2Proof.Machine

variable {p : ChipProfile} {cap : BitVec 16} {x y : EncRun}

/-! ### Active slots -/

theorem activeSlots_eq_sum (bits : Slots) :
    activeSlots bits = ∑ q ∈ Finset.range 64, if bits.getLsbD q then 1 else 0 := rfl

@[simp] theorem activeSlots_zero : activeSlots 0 = 0 := by simp [activeSlots]

theorem activeSlots_le (bits : Slots) : activeSlots bits ≤ 64 := by
  rw [activeSlots_eq_sum, ← Finset.card_filter]
  exact (Finset.card_filter_le _ _).trans_eq (Finset.card_range 64)

/-- A slot that is put where none was active counts once if it is active. -/
theorem activeSlots_putSlot {acc : Slots} {pos : BitVec 6} (hclear : acc.getLsbD (63 - pos.toNat) = false) (s : Bool) :
    activeSlots (putSlot acc pos s) = activeSlots acc + if s then 1 else 0 := by
  have bit : ∀ q ∈ Finset.range 64, (if (putSlot acc pos s).getLsbD q then 1 else 0)
      = (if acc.getLsbD q then 1 else 0) + if q = 63 - pos.toNat then (if s then 1 else 0) else 0 := by
    intro q hq
    rw [getLsbD_putSlot acc pos s (Finset.mem_range.1 hq)]
    by_cases h : q = 63 - pos.toNat
    · simp [h, hclear]
    · simp [h]
  have hpos : 63 - pos.toNat ∈ Finset.range 64 := Finset.mem_range.2 (by omega)
  rw [activeSlots_eq_sum, activeSlots_eq_sum, Finset.sum_congr rfl bit, Finset.sum_add_distrib, Finset.sum_ite_eq',
    if_pos hpos]

/-! ### The duration of a word -/

theorem wordDur_le (p : ChipProfile) {na : Nat} (h : na ≤ 64) : wordDur p na ≤ 64 * (2 ^ 32 - 1) := by
  have hactive : p.t0ActiveNs.toNat ≤ 2 ^ 32 - 1 := Nat.le_pred_of_lt p.t0ActiveNs.isLt
  have hpassive : p.tPassiveMinNs.toNat ≤ 2 ^ 32 - 1 := Nat.le_pred_of_lt p.tPassiveMinNs.isLt
  calc wordDur p na ≤ na * (2 ^ 32 - 1) + (64 - na) * (2 ^ 32 - 1) :=
        Nat.add_le_add (Nat.mul_le_mul_left _ hactive) (Nat.mul_le_mul_left _ hpassive)
    _ = 64 * (2 ^ 32 - 1) := by rw [← Nat.add_mul, Nat.add_sub_cancel' h]

/-- A word whose duration is the one that rule R108 gives its slots. -/
def DurationExact (p : ChipProfile) (w : WaveWord) : Prop := w.dur = BitVec.ofNat 64 (wordDur p (activeSlots w.bits))

/-- The duration of a word fits its 64 bits. -/
theorem DurationExact.toNat {w : WaveWord} (h : DurationExact p w) : w.dur.toNat = wordDur p (activeSlots w.bits) := by
  have hle := wordDur_le p (activeSlots_le w.bits)
  rw [h, BitVec.toNat_ofNat, Nat.mod_eq_of_lt (by omega)]

/-- Inside a run, `E_NA` counts the active slots of the open word, whose slots from `E_POS` on are still clear, and every word
that is closed has its exact duration (41_encoder.md rules R154 to R156). -/
structure DurationsKept (p : ChipProfile) (x : EncRun) : Prop where
  count  : x.regs.na.toNat = activeSlots x.regs.acc
  clear  : ∀ q, q < 64 - x.regs.pos.toNat → x.regs.acc.getLsbD q = false
  closed : ∀ k, k < x.regs.k.toNat → ∃ w, Memory.read x.buf k = some w ∧ DurationExact p w

theorem durationsKept_zero (p : ChipProfile) (buf : Buffer) : DurationsKept p ⟨EncRegs.zero, buf⟩ :=
  ⟨activeSlots_zero.symm, fun _ _ => BitVec.getLsbD_zero, fun k hk => absurd hk (Nat.not_lt_zero k)⟩

/-- The next slot keeps the count of active slots. -/
theorem DurationsKept.count_putSlot (h : DurationsKept p x) (s : Bool) :
    (if s then x.regs.na + 1 else x.regs.na).toNat = activeSlots (putSlot x.regs.acc x.regs.pos s) := by
  have hpos := x.regs.pos.isLt
  rw [activeSlots_putSlot (h.clear _ (by omega)), ← h.count]
  have hle : x.regs.na.toNat ≤ 64 := h.count ▸ activeSlots_le x.regs.acc
  cases s
  · rfl
  · simp only [if_true]; bv_omega

theorem slotsKeep_durations : SlotsKeep p cap (DurationsKept p) (fun _ => True) := by
  intro s x hx _
  have hcount := hx.count_putSlot s
  cases h : emitSlot p cap s x with
  | error y => trivial
  | ok y =>
    rcases emitSlot_ok h with ⟨hpos, rfl⟩ | ⟨-, hk, rfl⟩
    · refine ⟨hcount, fun q hq => ?_, hx.closed⟩
      simp only [pos_succ hpos] at hq
      rw [getLsbD_putSlot _ _ _ (by omega), if_neg (by omega)]
      exact hx.clear q (by omega)
    · refine ⟨activeSlots_zero.symm, fun _ _ => BitVec.getLsbD_zero, fun k hlt => ?_⟩
      rw [Memory.read_write]
      split
      · exact ⟨_, rfl, by rw [DurationExact, hcount]⟩
      · have hsucc := toNat_succ_of_lt hk
        exact hx.closed k (by simp only [hsucc] at hlt; omega)

/-- Settles O30: every slot of the run keeps `DurationsKept`, so that each word is closed with its exact duration. -/
theorem wordDurations : Obligations.WordDurations := by
  intro p cap e buf x h k hk
  have kept : DurationsKept p x := (slotsKeep_durations.encodeFrame e buf (durationsKept_zero p buf)).of_ok h
  obtain ⟨w, hread, hdur⟩ := kept.closed k hk
  exact ⟨w, hread, hdur.toNat, hdur.toNat ▸ wordDur_le p (activeSlots_le w.bits)⟩

end Sys2Proof.Machine
end

section
/-! The three ROM lookups (40_profile_rom.md rules R131 to R134): the entry that a table maps an id to, or none. -/

namespace Sys2Proof.Machine

variable {α : Type} {t : List (RomId × α)} {rom : Rom} {id : RomId}

/-! ### What rule R353 says of the tables' keys -/

/-- The keys of each table rise, so that an id has one entry at most. -/
theorem Rom.risingKeys (rom : Rom) :
    RisingKeys rom.tables.chips ∧ RisingKeys rom.tables.layouts ∧ RisingKeys rom.tables.predefs := by
  have ok := rom.ok
  simp only [RomTables.wf, Bool.and_eq_true, decide_eq_true_eq] at ok
  obtain ⟨⟨⟨⟨⟨⟨⟨chips, layouts⟩, predefs⟩, -⟩, -⟩, -⟩, -⟩, -⟩ := ok
  exact ⟨chips, layouts, predefs⟩

/-- Id 0 is a key of neither the chip nor the layout table. -/
theorem Rom.hasKey_zero (rom : Rom) : hasKey rom.tables.chips 0 = false ∧ hasKey rom.tables.layouts 0 = false := by
  have ok := rom.ok
  simp only [RomTables.wf, Bool.and_eq_true, Bool.not_eq_true'] at ok
  obtain ⟨⟨⟨⟨⟨-, chips⟩, layouts⟩, -⟩, -⟩, -⟩ := ok
  exact ⟨chips, layouts⟩

/-! ### The entry of a key -/

theorem hasKey_of_mem {a : α} (h : (id, a) ∈ t) : hasKey t id = true := List.any_eq_true.2 ⟨_, h, beq_self_eq_true id⟩

theorem ne_zero_of_mem {a : α} (h0 : hasKey t 0 = false) (h : (id, a) ∈ t) : id ≠ 0 := by
  rintro rfl
  exact Bool.false_ne_true (h0.symm.trans (hasKey_of_mem h))

theorem entryOf_eq_none (h : ∀ a, (id, a) ∉ t) : entryOf t id = none :=
  Option.eq_none_iff_forall_ne_some.2 fun a ha => h a (mem_of_entryOf ha)

theorem Rom.chip_of_mem {p : ChipProfile} (h : (id, p) ∈ rom.tables.chips) : rom.chip id = some p := by
  rw [Rom.chip, if_neg (ne_zero_of_mem rom.hasKey_zero.1 h), entryOf_of_mem rom.risingKeys.1 h]

theorem Rom.chip_eq_none (h : id = 0 ∨ ∀ p, (id, p) ∉ rom.tables.chips) : rom.chip id = none :=
  ite_eq_left_iff.2 fun h0 => entryOf_eq_none (h.resolve_left h0)

theorem Rom.layout_of_mem {l : LayoutProfile} (h : (id, l) ∈ rom.tables.layouts) : rom.layout id = some l := by
  rw [Rom.layout, if_neg (ne_zero_of_mem rom.hasKey_zero.2 h), entryOf_of_mem rom.risingKeys.2.1 h]

theorem Rom.layout_eq_none (h : id = 0 ∨ ∀ l, (id, l) ∉ rom.tables.layouts) : rom.layout id = none :=
  ite_eq_left_iff.2 fun h0 => entryOf_eq_none (h.resolve_left h0)

theorem Rom.predef_of_mem {e : RomId × RomId} (h : (id, e) ∈ rom.tables.predefs) : rom.predef id = some e :=
  entryOf_of_mem rom.risingKeys.2.2 h

theorem Rom.predef_eq_none (h : ∀ e, (id, e) ∉ rom.tables.predefs) : rom.predef id = none := entryOf_eq_none h

/-! ### The operations -/

theorem exec_romChip (id : RomId) (s : State) : exec (.romChip id) s = .next { s with ret := .chip (s.rom.chip id) } := rfl

theorem exec_romLayout (id : RomId) (s : State) :
    exec (.romLayout id) s = .next { s with ret := .layout (s.rom.layout id) } := rfl

theorem exec_romPredef (ix : RomId) (s : State) :
    exec (.romPredef ix) s = .next { s with ret := .predef (s.rom.predef ix) } := rfl

/-- Settles O9: a lookup writes `ret` alone, and rising keys make the table's entry for an id the one it answers; the chip and
layout tables hold no entry for id 0. -/
theorem romLookups : Obligations.RomLookups := by
  intro s
  refine ⟨fun id p h => ?_, fun id h => ?_, fun id l h => ?_, fun id h => ?_, fun ix e h => ?_, fun ix h => ?_⟩
  · rw [exec_romChip, Rom.chip_of_mem h]
  · rw [exec_romChip, Rom.chip_eq_none h]
  · rw [exec_romLayout, Rom.layout_of_mem h]
  · rw [exec_romLayout, Rom.layout_eq_none h]
  · rw [exec_romPredef, Rom.predef_of_mem h]
  · rw [exec_romPredef, Rom.predef_eq_none h]

end Sys2Proof.Machine
end

section
/-! A SENDING engine and its pulse generator across a step (41_encoder.md rule R153, 42_engine.md rules R205 to R208), and the
completions that the generator owes (60_exceptions.md rules R308, R317 and R318): what a move does to both, and what one input
of the surroundings does to the pending COMPLETEs. -/

namespace Sys2Proof.Machine

variable {rom : Rom} {capTable : List ((Nat × Nat) × BitVec 16)} {enc : EncUnit} {ch : ChanId} {c c' : Channel} {i : Instr}
  {s t : State} {ss ss' : Session} {cmds : List Instr} {n : Option Session} {p : ChipProfile} {now : Ns64}

/-! ### One channel -/

/-- The channel's session is SENDING, and it is not FATAL. -/
structure Sending (c : Channel) (ss : Session) : Prop where
  session : c.session = some ss
  alive   : ss.eng.fatal = false
  st      : ss.eng.st = .sending

/-- The generator sends a word only for a SENDING session. -/
def GenFree (c : Channel) : Prop := c.gen.busy = true → ∃ ss, Sending c ss

/-- The generator has ended the word that was loaded last for a SENDING session. -/
def WordEnded (c : Channel) : Prop := c.gen.busy = false ∧ ∃ ss, Sending c ss

/-- A SENDING session agrees with the channel's generator. -/
def ChannelAgrees (rom : Rom) (c : Channel) : Prop := ∀ ss, Sending c ss → GenAgrees rom c.gen ss

theorem Sending.eq {ss1 ss2 : Session} (h1 : Sending c ss1) (h2 : Sending c ss2) : ss1 = ss2 :=
  Option.some.inj (h1.session.symm.trans h2.session)

theorem Sending.live (h : Sending c ss) (hc : s.channel? ch = some c) : Live s ch c ss := ⟨hc, h.session, h.alive⟩

theorem generatorsAgree_iff : s.GeneratorsAgree ↔ ∀ ch c, s.channel? ch = some c → ChannelAgrees s.rom c :=
  ⟨fun h ch c hc ss hs => h ch c ss (hs.live hc) hs.st,
    fun h ch c ss hl hst => h ch c hl.channel ss ⟨hl.session, hl.alive, hst⟩⟩

theorem generatorsFree_iff : s.GeneratorsFree ↔ ∀ ch c, s.channel? ch = some c → GenFree c := by
  constructor
  · intro h ch c hc hb
    obtain ⟨ss, hl, hst⟩ := h ch c hc hb
    exact ⟨ss, hl.session, hl.alive, hst⟩
  · intro h ch c hc hb
    obtain ⟨ss, hs⟩ := h ch c hc hb
    exact ⟨ss, hs.live hc, hs.st⟩

theorem GenFree.not_busy (h : GenFree c) (hs : ∀ ss, ¬Sending c ss) : c.gen.busy = false := by
  cases hb : c.gen.busy with
  | false => rfl
  | true => obtain ⟨ss, hss⟩ := h hb; exact absurd hss (hs ss)

/-! ### The commands of a move at the generator -/

/-- What the commands of a step do to a generator does not depend on the session that the step leaves. -/
theorem deviceEffects_gen_congr (l : List Instr) (h : c.gen = c'.gen) :
    (deviceEffects l c).gen = (deviceEffects l c').gen := by
  induction l generalizing c c' with
  | nil => exact h
  | cons j l ih => exact ih (by cases j <;> simp only [deviceEffect, h])

/-- A command to the timer. -/
def TimerCommand (ch : ChanId) (j : Instr) : Prop := (∃ d, j = .tmrArm ch d) ∨ j = .tmrCancel ch

/-- Commands to the timer leave the generator alone (rules R209 and R210). -/
theorem deviceEffects_timer_gen {l : List Instr} (h : ∀ j ∈ l, TimerCommand ch j) : (deviceEffects l c).gen = c.gen := by
  induction l generalizing c with
  | nil => rfl
  | cons j l ih =>
    rw [deviceEffects_cons, ih fun k hk => h k (List.mem_cons_of_mem j hk)]
    rcases h j List.mem_cons_self with ⟨d, rfl⟩ | rfl <;> rfl

/-- The commands that a move begins with where it ends a running attempt: GEN_DISABLE for a SENDING session, and else
nothing (42_engine.md rule R203, 43_session.md rule R262). -/
def StopCommands (ch : ChanId) (c : Channel) (l : List Instr) : Prop :=
  l = [.genDisable ch] ∨ (l = [] ∧ ∀ ss, ¬Sending c ss)

theorem stopCommands_of_st (hs : c.session = some ss) :
    StopCommands ch c (if ss.eng.st = .sending then [.genDisable ch] else []) := by
  split
  · exact .inl rfl
  · rename_i hst
    refine .inr ⟨rfl, fun ss1 h1 => hst ?_⟩
    cases h1.session.symm.trans hs
    exact h1.st

/-- Behind these commands the generator sends nothing. -/
theorem StopCommands.not_busy {l : List Instr} (h : StopCommands ch c l) (hfree : GenFree c) :
    (deviceEffects l c).gen.busy = false := by
  rcases h with rfl | ⟨rfl, hs⟩
  · rfl
  · exact hfree.not_busy hs

/-- What a move of a session does to its engine and its generator. -/
inductive EngineMove (rom : Rom) (ch : ChanId) (c : Channel) (i : Instr) : Option Session → List Instr → Prop where
  /-- An attempt starts (42_engine.md rule R192), behind the end of a running one. -/
  | starts (ss' : Session) (p : ChipProfile) (w : WaveWord) (stop : List Instr) (alive : ss'.eng.fatal = false)
      (sending : ss'.eng.st = .sending) (chip : rom.chip ss'.latch.chip = some p) (next : ss'.eng.next = 1)
      (word : Memory.read ss'.buf 0 = some w) (stopped : StopCommands ch c stop) :
      EngineMove rom ch c i (some ss')
        (stop ++ [.genConfigure ch p.t0ActiveNs p.tPassiveMinNs ss'.cfg.inv, .genLoad ch w.bits, .genEnable ch])
  /-- A COMPLETE loads the next word of the running attempt (rule R195). -/
  | loads (ss ss' : Session) (now : Ns64) (w : WaveWord) (op : i = .complete ch now) (before : Sending c ss)
      (alive : ss'.eng.fatal = false) (sending : ss'.eng.st = .sending) (cfg : ss'.cfg = ss.cfg)
      (latch : ss'.latch = ss.latch) (next : ss'.eng.next.toNat = ss.eng.next.toNat + 1)
      (word : Memory.read ss'.buf ss.eng.next.toNat = some w) : EngineMove rom ch c i (some ss') [.genLoad ch w.bits]
  /-- The engine is left as it is. -/
  | keeps (ss ss' : Session) (before : c.session = some ss) (eng : ss'.eng = ss.eng) (cfg : ss'.cfg = ss.cfg)
      (latch : ss'.latch = ss.latch) (buf : ss'.buf = ss.buf) : EngineMove rom ch c i (some ss') []
  /-- No attempt is running behind the move: it has been ended, its last word or a late one is complete, or there was none. -/
  | rests (n : Option Session) (stop timer : List Instr)
      (rest : ∀ ss', n = some ss' → ss'.eng.fatal = false → ss'.eng.st ≠ .sending)
      (stopped : StopCommands ch c stop ∨ (stop = [] ∧ ∃ now, i = .complete ch now))
      (timed : ∀ j ∈ timer, TimerCommand ch j) : EngineMove rom ch c i n (stop ++ timer)

/-- A SENDING session agrees with its generator behind the move, if it did before. -/
theorem EngineMove.agrees (h : EngineMove rom ch c i n cmds) (hc : ChannelAgrees rom c) :
    ChannelAgrees rom (deviceEffects cmds { c with session := n }) := by
  intro ss1 h1
  have hn := h1.session
  rw [deviceEffects_session] at hn
  cases h with
  | starts ss' p w stop alive sending chip next word =>
    cases hn
    rw [deviceEffects_append]
    refine ⟨rfl, ⟨p, chip, rfl, rfl⟩, rfl, fun b hb => ?_⟩
    cases hb
    rw [next]
    exact ⟨Nat.le_refl 1, w, word, rfl⟩
  | loads ss ss' now w op before alive sending cfg latch next word =>
    cases hn
    obtain ⟨enabled, chip, polarity, -⟩ := hc ss before
    refine ⟨enabled, latch ▸ chip, cfg ▸ polarity, fun b hb => ?_⟩
    cases hb
    rw [next]
    exact ⟨Nat.le_add_left 1 _, w, word, rfl⟩
  | keeps ss ss' before eng cfg latch buf =>
    cases hn
    obtain ⟨enabled, chip, polarity, word⟩ := hc ss ⟨before, eng ▸ h1.alive, eng ▸ h1.st⟩
    exact ⟨enabled, latch ▸ chip, cfg ▸ polarity, by rw [eng, buf]; exact word⟩
  | rests n stop timer rest => exact absurd h1.st (rest ss1 hn h1.alive)

/-- The generator sends a word only for a SENDING session behind the move, if it did before and a COMPLETE finds the word at
its end. -/
theorem EngineMove.genFree (h : EngineMove rom ch c i n cmds) (hfree : GenFree c)
    (hdone : ∀ now, i = .complete ch now → c.gen.busy = false) :
    GenFree (deviceEffects cmds { c with session := n }) := by
  intro hbusy
  have session := deviceEffects_session cmds { c with session := n }
  rw [deviceEffects_gen_congr (c := { c with session := n }) (c' := c) cmds rfl] at hbusy
  cases h with
  | starts ss' p w stop alive sending => exact ⟨ss', session, alive, sending⟩
  | loads ss ss' now w op before alive sending => exact ⟨ss', session, alive, sending⟩
  | keeps ss ss' before eng =>
    obtain ⟨ss1, h1⟩ := hfree hbusy
    cases h1.session.symm.trans before
    exact ⟨ss', session, eng ▸ h1.alive, eng ▸ h1.st⟩
  | rests n stop timer rest stopped timed =>
    rw [deviceEffects_append, deviceEffects_timer_gen timed] at hbusy
    refine absurd hbusy (Bool.eq_false_iff.1 ?_)
    rcases stopped with stopped | ⟨rfl, now, op⟩
    · exact stopped.not_busy hfree
    · exact hdone now op

/-- A generator that has ended its word for a SENDING session has done so behind the move as well, unless the move is a
COMPLETE's or sends GEN_DISABLE. -/
theorem EngineMove.wordEnded (h : EngineMove rom ch c i n cmds) (hc : WordEnded c) (hi : ∀ now, i ≠ .complete ch now)
    (hdisable : .genDisable ch ∉ cmds) : WordEnded (deviceEffects cmds { c with session := n }) := by
  obtain ⟨idle, ss0, h0⟩ := hc
  have stopped {stop l : List Instr} (hstop : StopCommands ch c stop) (hno : .genDisable ch ∉ stop ++ l) : False := by
    rcases hstop with rfl | ⟨-, hs⟩
    · exact hno List.mem_cons_self
    · exact hs ss0 h0
  cases h with
  | starts ss' p w stop alive sending chip next word hstop => exact (stopped hstop hdisable).elim
  | loads ss ss' now w op => exact absurd op (hi now)
  | keeps ss ss' before eng =>
    cases h0.session.symm.trans before
    exact ⟨idle, ss', rfl, eng ▸ h0.alive, eng ▸ h0.st⟩
  | rests n stop timer rest hstop =>
    rcases hstop with hstop | ⟨-, now, op⟩
    · exact (stopped hstop hdisable).elim
    · exact absurd op (hi now)

/-- A GEN_LOAD of the move is for its own channel, and the first command is GEN_DISABLE where a word is still sent. -/
theorem EngineMove.genDisable_before_genLoad (h : EngineMove rom ch c i n cmds) (hfree : GenFree c)
    (hdone : ∀ now, i = .complete ch now → c.gen.busy = false) {ch1 : ChanId} {bits : Slots}
    (hload : .genLoad ch1 bits ∈ cmds) :
    ch1 = ch ∧ (c.gen.busy = true → cmds.head? = some (.genDisable ch)) := by
  have noLoad {stop : List Instr} (hstop : StopCommands ch c stop) : .genLoad ch1 bits ∉ stop := by
    rcases hstop with rfl | ⟨rfl, -⟩ <;> simp
  cases h with
  | starts ss' p w stop alive sending chip next word hstop =>
    have hmem := (List.mem_append.1 hload).resolve_left (noLoad hstop)
    simp only [List.mem_cons, Instr.genLoad.injEq, List.not_mem_nil, reduceCtorEq, or_false, false_or] at hmem
    refine ⟨hmem.1, fun hb => ?_⟩
    rcases hstop with rfl | ⟨-, hs⟩
    · rfl
    · rw [hfree.not_busy hs] at hb; cases hb
  | loads ss ss' now w op =>
    obtain ⟨rfl, -⟩ : ch1 = ch ∧ bits = w.bits := by simpa using hload
    exact ⟨rfl, fun hb => absurd hb (Bool.eq_false_iff.1 (hdone now op))⟩
  | keeps => cases hload
  | rests n stop timer rest hstop timed =>
    rcases List.mem_append.1 hload with hmem | hmem
    · rcases hstop with hstop | ⟨rfl, -⟩
      · exact absurd hmem (noLoad hstop)
      · cases hmem
    · rcases timed _ hmem with ⟨d, e⟩ | e <;> cases e

/-! ### Every move of a session -/

theorem EngineMove.of_startAttempt {stop : List Instr} (h : startAttempt ch p now ss = .next (ss', cmds))
    (alive : ss.eng.fatal = false) (chip : rom.chip ss.latch.chip = some p) (stopped : StopCommands ch c stop) :
    EngineMove rom ch c i (some ss') (stop ++ cmds) := by
  obtain ⟨w, -, hw, rfl, rfl⟩ := startAttempt_next h
  exact .starts _ p w stop alive rfl chip rfl hw stopped

/-- Before a SUBMIT encodes its frame it has ended a running attempt. -/
theorem stopCommands_abort (hs : c.session = some ss) : StopCommands ch c (abort ch (countOverrun ss)).2 := by
  have commands : (abort ch (countOverrun ss)).2 = if ss.eng.st = .sending then [.genDisable ch] else [] := by
    obtain ⟨-, eng, -⟩ := countOverrun_keeps ss
    unfold abort
    rw [eng]
    split <;> rfl
  exact commands ▸ stopCommands_of_st hs

/-- A timer that is due is armed, which no SENDING session's is (10_state.md rule R54). -/
theorem EngineSound.not_sending_of_wakeDue (h : EngineSound ss) (hdue : wakeDue ss.eng now = true) :
    ss.eng.st ≠ .sending := by
  intro hst
  obtain ⟨-, ht, -⟩ := h.sending hst
  simp [wakeDue, ht] at hdue

theorem completeSession_engineMove (h : completeSession rom ch now ss = .next (ss', cmds)) (hs : c.session = some ss)
    (alive : ss.eng.fatal = false) : EngineMove rom ch c (.complete ch now) (some ss') cmds := by
  rcases completeSession_next h with ⟨-, rfl, rfl⟩ | ⟨hst, -, -, h⟩ | ⟨hst, -, -, p, -, h⟩ | ⟨hst, -, p, -, h⟩
  · exact .keeps ss _ hs rfl rfl rfl rfl
  · obtain ⟨w, hlt, hw, rfl, rfl⟩ := loadNext_next h
    exact .loads ss _ now w rfl ⟨hs, alive, hst⟩ alive hst rfl rfl (toNat_succ_of_lt hlt) hw
  · cases h
    exact .rests _ [] [_] (by simp) (.inr ⟨rfl, now, rfl⟩) (by simp [TimerCommand])
  · rcases violation_cases ch p now (delayOf now ss.eng.expectT) { ss with stats := ss.stats.signalled }
      with ⟨-, e⟩ | ⟨-, e⟩ <;>
    · rw [e] at h
      cases h
      exact .rests _ [] [_] (by simp) (.inr ⟨rfl, now, rfl⟩) (by simp [TimerCommand])

theorem wakeSession_engineMove (h : wakeSession rom ch now ss = .next (ss', cmds)) (hs : c.session = some ss)
    (alive : ss.eng.fatal = false) (sound : SessionSound rom ss) : EngineMove rom ch c i (some ss') cmds := by
  have resting (hdue : wakeDue ss.eng now = true) : StopCommands ch c [] :=
    .inr ⟨rfl, fun ss1 h1 => sound.engine.not_sending_of_wakeDue hdue
      (Option.some.inj (h1.session.symm.trans hs) ▸ h1.st)⟩
  rcases wakeSession_next h with ⟨-, rfl, rfl⟩ | ⟨hdue, -, p, hp, h⟩ | ⟨hdue, -, -, p, hp, h⟩ | ⟨hdue, -, -, rfl, rfl⟩
  · exact .keeps ss' _ hs rfl rfl rfl rfl
  · exact .of_startAttempt h alive hp (resting hdue)
  · exact .of_startAttempt h alive hp (resting hdue)
  · exact .rests _ [] [] (by simp) (.inl (resting hdue)) (by simp)

/-- An accepted frame is queued in a window, or its first attempt starts behind the end of a running one. -/
theorem accept_engineMove {f : Frame} {x : EncRun} {frame : List Byte} (hs : c.session = some ss)
    (alive : ss.eng.fatal = false) (parsed : parseFrame rom ss.cfg frame = .ok f)
    (h : accept ch f.chip now (latchFrame f x (abort ch (countOverrun ss)).1) = .next (ss', cmds)) :
    EngineMove rom ch c i (some ss') ((abort ch (countOverrun ss)).2 ++ cmds) := by
  have alive' : (abort ch (countOverrun ss)).1.eng.fatal = false := by
    obtain ⟨-, -, -, -, -, -, -, fatal⟩ := abort_keeps ch (countOverrun ss)
    obtain ⟨-, eng, -⟩ := countOverrun_keeps ss
    rw [fatal, eng, alive]
  rcases accept_next h with ⟨-, rfl, rfl⟩ | ⟨-, h⟩
  · exact .rests _ _ [] (by simp) (.inl (stopCommands_abort hs)) (by simp)
  · exact .of_startAttempt h alive' (parseFrame_entries parsed).2 (stopCommands_abort hs)

theorem capacityFault_timerCommands (ch : ChanId) (ss : Session) : ∀ j ∈ (capacityFault ch ss).2, TimerCommand ch j := by
  simp only [capacityFault]
  split <;> simp [TimerCommand]

theorem portOf_of_encoderOp (h : i ∈ [Instr.encBit0, .encBit1, .encPad, .encode]) : portOf i = .internal := by
  simp only [List.mem_cons, List.not_mem_nil, or_false] at h
  rcases h with rfl | rfl | rfl | rfl <;> rfl

/-- Every move that a message on an input port makes of a sound session is one of the four kinds. -/
theorem SessionMove.engineMove (h : SessionMove rom capTable enc ch c i n cmds) (hport : portOf i ≠ .internal)
    (sound : ∀ ss, c.session = some ss → ss.eng.fatal = false → SessionSound rom ss) : EngineMove rom ch c i n cmds := by
  cases h with
  | create w0 w1 w2 w3 m ids k empty =>
    refine .rests _ [] [] ?_ (.inl (.inr ⟨rfl, fun ss hs => ?_⟩)) (by simp)
    · rintro _ ⟨⟩ -
      nofun
    · cases empty.symm.trans hs.session
  | overrun ss now frame f x full =>
    exact .rests _ _ _ (by simp) (.inl (stopCommands_abort full)) (capacityFault_timerCommands _ _)
  | frame ss now frame f x ss2 cmds2 full alive parsed _ _ accepted => exact accept_engineMove full alive parsed accepted
  | read ss maxLen full => exact .keeps ss _ full rfl rfl rfl rfl
  | shutdown ss full =>
    exact .rests _ _ _ (by simp) (.inl (stopCommands_of_st full)) (by split <;> simp [TimerCommand])
  | complete ss ss' now cmds full alive moved => exact completeSession_engineMove moved full alive
  | wake ss ss' now cmds full alive moved => exact wakeSession_engineMove moved full alive (sound ss full alive)
  | encoded i ss x op => exact absurd (portOf_of_encoderOp op) hport
  | encOverrun i ss x op => exact absurd (portOf_of_encoderOp op) hport

/-! ### One input of the surroundings -/

/-- How many COMPLETEs that its generator raised are pending for a channel. -/
def State.pendingDone (s : State) (ch : ChanId) : Nat := s.inbox.countP (Input.raisedAs .complete ch)

theorem completionsOwned_iff :
    s.CompletionsOwned ↔ ∀ ch, s.pendingDone ch ≤ 1
      ∧ (0 < s.pendingDone ch → ∃ c, s.channel? ch = some c ∧ WordEnded c) := by
  constructor
  · refine fun h ch => ⟨h.one ch, fun hpos => ?_⟩
    obtain ⟨x, hx, hr⟩ := List.countP_pos_iff.1 hpos
    obtain ⟨c, ss, hl, hst, hb⟩ := h.owned ch x hx hr
    exact ⟨c, hl.channel, hb, ss, hl.session, hl.alive, hst⟩
  · refine fun h => ⟨fun ch => (h ch).1, fun ch x hx hr => ?_⟩
    obtain ⟨c, hc, hb, ss, hs⟩ := (h ch).2 (List.countP_pos_iff.2 ⟨x, hx, hr⟩)
    exact ⟨c, ss, hs.live hc, hs.st, hb⟩

/-- An event that a device raises is pending as that event of its channel. -/
theorem raisedAs_encode {ch1 : ChanId} (op : Op) (hport : portOf i = .platform) (htime : timeOf i = some (ch1, now)) :
    Input.raisedAs op ch (.raised (encode i)) = (i.op == op && ch1 == ch) := by
  have hd : decodeOn .platform (encode i) = .ok i := hport ▸ decodeOn_of_decode (decodeOfEncode i)
  simp only [Input.raisedAs, hd, htime, Option.any_some]

/-- A raised event joins the pending ones, wherever it is placed. -/
theorem countP_raiseEvent (i : Instr) (place : Nat) (s : State) (q : Input → Bool) :
    (raiseEvent i place s).inbox.countP q = s.inbox.countP q + if q (.raised (encode i)) then 1 else 0 := by
  have parts := List.countP_append (p := q) (l₁ := s.inbox.take place) (l₂ := s.inbox.drop place)
  rw [List.take_append_drop] at parts
  rw [raiseEvent_inbox, List.countP_append, List.countP_cons, parts, Nat.add_assoc]

/-- The input `x` at the head of the inbox brings the operation `i` on its port. -/
structure Brings (s : State) (x : Input) (rest : List Input) (i : Instr) : Prop where
  head    : s.inbox = x :: rest
  decodes : ∃ port m, x.message? = some (port, m) ∧ decodeOn port m = .ok i

/-- Everything one input of the surroundings can do to the registry, the output stream and the pending COMPLETEs. -/
inductive SurroundingsMove (s t : State) : Prop where
  /-- No channel changes. -/
  | quiet (chans : t.chans = s.chans) (outs : t.outs = s.outs) (pending : ∀ ch, t.pendingDone ch ≤ s.pendingDone ch)
  /-- A message on an input port moves a session. -/
  | session (x : Input) (rest : List Input) (i : Instr) (ch : ChanId) (c : Channel) (n : Option Session)
      (cmds : List Instr) (brings : Brings s x rest i) (input : portOf i ≠ .internal) (channel : s.channel? ch = some c)
      (move : SessionMove s.rom s.capTable s.enc ch c i n cmds)
      (chans : t.chans = s.chans.set ch.toNat (deviceEffects cmds { c with session := n }))
      (outs : t.outs = s.outs ++ cmds.map encode) (inbox : t.inbox = rest)
  /-- A generator ends its word, and raises a COMPLETE or loses it. -/
  | wordEnds (ch : ChanId) (c : Channel) (channel : s.channel? ch = some c) (busy : c.gen.busy = true)
      (chans : t.chans = s.chans.set ch.toNat { c with gen := c.gen.finish }) (outs : t.outs = s.outs)
      (pending : ∀ ch', t.pendingDone ch' ≤ s.pendingDone ch' + if ch' = ch then 1 else 0)
  /-- A timer fires. -/
  | timerFires (ch : ChanId) (c : Channel) (channel : s.channel? ch = some c)
      (chans : t.chans = s.chans.set ch.toNat { c with tmr := c.tmr.cancel }) (outs : t.outs = s.outs)
      (pending : ∀ ch', t.pendingDone ch' ≤ s.pendingDone ch')

theorem pendingDone_of_rest {x : Input} {rest : List Input} (hs : s.inbox = x :: rest) (ht : t.inbox = rest) (ch : ChanId) :
    s.pendingDone ch = t.pendingDone ch + if x.raisedAs .complete ch then 1 else 0 := by
  rw [State.pendingDone, State.pendingDone, hs, ht, List.countP_cons]

theorem pendingDone_le_of_rest {x : Input} {rest : List Input} (hs : s.inbox = x :: rest) (ht : t.inbox = rest)
    (ch : ChanId) : t.pendingDone ch ≤ s.pendingDone ch := by
  rw [pendingDone_of_rest hs ht]; exact Nat.le_add_right _ _

theorem receive_surroundingsMove {x : Input} {port : Port} {m : List Byte} {rest : List Input} (hs : s.inbox = x :: rest)
    (hm : x.message? = some (port, m)) (hport : port = .host ∨ port = .platform)
    (h : receive port m { s with inbox := rest } = .next t) : SurroundingsMove s t := by
  have inbox : t.inbox = rest := receive_inbox h
  have quiet (chans : t.chans = s.chans) (outs : t.outs = s.outs) : SurroundingsMove s t :=
    .quiet chans outs (pendingDone_le_of_rest hs inbox)
  rcases receive_move h with ⟨i, hd, he⟩ | ⟨-, -, chans, outs⟩
  · have hi := portOf_of_decodeOn hd
    rcases (exec_move he).2 with ⟨chans, outs⟩ | ⟨ch, c, n, cmds, -, hc, move, chans, outs⟩ | ⟨ch, c, hout, -⟩
    · exact quiet chans outs
    · refine .session x rest i ch c n cmds ⟨hs, port, m, hm, hd⟩ ?_ hc move chans outs inbox
      rw [hi]
      rcases hport with rfl | rfl <;> nofun
    · rw [hi] at hout
      rcases hport with rfl | rfl <;> cases hout
  · exact quiet chans outs

theorem step_surroundingsMove (h : step s = .next t) (hext : s.NextExternal) : SurroundingsMove s t := by
  rcases step_cases s with ⟨-, e⟩ | ⟨x, rest, hx, e⟩ <;> rw [e] at h
  · cases h; exact .quiet rfl rfl fun _ => Nat.le_refl _
  · have external := hext x rest hx
    have fewer : ∀ ch, State.pendingDone { s with inbox := rest } ch ≤ s.pendingDone ch := pendingDone_le_of_rest hx rfl
    cases x with
    | message port m =>
      refine receive_surroundingsMove hx rfl ?_ h
      cases port with
      | host => exact .inl rfl
      | platform => exact .inr rfl
      | output => cases external
      | internal => cases external
    | raised m => exact receive_surroundingsMove hx rfl (.inr rfl) h
    | stray m => exact receive_surroundingsMove hx rfl (.inr rfl) h
    | genDone ch now place =>
      cases h
      rcases genDone_move ch now place { s with inbox := rest } with e | ⟨c, hc, hb, e⟩ <;> rw [e]
      · exact .quiet rfl rfl fewer
      · refine .wordEnds ch c hc hb rfl rfl fun ch' => ?_
        rw [State.pendingDone, countP_raiseEvent, raisedAs_encode .complete rfl rfl]
        refine Nat.add_le_add (fewer ch') (Nat.le_of_eq ?_)
        by_cases own : ch' = ch
        · subst own; simp [Instr.op]
        · simp [Instr.op, own, Ne.symm own]
    | genLost ch =>
      cases h
      rcases genLost_move ch { s with inbox := rest } with e | ⟨c, hc, hb, e⟩ <;> rw [e]
      · exact .quiet rfl rfl fewer
      · exact .wordEnds ch c hc hb rfl rfl fun ch' => Nat.le_add_right_of_le (fewer ch')
    | tmrFire ch now place =>
      cases h
      rcases tmrFire_move ch now place { s with inbox := rest } with e | ⟨c, hc, hb, e⟩ <;> rw [e]
      · exact .quiet rfl rfl fewer
      · refine .timerFires ch c hc rfl rfl fun ch' => ?_
        rw [State.pendingDone, countP_raiseEvent, raisedAs_encode .complete rfl rfl]
        exact fewer ch'

/-- Every channel behind a step is the one that has been put back, or it is as it was. -/
theorem channel?_set_cases (hc : s.channel? ch = some c) (ht : t.chans = s.chans.set ch.toNat c') (ch1 : ChanId) :
    (ch1 = ch ∧ t.channel? ch1 = some c') ∨ (ch1 ≠ ch ∧ t.channel? ch1 = s.channel? ch1) := by
  by_cases e : ch1 = ch
  · exact .inl ⟨e, e ▸ channel?_set_same hc ht⟩
  · exact .inr ⟨e, channel?_set_other e ht⟩

/-- What holds of every channel holds behind a step, if it holds of the one that is put back. -/
theorem forall_channel_of_set {R : Channel → Prop} (hR : ∀ ch c, s.channel? ch = some c → R c)
    (hc : s.channel? ch = some c) (ht : t.chans = s.chans.set ch.toNat c') (hR' : R c') :
    ∀ ch c, t.channel? ch = some c → R c := by
  intro ch1 c1 h1
  rcases channel?_set_cases hc ht ch1 with ⟨-, e⟩ | ⟨-, e⟩
  · rw [e] at h1; cases h1; exact hR'
  · exact hR ch1 c1 (e ▸ h1)

theorem State.Sound.engineMove (hsound : s.Sound) (hc : s.channel? ch = some c)
    (move : SessionMove s.rom s.capTable s.enc ch c i n cmds) (hi : portOf i ≠ .internal) :
    EngineMove s.rom ch c i n cmds :=
  move.engineMove hi fun _ hs alive => hsound.of_live ⟨hc, hs, alive⟩

/-- A step on an input of the surroundings keeps every SENDING session in agreement with its generator. -/
theorem step_generatorsAgree (hsound : s.Sound) (hagree : s.GeneratorsAgree) (hext : s.NextExternal)
    (h : step s = .next t) : t.GeneratorsAgree := by
  rw [generatorsAgree_iff] at hagree ⊢
  rw [(step_move h).1.1]
  cases step_surroundingsMove h hext with
  | quiet chans => exact fun ch c hc => hagree ch c (channel?_congr chans ch ▸ hc)
  | session x rest i ch c n cmds _ hi hc move chans =>
    exact forall_channel_of_set hagree hc chans ((hsound.engineMove hc move hi).agrees (hagree ch c hc))
  | wordEnds ch c hc _ chans =>
    refine forall_channel_of_set hagree hc chans fun ss hs => ?_
    obtain ⟨enabled, chip, polarity, -⟩ := hagree ch c hc ss ⟨hs.session, hs.alive, hs.st⟩
    exact ⟨enabled, chip, polarity, nofun⟩
  | timerFires ch c hc chans =>
    refine forall_channel_of_set hagree hc chans fun ss hs => ?_
    obtain ⟨enabled, chip, polarity, word⟩ := hagree ch c hc ss ⟨hs.session, hs.alive, hs.st⟩
    exact ⟨enabled, chip, polarity, word⟩

/-! ### While the surroundings keep their duties (60_exceptions.md rule R318) -/

theorem sentBetween_eq {l : List (List Byte)} (h : t.outs = s.outs ++ l) : sentBetween s t = l := by
  rw [sentBetween, h, List.drop_left]

theorem encode_injective {j : Instr} (h : encode i = encode j) : i = j :=
  Except.ok.inj ((decodeOfEncode i).symm.trans (h ▸ decodeOfEncode j))

theorem mem_map_encode : encode i ∈ cmds.map encode ↔ i ∈ cmds :=
  ⟨fun h => by obtain ⟨j, hj, e⟩ := List.mem_map.1 h; exact encode_injective e ▸ hj, List.mem_map_of_mem⟩

section

variable {x : Input} {rest : List Input} (hduties : s.DutiesKept)
include hduties

/-- A COMPLETE that a SENDING session handles is one that its generator raised: no stray signal is taken for it. -/
theorem raisedAs_of_complete (hx : Brings s x rest (.complete ch now)) (hc : s.channel? ch = some c) (hs : Sending c ss) :
    x.raisedAs .complete ch = true := by
  obtain ⟨head, port, m, hm, hd⟩ := hx
  have noStray : x.stray? ≠ some m := fun hstray =>
    hduties.strayDone x rest m ch now c ss head hstray (decode_of_decodeOn hd) (hs.live hc) hs.st
  have hport : port = .platform := (portOf_of_decodeOn hd).symm
  subst hport
  cases x with
  | message port' m' => cases hm; exact absurd rfl noStray
  | raised m' => cases hm; simp [Input.raisedAs, hd, Instr.op, timeOf]
  | stray m' => cases hm; exact absurd rfl noStray
  | genDone => cases hm
  | genLost => cases hm
  | tmrFire => cases hm

/-- A COMPLETE finds no word that is still sent. -/
theorem not_busy_of_complete (hfree : s.GeneratorsFree) (howned : s.CompletionsOwned)
    (hx : Brings s x rest (.complete ch now)) (hc : s.channel? ch = some c) : c.gen.busy = false := by
  refine Bool.eq_false_iff.2 fun hb => ?_
  obtain ⟨ss, hs⟩ := generatorsFree_iff.1 hfree ch c hc hb
  obtain ⟨c1, _, hl, -, idle⟩ :=
    howned.owned ch x (hx.head ▸ List.mem_cons_self) (raisedAs_of_complete hduties hx hc hs)
  cases hl.channel.symm.trans hc
  exact Bool.false_ne_true (idle.symm.trans hb)

/-- Where a COMPLETE is pending behind a step, the step has handled no other of that channel. -/
theorem not_complete_of_pending (howned : s.CompletionsOwned) (hx : Brings s x rest i) (hc : s.channel? ch = some c)
    (hs : Sending c ss) (inbox : t.inbox = rest) (hpos : 0 < t.pendingDone ch) (now : Ns64) : i ≠ .complete ch now := by
  rintro rfl
  have count := pendingDone_of_rest hx.head inbox ch
  have one := (completionsOwned_iff.1 howned ch).1
  rw [if_pos (raisedAs_of_complete hduties hx hc hs)] at count
  omega

/-- Where a COMPLETE is pending behind a step, the step has sent that channel no GEN_DISABLE. -/
theorem not_genDisable_of_pending (h : step s = .next t) (outs : t.outs = s.outs ++ cmds.map encode)
    (hpos : 0 < t.pendingDone ch) : .genDisable ch ∉ cmds := by
  intro hdisable
  obtain ⟨y, hy, hr⟩ := List.countP_pos_iff.1 hpos
  have sent : [0x83, ch] ∈ sentBetween s t := by
    rw [sentBetween_eq outs]
    exact mem_map_encode.2 hdisable
  rw [hduties.disabled t ch h sent y hy] at hr
  cases hr

end

theorem step_generatorsFree (hsound : s.Sound) (hfree : s.GeneratorsFree) (howned : s.CompletionsOwned)
    (hduties : s.DutiesKept) (h : step s = .next t) : t.GeneratorsFree := by
  have hfree' := generatorsFree_iff.1 hfree
  rw [generatorsFree_iff]
  cases step_surroundingsMove h hduties.external with
  | quiet chans => exact fun ch c hc => hfree' ch c (channel?_congr chans ch ▸ hc)
  | session x rest i ch c n cmds hx hi hc move chans =>
    refine forall_channel_of_set hfree' hc chans ?_
    refine (hsound.engineMove hc move hi).genFree (hfree' ch c hc) ?_
    rintro now rfl
    exact not_busy_of_complete hduties hfree howned hx hc
  | wordEnds ch c hc _ chans => exact forall_channel_of_set hfree' hc chans (by simp [GenFree, Gen.busy])
  | timerFires ch c hc chans =>
    refine forall_channel_of_set hfree' hc chans fun hb => ?_
    obtain ⟨ss, hs⟩ := hfree' ch c hc hb
    exact ⟨ss, hs.session, hs.alive, hs.st⟩

theorem step_completionsOwned (hsound : s.Sound) (hfree : s.GeneratorsFree) (howned : s.CompletionsOwned)
    (hduties : s.DutiesKept) (h : step s = .next t) : t.CompletionsOwned := by
  have owned := completionsOwned_iff.1 howned
  rw [completionsOwned_iff]
  intro ch1
  have same (hch : t.channel? ch1 = s.channel? ch1) (hle : t.pendingDone ch1 ≤ s.pendingDone ch1) :
      t.pendingDone ch1 ≤ 1 ∧ (0 < t.pendingDone ch1 → ∃ c, t.channel? ch1 = some c ∧ WordEnded c) :=
    ⟨hle.trans (owned ch1).1, fun hpos => hch ▸ (owned ch1).2 (hpos.trans_le hle)⟩
  cases step_surroundingsMove h hduties.external with
  | quiet chans _ pending => exact same (channel?_congr chans ch1) (pending ch1)
  | session x rest i ch c n cmds hx hi hc move chans outs inbox =>
    have fewer := pendingDone_le_of_rest hx.head inbox ch1
    rcases channel?_set_cases hc chans ch1 with ⟨rfl, e⟩ | ⟨-, e⟩
    · refine ⟨fewer.trans (owned ch1).1, fun hpos => ⟨_, e, ?_⟩⟩
      obtain ⟨c1, h1, idle, ss, hs⟩ := (owned ch1).2 (hpos.trans_le fewer)
      cases h1.symm.trans hc
      exact (hsound.engineMove hc move hi).wordEnded ⟨idle, ss, hs⟩
        (not_complete_of_pending hduties howned hx hc hs inbox hpos) (not_genDisable_of_pending hduties h outs hpos)
    · exact same e fewer
  | wordEnds ch c hc busy chans _ pending =>
    have count := pending ch1
    rcases channel?_set_cases hc chans ch1 with ⟨rfl, e⟩ | ⟨hne, e⟩
    · have none_pending : s.pendingDone ch1 = 0 := by
        refine Nat.eq_zero_of_not_pos fun hpos => ?_
        obtain ⟨c1, h1, idle, -⟩ := (owned ch1).2 hpos
        cases h1.symm.trans hc
        exact Bool.false_ne_true (idle.symm.trans busy)
      obtain ⟨ss, hs⟩ := generatorsFree_iff.1 hfree ch1 c hc busy
      rw [none_pending, if_pos rfl] at count
      exact ⟨count, fun _ => ⟨_, e, by simp [Gen.busy], ss, hs.session, hs.alive, hs.st⟩⟩
    · rw [if_neg hne] at count
      exact same e count
  | timerFires ch c hc chans _ pending =>
    rcases channel?_set_cases hc chans ch1 with ⟨rfl, e⟩ | ⟨-, e⟩
    · refine ⟨(pending ch1).trans (owned ch1).1, fun hpos => ⟨_, e, ?_⟩⟩
      obtain ⟨c1, h1, idle, ss, hs⟩ := (owned ch1).2 (hpos.trans_le (pending ch1))
      cases h1.symm.trans hc
      exact ⟨idle, ss, hs.session, hs.alive, hs.st⟩
    · exact same e (pending ch1)

/-- A step that sends GEN_LOAD to a generator that sends a word sends GEN_DISABLE first (rule R317). -/
theorem step_genDisable_before_genLoad (hsound : s.Sound) (hfree : s.GeneratorsFree) (howned : s.CompletionsOwned) (hduties : s.DutiesKept)
    (h : step s = .next t) {bits : Slots} (hc : s.channel? ch = some c) (hbusy : c.gen.busy = true)
    (hload : encode (.genLoad ch bits) ∈ sentBetween s t) :
    (sentBetween s t).head? = some (encode (.genDisable ch)) := by
  have nothing (outs : t.outs = s.outs) : sentBetween s t = [] := sentBetween_eq (by rw [outs, List.append_nil])
  cases step_surroundingsMove h hduties.external with
  | quiet _ outs => rw [nothing outs] at hload; cases hload
  | session x rest i ch1 c1 n cmds hx hi hc1 move _ outs =>
    rw [sentBetween_eq outs] at hload ⊢
    have hdone (now : Ns64) (hop : i = .complete ch1 now) : c1.gen.busy = false :=
      not_busy_of_complete hduties hfree howned (hop ▸ hx) hc1
    obtain ⟨rfl, first⟩ := (hsound.engineMove hc1 move hi).genDisable_before_genLoad (generatorsFree_iff.1 hfree ch1 c1 hc1) hdone
      (mem_map_encode.1 hload)
    cases hc1.symm.trans hc
    rw [List.head?_map, first hbusy, Option.map_some]
  | wordEnds _ _ _ _ _ outs => rw [nothing outs] at hload; cases hload
  | timerFires _ _ _ _ outs => rw [nothing outs] at hload; cases hload

/-- Settles O60: each input of the surroundings is one `SurroundingsMove`, and each move of a session is one `EngineMove`, which
starts an attempt, loads the next word, leaves the engine as it is, or leaves it at rest. -/
theorem stepKeepsGeneratorsAgreeing : Obligations.StepKeepsGeneratorsAgreeing :=
  ⟨fun _ _ hsound hagree hext h => step_generatorsAgree hsound hagree hext h,
    fun _ _ hsound hfree howned hduties h =>
      ⟨step_generatorsFree hsound hfree howned hduties h, step_completionsOwned hsound hfree howned hduties h,
        fun _ _ _ hc hbusy hload => step_genDisable_before_genLoad hsound hfree howned hduties h hc hbusy hload⟩⟩

end Sys2Proof.Machine
end

section
/-! The order of the encoder's input (41_encoder.md rules R151 and R152): where a byte of the payload stands in the remapped
sequence, and where a bit of a byte stands in the sequence of bits. -/

namespace Sys2Proof.Machine

/-- Where every entry of a list becomes `C` entries, entry `C * k + j` is entry `j` of those that entry `k` becomes. -/
theorem getElem?_flatMap_of_length {α β : Type} {g : α → List β} {C j : Nat} (hg : ∀ a, (g a).length = C) (hj : j < C)
    (l : List α) (k : Nat) : (l.flatMap g)[C * k + j]? = l[k]?.bind fun a => (g a)[j]? := by
  induction l generalizing k with
  | nil => simp
  | cons a l ih =>
    have ha := hg a
    rw [List.flatMap_cons]
    cases k with
    | zero => rw [List.getElem?_append_left (by omega)]; simp
    | succ k =>
      have skip : C * (k + 1) + j - (g a).length = C * k + j := by rw [Nat.mul_add]; omega
      rw [List.getElem?_append_right (by rw [Nat.mul_add]; omega), skip, ih]
      simp

/-! ### The bits of a byte sequence (rule R152) -/

@[simp] theorem length_byteBits (b : Byte) : (byteBits b).length = 8 := rfl

/-- The bits of a byte come bit 7 first. -/
theorem getElem?_byteBits (b : Byte) {j : Nat} (hj : j < 8) : (byteBits b)[j]? = some (b.getLsbD (7 - j)) := by
  match j, hj with
  | 0, _ | 1, _ | 2, _ | 3, _ | 4, _ | 5, _ | 6, _ | 7, _ => rfl

theorem length_bitsOf (e : List Byte) : (bitsOf e).length = 8 * e.length := by
  simp [bitsOf, List.length_flatMap, Nat.mul_comm]

theorem getElem?_bitsOf {e : List Byte} {k : Nat} {b : Byte} (hk : e[k]? = some b) {j : Nat} (hj : j < 8) :
    (bitsOf e)[8 * k + j]? = some (b.getLsbD (7 - j)) := by
  rw [bitsOf, getElem?_flatMap_of_length length_byteBits hj, hk, Option.bind_some, getElem?_byteBits b hj]

/-! ### The remap (rule R151) -/

/-- The bytes of LED `i` are in the payload, where `i` is below the number of whole LEDs. -/
theorem led_offset_lt {len C i off : Nat} (hi : i < len / C) (ho : off < C) : i * C + off < len :=
  calc i * C + off < (i + 1) * C := by rw [Nat.add_mul]; omega
    _ ≤ len / C * C := Nat.mul_le_mul_right C hi
    _ ≤ len := Nat.div_mul_le_self len C

theorem getElem?_remap {l : LayoutProfile} {n : Nat} {payload : List Byte} {i j off : Nat} (hi : i < n)
    (hmap : l.map[j]? = some off) :
    (remap l n payload)[i * l.map.length + j]? = some (payload.getD (i * l.channels + off) 0) := by
  have hj : j < l.map.length := (List.getElem?_eq_some_iff.1 hmap).1
  have hled : ∀ i, (remapLed l payload i).length = l.map.length := fun i => List.length_map _
  rw [Nat.mul_comm i, remap, getElem?_flatMap_of_length hled hj, List.getElem?_range hi, Option.bind_some, remapLed,
    List.getElem?_map, hmap, Option.map_some]

/-- Settles O16: LED `i` becomes one byte for each entry of MAP, and a layout of the ROM has as many entries as channels. -/
theorem remapRule : Obligations.RemapRule := by
  refine ⟨fun _ _ => ⟨rfl, rfl⟩, fun rom id l cfg pay hl => ?_⟩
  obtain ⟨-, hlen, hoff⟩ := Rom.layout_wf hl
  refine ⟨rfl, by rw [length_remap, hlen], fun i j hi hj => ?_⟩
  obtain ⟨off, hmap⟩ : ∃ off, l.map[j]? = some off := ⟨_, List.getElem?_eq_getElem (hlen ▸ hj)⟩
  have ho := hoff _ (List.mem_of_getElem? hmap)
  have hpay := led_offset_lt (lt_of_lt_of_le hi (Nat.min_le_left _ _)) ho
  refine ⟨_, _, hmap, ho, List.getElem?_eq_getElem hpay, ?_⟩
  rw [← List.getD_eq_getElem _ 0 hpay, ← getElem?_remap hi hmap, hlen]

end Sys2Proof.Machine
end

section
/-! The slots of the three per-bit operations, written out by the slot position at which they start (41_encoder.md rules R154 to
R162). -/

namespace Sys2Proof.Machine

variable {p : ChipProfile} {cap : BitVec 16} {x y : EncRun} {r : EncRegs} {buf : Buffer}

/-! ### Passive slots -/

/-- A passive slot inside a word moves on. -/
theorem trailing_inner (n : Nat) (h0 : x.regs.pos ≠ 0) (h63 : x.regs.pos ≠ 63) :
    trailing p cap (n + 1) x
      = trailing p cap n ⟨⟨x.regs.pos + 1, putSlot x.regs.acc x.regs.pos false, x.regs.na, x.regs.k⟩, x.buf⟩ := by
  rw [trailing_succ n h0, emitSlot_inner h63]; rfl

/-- A passive slot at the end of a word closes it, and the word behind it stays fresh. -/
theorem trailing_last (n : Nat) (h63 : x.regs.pos = 63) (hk : x.regs.k < cap) :
    trailing p cap (n + 1) x
      = .ok ⟨⟨0, 0, 0, x.regs.k + 1⟩,
          Memory.write x.buf x.regs.k.toNat
            ⟨putSlot x.regs.acc x.regs.pos false, BitVec.ofNat 64 (wordDur p x.regs.na.toNat)⟩⟩ := by
  rw [trailing_succ n (by rw [h63]; decide), emitSlot_last h63 hk]
  exact trailing_fresh n rfl

/-- A passive slot clears its bit, which is then as if the slots from here on were cleared. -/
theorem getLsbD_putSlot_false (acc : Slots) (pos : BitVec 6) (i : Nat) :
    ((putSlot acc pos false).getLsbD i && decide (63 - pos.toNat ≤ i)) = (acc.getLsbD i && decide (64 - pos.toNat ≤ i)) := by
  have hpos := pos.isLt
  by_cases hi : i < 64
  · rw [getLsbD_putSlot acc pos false hi]
    by_cases e : i = 63 - pos.toNat
    · rw [if_pos e, decide_eq_false (show ¬64 - pos.toNat ≤ i by omega), Bool.and_false, Bool.false_and]
    · rw [if_neg e, decide_eq_decide.2 (show 63 - pos.toNat ≤ i ↔ 64 - pos.toNat ≤ i by omega)]
  · simp [BitVec.getLsbD_of_ge _ _ (Nat.not_lt.1 hi)]

/-- Passive slots to the end of a word clear its later slots and close it. -/
theorem trailing_to_end {n : Nat} (h0 : x.regs.pos ≠ 0) (hn : 64 ≤ x.regs.pos.toNat + n) (hk : x.regs.k < cap) :
    ∃ acc : Slots, (∀ i, acc.getLsbD i = (x.regs.acc.getLsbD i && decide (64 - x.regs.pos.toNat ≤ i)))
      ∧ trailing p cap n x
        = .ok ⟨⟨0, 0, 0, x.regs.k + 1⟩,
            Memory.write x.buf x.regs.k.toNat ⟨acc, BitVec.ofNat 64 (wordDur p x.regs.na.toNat)⟩⟩ := by
  induction n generalizing x with
  | zero => exact absurd x.regs.pos.isLt (by omega)
  | succ n ih =>
    by_cases h63 : x.regs.pos = 63
    · refine ⟨_, fun i => ?_, trailing_last n h63 hk⟩
      rw [← getLsbD_putSlot_false, h63]
      simp
    · have hsucc := pos_succ h63
      rw [trailing_inner n h0 h63]
      obtain ⟨acc, hacc, heq⟩ := ih
        (x := ⟨⟨x.regs.pos + 1, putSlot x.regs.acc x.regs.pos false, x.regs.na, x.regs.k⟩, x.buf⟩)
        (by bv_omega) (by simp only [hsucc]; omega) hk
      have hrest : 64 - (x.regs.pos + 1).toNat = 63 - x.regs.pos.toNat := by omega
      refine ⟨acc, fun i => ?_, heq⟩
      rw [hacc]
      simp only [hrest]
      exact getLsbD_putSlot_false ..

/-- Settles O25: a fresh word takes no passive slot, and 64 of them reach the end of any other. -/
theorem padSlots : Obligations.PadSlots := fun _ _ r buf =>
  ⟨fun h0 => trailing_fresh 64 h0,
    fun h0 hk => trailing_to_end (x := ⟨r, buf⟩) h0 (Nat.le_add_left 64 r.pos.toNat) hk⟩

/-! ### The active slots of a bit -/

/-- A 0-bit inside a word begins with one active slot. -/
theorem encodeZero_inner (h63 : x.regs.pos ≠ 63) :
    encodeZero p cap x
      = trailing p cap (if p.doublePassiveForZero then 2 else 1)
          ⟨⟨x.regs.pos + 1, putSlot x.regs.acc x.regs.pos true, x.regs.na + 1, x.regs.k⟩, x.buf⟩ := by
  rw [encodeZero_bind, emitSlot_inner h63]; rfl

/-- A 0-bit at the end of a word closes it with its active slot, and the word behind it stays fresh. -/
theorem encodeZero_last (h63 : x.regs.pos = 63) (hk : x.regs.k < cap) :
    encodeZero p cap x
      = .ok ⟨⟨0, 0, 0, x.regs.k + 1⟩,
          Memory.write x.buf x.regs.k.toNat
            ⟨putSlot x.regs.acc x.regs.pos true, BitVec.ofNat 64 (wordDur p (x.regs.na + 1).toNat)⟩⟩ := by
  rw [encodeZero_bind, emitSlot_last h63 hk]
  exact trailing_fresh _ rfl

/-- Settles O23: by the position of the 0-bit, and whether it takes one passive slot or two. -/
theorem zeroBitSlots : Obligations.ZeroBitSlots := by
  intro p cap r buf
  refine ⟨fun hdbl hq => ?_, fun hdbl hq => ?_, fun hk hdbl hq => ?_, fun hk hq => ?_, fun hk hq => ?_⟩
  · rw [encodeZero_inner (by bv_omega), hdbl, if_neg (by decide), trailing_inner 0 (by bv_omega) (by bv_omega)]
    simp only [trailing, BitVec.add_assoc]
    rfl
  · rw [encodeZero_inner (by bv_omega), hdbl, if_pos rfl, trailing_inner 1 (by bv_omega) (by bv_omega),
      trailing_inner 0 (by bv_omega) (by bv_omega)]
    simp only [trailing, BitVec.add_assoc]
    rfl
  · rw [encodeZero_inner (by bv_omega), hdbl, if_pos rfl, trailing_inner 1 (by bv_omega) (by bv_omega),
      trailing_last 0 (by bv_omega) hk]
    simp only [hq]
    rfl
  · obtain ⟨n, hn⟩ : ∃ n, (if p.doublePassiveForZero then 2 else 1) = n + 1 := by split <;> exact ⟨_, rfl⟩
    rw [encodeZero_inner (by bv_omega), hn, trailing_last n (by bv_omega) hk]
    simp only [hq]
    rfl
  · exact encodeZero_last hq hk

/-- A 1-bit before position 63 begins with an active slot inside its word. -/
theorem encodeOne_of_ne (h63 : x.regs.pos ≠ 63) :
    encodeOne p cap x
      = (emitSlot p cap true
          ⟨⟨x.regs.pos + 1, putSlot x.regs.acc x.regs.pos true, x.regs.na + 1, x.regs.k⟩, x.buf⟩).bind
            (trailing p cap 1) := by
  have lead : leadingSlot p cap x = .ok x := if_neg h63
  rw [encodeOne_bind, lead]
  show (emitSlot p cap true x).bind _ = _
  rw [emitSlot_inner h63]
  rfl

/-- A 1-bit before position 62 has both its active slots inside its word. -/
theorem encodeOne_inner (h62 : x.regs.pos.toNat < 62) :
    encodeOne p cap x
      = trailing p cap 1
          ⟨⟨x.regs.pos + 2, putSlot (putSlot x.regs.acc x.regs.pos true) (x.regs.pos + 1) true, x.regs.na + 2, x.regs.k⟩,
            x.buf⟩ := by
  rw [encodeOne_of_ne (by bv_omega), emitSlot_inner (by simp only; bv_omega)]
  simp only [if_true, BitVec.add_assoc]
  rfl

/-- A 1-bit at position 62 closes its word with its two active slots. -/
theorem encodeOne_at62 (h62 : x.regs.pos = 62) (hk : x.regs.k < cap) :
    encodeOne p cap x
      = .ok ⟨⟨0, 0, 0, x.regs.k + 1⟩,
          Memory.write x.buf x.regs.k.toNat
            ⟨putSlot (putSlot x.regs.acc x.regs.pos true) (x.regs.pos + 1) true,
              BitVec.ofNat 64 (wordDur p (x.regs.na + 2).toNat)⟩⟩ := by
  rw [encodeOne_of_ne (by bv_omega), emitSlot_last (by simp only; bv_omega) (by exact hk)]
  simp only [if_true, BitVec.add_assoc]
  exact trailing_fresh 1 rfl

/-- A 1-bit at position 63 is one in a fresh word, behind a passive slot that closes the word before it (rule R162). -/
theorem encodeOne_at63 (h63 : x.regs.pos = 63) (hk : x.regs.k < cap) :
    encodeOne p cap x
      = encodeOne p cap ⟨⟨0, 0, 0, x.regs.k + 1⟩,
          Memory.write x.buf x.regs.k.toNat
            ⟨putSlot x.regs.acc x.regs.pos false, BitVec.ofNat 64 (wordDur p x.regs.na.toNat)⟩⟩ := by
  rw [encodeOne_bind, leadingSlot, if_pos h63, emitSlot_last h63 hk, encodeOne_bind]
  rfl

/-- Settles O24: by the position of the 1-bit. -/
theorem oneBitSlots : Obligations.OneBitSlots := by
  intro p cap r buf
  refine ⟨fun hq => ?_, fun hk hq => ?_, fun hk hq => ?_, fun hk hq => ?_⟩
  · rw [encodeOne_inner (by simp only; omega), trailing_inner 0 (by bv_omega) (by bv_omega)]
    simp only [trailing, BitVec.add_assoc]
    rfl
  · rw [encodeOne_inner (by bv_omega), trailing_last 0 (by bv_omega) hk]
    simp only [hq]
    rfl
  · exact encodeOne_at62 hq hk
  · have acc : putSlot (putSlot (putSlot 0 0 true) 1 true) 2 false = 0xC000000000000000 := by decide
    rw [encodeOne_at63 hq hk, encodeOne_inner (by simp), trailing_inner 0 (by simp) (by simp)]
    simp only [trailing, hq]
    rw [← acc]
    rfl

end Sys2Proof.Machine
end

section
/-! The words of an encoded frame: every closed word begins with an active slot (41_encoder.md rules R161 and R163), and the
buffer past them is as it was (rules R150, R155 and R171). -/

namespace Sys2Proof.Machine

variable {p : ChipProfile} {cap : BitVec 16}

/-! ### Slot 0 -/

/-- Slot 0 of every closed word is active, and so is slot 0 of a word that is open. -/
structure FirstActive (x : EncRun) : Prop where
  opened : x.regs.pos ≠ 0 → x.regs.acc.getLsbD 63 = true
  closed : ∀ k, k < x.regs.k.toNat → ∃ w, Memory.read x.buf k = some w ∧ w.bits.getLsbD 63 = true

/-- The next slot leaves slot 0 active, since a passive slot opens no word. -/
theorem FirstActive.putSlot {x : EncRun} (h : FirstActive x) {s : Bool} (hs : s = true ∨ x.regs.pos ≠ 0) :
    (putSlot x.regs.acc x.regs.pos s).getLsbD 63 = true := by
  rw [getLsbD_putSlot _ _ _ (by decide)]
  by_cases h0 : x.regs.pos = 0
  · rw [h0]; exact hs.resolve_right (not_not_intro h0)
  · have : x.regs.pos.toNat ≠ 0 := fun e => h0 (BitVec.eq_of_toNat_eq e)
    rw [if_neg (by omega)]
    exact h.opened h0

theorem slotsKeep_firstActive : SlotsKeep p cap FirstActive (fun _ => True) := by
  intro s x hx hs
  have first := hx.putSlot hs
  cases h : emitSlot p cap s x with
  | error y => trivial
  | ok y =>
    rcases emitSlot_ok h with ⟨-, rfl⟩ | ⟨-, hk, rfl⟩
    · exact ⟨fun _ => first, hx.closed⟩
    · refine ⟨fun h0 => absurd rfl h0, fun k hlt => ?_⟩
      rw [Memory.read_write]
      split
      · exact ⟨_, rfl, first⟩
      · have hsucc := toNat_succ_of_lt hk
        exact hx.closed k (by simp only [hsucc] at hlt; omega)

/-- Settles O29: every slot of the run keeps `FirstActive`. -/
theorem firstSlotActive : Obligations.FirstSlotActive := by
  intro p cap e buf x h
  have kept : FirstActive x :=
    (slotsKeep_firstActive.encodeFrame e buf ⟨fun h0 => absurd rfl h0, fun k hk => absurd hk (Nat.not_lt_zero k)⟩).of_ok h
  exact kept.closed

/-! ### The entries past the closed words -/

/-- The run has closed no word past the capacity, and every entry at or past its words is as in `old`. -/
structure WritesBelow (cap : BitVec 16) (old : Buffer) (x : EncRun) : Prop where
  count : x.regs.k.toNat ≤ cap.toNat
  same  : ∀ k, x.regs.k.toNat ≤ k → Memory.read x.buf k = Memory.read old k

theorem slotsKeep_writesBelow (old : Buffer) :
    SlotsKeep p cap (WritesBelow cap old) (fun x => x.regs.k = cap ∧ WritesBelow cap old x) := by
  intro s x hx _
  cases h : emitSlot p cap s x with
  | error y =>
    obtain ⟨-, full, hbuf, hk⟩ := emitSlot_error h
    have kcap : y.regs.k = cap := hk.trans (BitVec.eq_of_toNat_eq (Nat.le_antisymm hx.count full))
    exact ⟨kcap, by rw [kcap], by rw [hbuf, hk]; exact hx.same⟩
  | ok y =>
    rcases emitSlot_ok h with ⟨-, rfl⟩ | ⟨-, hk, rfl⟩
    · exact ⟨hx.count, hx.same⟩
    · have hsucc := toNat_succ_of_lt hk
      have hlt : x.regs.k.toNat < cap.toNat := hk
      refine ⟨by simp only [hsucc]; omega, fun k hle => ?_⟩
      simp only [hsucc] at hle
      rw [Memory.read_write_other _ _ (by omega)]
      exact hx.same k (by omega)

/-- Settles O31: every slot of the run keeps `WritesBelow`, and one that overruns the capacity finds `E_K = CAP`. -/
theorem encoderWritesOnlyItsWords : Obligations.EncoderWritesOnlyItsWords := by
  intro p cap e buf x
  have kept := (slotsKeep_writesBelow (p := p) (cap := cap) buf).encodeFrame e buf ⟨Nat.zero_le _, fun _ _ => rfl⟩
  refine ⟨fun h => (kept.of_ok h).same, fun h => ?_⟩
  obtain ⟨kcap, below⟩ := kept.of_error h
  exact ⟨kcap, kcap ▸ below.same⟩

end Sys2Proof.Machine
end

section
/-! The number of slots and of words that a run takes (41_encoder.md rules R160, R165 and R166): a run reaches the slot number
that the per-bit counts give, or it overruns the capacity because that number is past it. -/

namespace Sys2Proof.Machine

variable {p : ChipProfile} {cap : BitVec 16} {x : EncRun}

/-! ### The slot number of a run -/

/-- The number of slots that a run has put into the words closed so far and the open one. -/
def EncRun.slots (x : EncRun) : Nat := 64 * x.regs.k.toNat + x.regs.pos.toNat

theorem EncRun.slots_mod (x : EncRun) : x.slots % 64 = x.regs.pos.toNat := by
  have := x.regs.pos.isLt
  unfold EncRun.slots
  omega

/-- The run goes on to slot number `n`, or it overruns the capacity and `n` is past it. -/
def Reaches (cap : BitVec 16) (n : Nat) (r : Except EncRun EncRun) : Prop :=
  After (fun y => y.slots = n) (fun _ => 64 * cap.toNat < n) r

theorem Reaches.bind {n m : Nat} {r : Except EncRun EncRun} {f : EncRun → Except EncRun EncRun} (h : Reaches cap n r)
    (hle : n ≤ m) (hf : ∀ y, y.slots = n → Reaches cap m (f y)) : Reaches cap m (r.bind f) := by
  cases r with
  | ok y => exact hf y h
  | error y => exact Nat.lt_of_lt_of_le h hle

theorem emitSlot_reaches (s : Bool) : Reaches cap (x.slots + 1) (emitSlot p cap s x) := by
  cases h : emitSlot p cap s x with
  | error y =>
    obtain ⟨hpos, full, -, -⟩ := emitSlot_error h
    have full' : cap.toNat ≤ x.regs.k.toNat := full
    have pos63 : x.regs.pos.toNat = 63 := by rw [hpos]; rfl
    show 64 * cap.toNat < x.slots + 1
    unfold EncRun.slots
    omega
  | ok y =>
    show y.slots = x.slots + 1
    rcases emitSlot_ok h with ⟨hpos, rfl⟩ | ⟨hpos, hk, rfl⟩
    · simp only [EncRun.slots, pos_succ hpos, Nat.add_assoc]
    · have pos63 : x.regs.pos.toNat = 63 := by rw [hpos]; rfl
      show 64 * (x.regs.k + 1).toNat + 0 = x.slots + 1
      rw [toNat_succ_of_lt hk, EncRun.slots, pos63]
      rfl

/-- The slots from slot number `n` to the end of its word, none at a fresh word. -/
def slotsLeft (n : Nat) : Nat := (64 - n % 64) % 64

/-- Passive slots end at the end of the word (rule R161). -/
theorem trailing_reaches (n : Nat) : Reaches cap (x.slots + min n (slotsLeft x.slots)) (trailing p cap n x) := by
  have hmod := x.slots_mod
  induction n generalizing x with
  | zero => rw [Nat.zero_min]; rfl
  | succ n ih =>
    by_cases h0 : x.regs.pos = 0
    · rw [trailing_fresh _ h0]
      have fresh : x.slots % 64 = 0 := by rw [hmod, h0]; rfl
      show x.slots = _
      simp [slotsLeft, fresh]
    · have hpos : x.regs.pos.toNat ≠ 0 := fun e => h0 (BitVec.eq_of_toNat_eq e)
      have one : x.slots + 1 + min n (slotsLeft (x.slots + 1)) = x.slots + min (n + 1) (slotsLeft x.slots) := by
        unfold slotsLeft; omega
      rw [trailing_succ n h0, ← one]
      exact (emitSlot_reaches false).bind (Nat.le_add_right _ _) fun y hy => hy ▸ ih y.slots_mod

/-! ### The bits of a frame -/

/-- A 0-bit takes its active slot and the passive slots that its word has left (rule R157). -/
theorem bitSlots_false (dbl : Bool) (n : Nat) :
    bitSlots dbl (n % 64) false = 1 + min (if dbl then 2 else 1) (slotsLeft (n + 1)) := by
  unfold bitSlots slotsLeft
  cases dbl
  · simp only [Bool.false_eq_true, if_false]; split <;> omega
  · simp only [Bool.false_eq_true, if_false, if_true]; repeat' split
    all_goals omega

/-- A 1-bit takes a passive slot where the word has one slot left, its two active slots, and the passive slot that its word has
left (rules R158 and R162). -/
theorem bitSlots_true (dbl : Bool) (n : Nat) :
    bitSlots dbl (n % 64) true = (if n % 64 = 63 then 1 else 0) + 2
      + min 1 (slotsLeft (n + (if n % 64 = 63 then 1 else 0) + 2)) := by
  unfold bitSlots slotsLeft
  simp only [if_true]
  repeat' split
  all_goals omega

theorem leadingSlot_reaches :
    Reaches cap (x.slots + if x.slots % 64 = 63 then 1 else 0) (leadingSlot p cap x) := by
  have hmod := x.slots_mod
  unfold leadingSlot
  by_cases h63 : x.regs.pos = 63
  · rw [if_pos h63, if_pos (by rw [hmod, h63]; rfl)]
    exact emitSlot_reaches false
  · have hpos : x.regs.pos.toNat ≠ 63 := fun e => h63 (BitVec.eq_of_toNat_eq e)
    rw [if_neg h63, if_neg (by omega)]
    rfl

theorem encodeBit_reaches (b : Bool) :
    Reaches cap (x.slots + bitSlots p.doublePassiveForZero (x.slots % 64) b) (encodeBit p cap b x) := by
  cases b with
  | false =>
    show Reaches cap _ (encodeZero p cap x)
    rw [bitSlots_false, ← Nat.add_assoc, encodeZero_bind]
    exact (emitSlot_reaches true).bind (Nat.le_add_right _ _) fun y hy => hy ▸ trailing_reaches _
  | true =>
    show Reaches cap _ (encodeOne p cap x)
    rw [bitSlots_true, encodeOne_bind]
    refine leadingSlot_reaches.bind (by omega) fun y hy => ?_
    refine (emitSlot_reaches true).bind (by omega) fun z hz => ?_
    refine (emitSlot_reaches true).bind (by omega) fun w hw => ?_
    have active : w.slots = x.slots + (if x.slots % 64 = 63 then 1 else 0) + 2 := by rw [hw, hz, hy]
    rw [← Nat.add_assoc, ← Nat.add_assoc, ← active]
    exact trailing_reaches 1

theorem le_slotTotal (dbl : Bool) (bits : List Bool) (n : Nat) : n ≤ slotTotal dbl bits n := by
  induction bits generalizing n with
  | nil => exact Nat.le_refl n
  | cons b rest ih => exact (Nat.le_add_right _ _).trans (ih _)

theorem encodeBits_reaches (bits : List Bool) :
    Reaches cap (slotTotal p.doublePassiveForZero bits x.slots) (encodeBits p cap bits x) := by
  induction bits generalizing x with
  | nil => rfl
  | cons b rest ih =>
    rw [encodeBits_cons, slotTotal]
    exact (encodeBit_reaches b).bind (le_slotTotal ..) fun y hy => hy ▸ ih

/-- A frame fills the words that its slots begin (rules R160 and R165). -/
theorem encodeFrame_reaches (e : List Byte) (buf : Buffer) :
    Reaches cap (64 * ceilDiv (slotTotal p.doublePassiveForZero (bitsOf e) 0) 64) (encodeFrame p cap e buf) := by
  have filled (n : Nat) : 64 * ceilDiv n 64 = n + min 64 (slotsLeft n) := by
    unfold ceilDiv slotsLeft; omega
  rw [encodeFrame_bind, filled]
  exact (encodeBits_reaches _).bind (Nat.le_add_right _ _) fun y hy => hy ▸ trailing_reaches 64

/-! ### The word count -/

theorem encodeFrame_count {e : List Byte} {buf : Buffer} (h : encodeFrame p cap e buf = .ok x) :
    x.regs.k.toNat = ceilDiv (slotTotal p.doublePassiveForZero (bitsOf e) 0) 64 := by
  have hslots : x.slots = 64 * ceilDiv (slotTotal p.doublePassiveForZero (bitsOf e) 0) 64 :=
    After.of_ok (encodeFrame_reaches e buf) h
  have := x.regs.pos.isLt
  unfold EncRun.slots at hslots
  omega

/-- A frame whose words the capacity has is encoded. -/
theorem encodeFrame_of_fits {e : List Byte} (buf : Buffer)
    (hfits : ceilDiv (slotTotal p.doublePassiveForZero (bitsOf e) 0) 64 ≤ cap.toNat) :
    ∃ x, encodeFrame p cap e buf = .ok x := by
  cases h : encodeFrame p cap e buf with
  | ok x => exact ⟨x, rfl⟩
  | error x =>
    have past : 64 * cap.toNat < 64 * ceilDiv (slotTotal p.doublePassiveForZero (bitsOf e) 0) 64 :=
      After.of_error (encodeFrame_reaches e buf) h
    omega

/-- The bits of a frame one after another are a monadic fold. -/
theorem encodeBits_eq_foldlM (bits : List Bool) :
    encodeBits p cap bits x
      = bits.foldlM (fun (x : EncRun) (b : Bool) => if b then encodeOne p cap x else encodeZero p cap x) x := by
  induction bits generalizing x with
  | nil => rfl
  | cons b rest ih =>
    rw [encodeBits_cons, List.foldlM_cons]
    exact bind_congr fun y => ih

/-- Settles O28: a frame is the fold over its bits and then ENC_PAD, which fill the words that the bits' slots begin. -/
theorem wordCountFormula : Obligations.WordCountFormula := by
  refine ⟨fun e => ⟨length_bitsOf e, fun k b hk j hj => getElem?_bitsOf hk hj⟩, fun p cap e buf => ?_,
    fun p cap e buf x h => encodeFrame_count h⟩
  rw [encodeFrame_bind, encodeBits_eq_foldlM]
  rfl

end Sys2Proof.Machine
end

section
/-! The worst case of the word count (41_encoder.md rules R166 and R167, 43_session.md rule R244): 21 bits to a word at least,
and so no capacity fault where the capacity is the default one. -/

namespace Sys2Proof.Machine

variable {p : ChipProfile} {cap : BitVec 16} {rom : Rom} {cfg : CfgRegs} {frame : List Byte} {f : Frame}

/-! ### The load of a slot number -/

/-- The slots up to slot number `n`, with one slot fewer for each full word: a bit adds 3 of these at most. -/
def slotLoad (n : Nat) : Nat := 63 * (n / 64) + n % 64

theorem slotLoad_add_bitSlots_le (dbl b : Bool) (n : Nat) : slotLoad (n + bitSlots dbl (n % 64) b) ≤ slotLoad n + 3 := by
  unfold slotLoad bitSlots
  repeat' split
  all_goals omega

theorem slotLoad_slotTotal_le (dbl : Bool) (bits : List Bool) (n : Nat) :
    slotLoad (slotTotal dbl bits n) ≤ slotLoad n + 3 * bits.length := by
  induction bits generalizing n with
  | nil => exact Nat.le_refl _
  | cons b rest ih =>
    have hbit := slotLoad_add_bitSlots_le dbl b n
    have hrest := ih (n + bitSlots dbl (n % 64) b)
    rw [slotTotal, List.length_cons]
    omega

/-- A word takes 64 slots, and 63 of the load. -/
theorem ceilDiv_slotLoad (n : Nat) : ceilDiv n 64 = ceilDiv (slotLoad n) 63 := by
  unfold ceilDiv slotLoad; omega

/-- `K` is at most the number of bits over 21, rounded up. -/
theorem ceilDiv_slotTotal_le (dbl : Bool) (e : List Byte) :
    ceilDiv (slotTotal dbl (bitsOf e) 0) 64 ≤ ceilDiv (8 * e.length) 21 := by
  have hload : slotLoad (slotTotal dbl (bitsOf e) 0) ≤ 3 * (8 * e.length) := by
    simpa [slotLoad, length_bitsOf] using slotLoad_slotTotal_le dbl (bitsOf e) 0
  rw [ceilDiv_slotLoad]
  unfold ceilDiv
  omega

/-- A payload of at most 21 bits a word is encoded. -/
theorem encodeFrame_of_bits_le {e : List Byte} (buf : Buffer) (hcap : 8 * e.length ≤ 21 * cap.toNat) :
    ∃ x, encodeFrame p cap e buf = .ok x := by
  refine encodeFrame_of_fits buf ((ceilDiv_slotTotal_le _ e).trans ?_)
  unfold ceilDiv
  omega

/-! ### The payload of ones -/

/-- A 1-bit behind whole triples of slots is another triple, and where the word has one slot left, it leaves that slot out of
the load. -/
theorem slotLoad_add_bitSlots_true (dbl : Bool) {n : Nat} (hn : n % 64 % 3 = 0) :
    slotLoad (n + bitSlots dbl (n % 64) true) = slotLoad n + 3 ∧ (n + bitSlots dbl (n % 64) true) % 64 % 3 = 0 := by
  have hslots : bitSlots dbl (n % 64) true = if n % 64 = 63 then 4 else 3 := by
    unfold bitSlots
    simp only [if_true]
    repeat' split
    all_goals omega
  unfold slotLoad
  rw [hslots]
  split
  · omega
  · have hword : (n + 3) % 64 = n % 64 + 3 := by omega
    omega

theorem slotLoad_slotTotal_ones (dbl : Bool) (m : Nat) {n : Nat} (hn : n % 64 % 3 = 0) :
    slotLoad (slotTotal dbl (List.replicate m true) n) = slotLoad n + 3 * m := by
  induction m generalizing n with
  | zero => rfl
  | succ m ih =>
    obtain ⟨hload, hnext⟩ := slotLoad_add_bitSlots_true dbl hn
    rw [List.replicate_succ, slotTotal, ih hnext, hload]
    omega

theorem bitsOf_ones (n : Nat) : bitsOf (List.replicate n 0xFF) = List.replicate (n * 8) true := by
  rw [bitsOf, List.flatMap_def, List.map_replicate, show byteBits 0xFF = List.replicate 8 true from rfl,
    List.flatten_replicate_replicate]

theorem ceilDiv_slotTotal_ones (dbl : Bool) (n : Nat) :
    ceilDiv (slotTotal dbl (bitsOf (List.replicate n 0xFF)) 0) 64 = ceilDiv (8 * n) 21 := by
  rw [bitsOf_ones, ceilDiv_slotLoad, slotLoad_slotTotal_ones dbl (n * 8) rfl]
  unfold ceilDiv slotLoad
  omega

/-! ### The frames of a session with the default capacity -/

theorem Rom.mem_of_layout {id : RomId} {l : LayoutProfile} (h : rom.layout id = some l) : (id, l) ∈ rom.tables.layouts := by
  unfold Rom.layout at h
  split at h
  · cases h
  · exact mem_of_entryOf h

/-- In the fixed modes a frame's head takes the configuration's ids (43_session.md rule R246). -/
theorem frameHead_of_fixed (hm : cfg.mode ≠ .perFrame) (frame : List Byte) :
    frameHead cfg frame = .ok (fixedHead cfg frame) := by
  cases hmode : cfg.mode with
  | perFrame => exact absurd hmode hm
  | predef => simp only [frameHead, hmode]
  | pair => simp only [frameHead, hmode]

theorem parseFrame_layoutId (h : parseFrame rom cfg frame = .ok f) (hm : cfg.mode ≠ .perFrame) : f.layoutId = cfg.layout := by
  simp only [parseFrame, frameHead_of_fixed hm] at h
  split at h
  · cases h; rfl
  · cases h

/-- The channels of a frame are within those that size its session's buffer (rule R244). -/
theorem parseFrame_channels_le {c : Nat} (h : parseFrame rom cfg frame = .ok f)
    (hvar : cfg.mode = .perFrame → rom.cmax = some c)
    (hfix : cfg.mode ≠ .perFrame → ∃ l, rom.layout cfg.layout = some l ∧ l.channels = c) : f.layout.channels ≤ c := by
  have hl := (parseFrame_entries h).1
  by_cases hm : cfg.mode = .perFrame
  · exact (Rom.cmax_largest (hvar hm)).2 _ (Rom.mem_of_layout hl)
  · obtain ⟨l, hcfg, rfl⟩ := hfix hm
    rw [parseFrame_layoutId h hm, hcfg] at hl
    cases hl
    exact Nat.le_refl _

theorem Frame.length_encoded_le {c : Nat} (h : parseFrame rom cfg frame = .ok f) (hc : f.layout.channels ≤ c) :
    (f.encoded cfg).length ≤ cfg.ledMax.toNat * c := by
  obtain ⟨-, hlen, -⟩ := Rom.layout_wf (parseFrame_entries h).1
  calc (f.encoded cfg).length = f.leds cfg * f.layout.channels := by rw [Frame.encoded, length_remap, hlen]
    _ ≤ cfg.ledMax.toNat * c := Nat.mul_le_mul (Nat.min_le_right _ _) hc

/-- Settles O27: a bit adds 3 to the load of 63 that a word takes, a 1-bit of an all-ones payload adds exactly 3, and a parsed
frame has no more bytes than the default capacity is sized for. -/
theorem worstCaseWordCount : Obligations.WorstCaseWordCount := by
  refine ⟨fun p cap e buf hcap => ?_, fun p cap n buf hcap => ?_, fun rom cfg frame f c buf hf hvar hfix hcap => ?_⟩
  · obtain ⟨x, hx⟩ := encodeFrame_of_bits_le (p := p) buf hcap
    exact ⟨x, hx, encodeFrame_count hx ▸ ceilDiv_slotTotal_le _ e⟩
  · obtain ⟨x, hx⟩ := encodeFrame_of_bits_le (p := p) (e := List.replicate n 0xFF) buf (by simpa using hcap)
    exact ⟨x, hx, (encodeFrame_count hx).trans (ceilDiv_slotTotal_ones _ n)⟩
  · have hlen := Frame.length_encoded_le hf (parseFrame_channels_le hf hvar hfix)
    exact encodeFrame_of_bits_le buf (by omega)

end Sys2Proof.Machine
end

section
/-! The four encoder operations run on their own (41_encoder.md rules R157 to R160, 60_exceptions.md rule R305): when each goes
on, when it meets a full buffer, and what it leaves behind either way. -/

namespace Sys2Proof.Machine

variable {p : ChipProfile} {cap : BitVec 16} {x y : EncRun} {r : EncRegs} {buf : Buffer} {s : State} {c : Channel}
  {ss : Session} {ret : EncRun → Ret}

/-! ### Going on -/

/-- The last slot position from which a 0-bit closes no word (rule R157). -/
def lastZero (p : ChipProfile) : Nat := if p.doublePassiveForZero then 60 else 61

theorem encodeZero_goesOn (h : r.k < cap ∨ r.pos.toNat ≤ lastZero p) : ∃ x, encodeZero p cap ⟨r, buf⟩ = .ok x := by
  obtain ⟨single, double, at61, at62, at63⟩ := zeroBitSlots p cap r buf
  have room : lastZero p < r.pos.toNat → r.k < cap := fun hlast => h.resolve_right (by omega)
  have hpos : r.pos.toNat ≤ 60 ∨ r.pos = 61 ∨ r.pos = 62 ∨ r.pos = 63 := by bv_omega
  unfold lastZero at room
  cases hdbl : p.doublePassiveForZero with
  | false =>
    simp only [hdbl, Bool.false_eq_true, if_false] at room
    rcases hpos with hpos | hpos | hpos | hpos
    · exact ⟨_, single hdbl (by omega)⟩
    · exact ⟨_, single hdbl (by bv_omega)⟩
    · exact ⟨_, at62 (room (by bv_omega)) hpos⟩
    · exact ⟨_, at63 (room (by bv_omega)) hpos⟩
  | true =>
    simp only [hdbl, if_true] at room
    rcases hpos with hpos | hpos | hpos | hpos
    · exact ⟨_, double hdbl hpos⟩
    · exact ⟨_, at61 (room (by bv_omega)) hdbl hpos⟩
    · exact ⟨_, at62 (room (by bv_omega)) hpos⟩
    · exact ⟨_, at63 (room (by bv_omega)) hpos⟩

theorem encodeOne_goesOn (h : r.k < cap ∨ r.pos.toNat ≤ 60) : ∃ x, encodeOne p cap ⟨r, buf⟩ = .ok x := by
  obtain ⟨inner, at61, at62, at63⟩ := oneBitSlots p cap r buf
  have room : 60 < r.pos.toNat → r.k < cap := fun hlast => h.resolve_right (by omega)
  have hpos : r.pos.toNat ≤ 60 ∨ r.pos = 61 ∨ r.pos = 62 ∨ r.pos = 63 := by bv_omega
  rcases hpos with hpos | hpos | hpos | hpos
  · exact ⟨_, inner hpos⟩
  · exact ⟨_, at61 (room (by bv_omega)) hpos⟩
  · exact ⟨_, at62 (room (by bv_omega)) hpos⟩
  · exact ⟨_, at63 (room (by bv_omega)) hpos⟩

theorem encodePad_goesOn (h : r.k < cap ∨ r.pos = 0) : ∃ x, encodePad p cap ⟨r, buf⟩ = .ok x := by
  obtain ⟨fresh, closes⟩ := padSlots p cap r buf
  by_cases h0 : r.pos = 0
  · exact ⟨_, fresh h0⟩
  · obtain ⟨acc, -, hx⟩ := closes h0 (h.resolve_right h0)
    exact ⟨_, hx⟩

/-! ### A full buffer -/

/-- The run has closed no word behind `x`. -/
def SameWords (x y : EncRun) : Prop := y.buf = x.buf ∧ y.regs.k = x.regs.k

/-- On a full buffer no word is closed (rule R155). -/
theorem slotsKeep_sameWords (hk : cap ≤ x.regs.k) : SlotsKeep p cap (SameWords x) (SameWords x) := by
  rintro s y ⟨hbuf, hsame⟩ -
  cases h : emitSlot p cap s y with
  | error z =>
    obtain ⟨-, -, hb, hz⟩ := emitSlot_error h
    exact ⟨hb.trans hbuf, hz.trans hsame⟩
  | ok z =>
    rcases emitSlot_ok h with ⟨-, rfl⟩ | ⟨-, room, -⟩
    · exact ⟨hbuf, hsame⟩
    · rw [hsame] at room
      exact absurd hk (BitVec.not_le.2 room)

/-- A run on a full buffer that would reach the end of its word overruns the capacity. -/
theorem overruns_of_full {e : Except EncRun EncRun} {n : Nat} (hkeep : After (SameWords x) (SameWords x) e)
    (hreach : Reaches cap n e) (hn : 64 * x.regs.k.toNat + 64 ≤ n) : ∃ y, e = .error y ∧ SameWords x y := by
  cases e with
  | error y => exact ⟨y, rfl, hkeep⟩
  | ok y =>
    have hslots : y.slots = n := hreach
    have hk : y.regs.k = x.regs.k := hkeep.2
    have hpos := y.regs.pos.isLt
    unfold EncRun.slots at hslots
    rw [hk] at hslots
    omega

theorem encodeBit_overruns {b : Bool} (hk : cap ≤ x.regs.k)
    (hend : 64 ≤ x.regs.pos.toNat + bitSlots p.doublePassiveForZero x.regs.pos.toNat b) :
    ∃ y, encodeBit p cap b x = .error y ∧ SameWords x y := by
  refine overruns_of_full ((slotsKeep_sameWords hk).encodeBit b ⟨rfl, rfl⟩) (encodeBit_reaches b) ?_
  rw [EncRun.slots_mod, EncRun.slots]
  omega

theorem encodeZero_overruns (hk : cap ≤ x.regs.k) (hlast : lastZero p < x.regs.pos.toNat) :
    ∃ y, encodeZero p cap x = .error y ∧ SameWords x y := by
  refine encodeBit_overruns (b := false) hk ?_
  unfold lastZero at hlast
  unfold bitSlots
  cases hdbl : p.doublePassiveForZero <;> simp only [hdbl, Bool.false_eq_true, if_false, if_true] at hlast ⊢
  · split <;> omega
  · repeat' split
    all_goals omega

theorem encodeOne_overruns (hk : cap ≤ x.regs.k) (hlast : 60 < x.regs.pos.toNat) :
    ∃ y, encodeOne p cap x = .error y ∧ SameWords x y := by
  refine encodeBit_overruns (b := true) hk ?_
  unfold bitSlots
  simp only [if_true]
  repeat' split
  all_goals omega

theorem encodePad_overruns (hk : cap ≤ x.regs.k) (h0 : x.regs.pos ≠ 0) :
    ∃ y, encodePad p cap x = .error y ∧ SameWords x y := by
  have hpos : x.regs.pos.toNat ≠ 0 := fun e => h0 (BitVec.eq_of_toNat_eq e)
  refine overruns_of_full ((slotsKeep_sameWords hk).trailing 64 ⟨rfl, rfl⟩) (trailing_reaches 64) ?_
  rw [slotsLeft, EncRun.slots_mod, EncRun.slots]
  omega

/-- A frame with a byte closes a word, for which no capacity has no room. -/
theorem encodeFrame_overruns {e : List Byte} (he : e ≠ []) : ∃ y, encodeFrame p 0 e buf = .error y := by
  cases h : encodeFrame p 0 e buf with
  | error y => exact ⟨y, rfl⟩
  | ok y =>
    obtain ⟨words, one⟩ := encodeFrame_words h he
    exact absurd (one.trans words.count) (by decide)

/-! ### The ends of an operation -/

/-- The end of an operation on a session's buffer: its registers, its answer and that buffer are written. -/
def encWritten (c : Channel) (ss : Session) (s : State) (x : EncRun) (ret : Ret) : State :=
  { s with
    enc := { s.enc with regs := x.regs }
    ret := ret
    chans := s.chans.set s.enc.ch.toNat { c with session := some { ss with buf := x.buf } } }

/-- The capacity fault of an operation (60_exceptions.md rule R305), which found the buffer `buf` and `E_K = k`. -/
def encFaulted (c : Channel) (ss : Session) (s : State) (buf : Buffer) (k : BitVec 16) : State :=
  { s with
    enc := { s.enc with regs := ⟨0, 0, 0, 0⟩ }
    ret := .capacity k
    outs := s.outs ++ (if ss.eng.tmrArmed then [[0x91, s.enc.ch]] else [])
    chans := s.chans.set s.enc.ch.toNat
      { c with
        tmr := if ss.eng.tmrArmed then { req := none } else c.tmr
        session := some
          { ss with
            buf := buf
            eng :=
              { ss.eng with
                fatal := true, notReady := true, pendNew := false, pendRetry := false, remain := 0,
                tmrArmed := false } } } }

section

variable {e : Except EncRun EncRun} (hc : s.channel? s.enc.ch = some c) (hs : c.session = some ss)
include hc hs

theorem encFinish_ok : encFinish (.ok x) ret s = .next (encWritten c ss s x (ret x)) := by
  simp [encFinish, encDone, encWritten, hc, hs, commit_nil, State.setChannel]

theorem encFinish_error : encFinish (.error x) ret s = .next (encFaulted c ss s x.buf x.regs.k) := by
  simp only [encFinish, encFull, encFaulted, hc, hs, capacityFault, commit]
  cases ss.eng.tmrArmed <;> rfl

theorem encFinish_goesOn (h : ∃ x, e = .ok x) :
    ∃ x, e = .ok x ∧ encFinish e ret s = .next (encWritten c ss s x (ret x)) := by
  obtain ⟨x, rfl⟩ := h
  exact ⟨x, rfl, encFinish_ok hc hs⟩

theorem encFinish_overruns (h : ∃ y, e = .error y ∧ SameWords x y) :
    encFinish e ret s = .next (encFaulted c ss s x.buf x.regs.k) := by
  obtain ⟨y, rfl, hbuf, hk⟩ := h
  rw [encFinish_error hc hs, hbuf, hk]

end

/-- Without a session an operation that goes on writes its registers and its answer. -/
theorem encFinish_ok_of_none (h : s.session? s.enc.ch = none) :
    encFinish (.ok x) ret s = .next { s with enc := { s.enc with regs := x.regs }, ret := ret x } := by
  cases hc : s.channel? s.enc.ch with
  | none => simp only [encFinish, encDone, hc]
  | some c =>
    have hs : c.session = none := (session?_of_channel hc).symm.trans h
    simp only [encFinish, encDone, hc, hs]

/-- Without a session an operation that would close a word stops (10_state.md rule R53). -/
theorem encFinish_error_of_none (h : s.session? s.enc.ch = none) :
    encFinish (.error x) ret s = .fault (.noBuffer s.enc.ch) := by
  cases hc : s.channel? s.enc.ch with
  | none => simp only [encFinish, encFull, hc]
  | some c =>
    have hs : c.session = none := (session?_of_channel hc).symm.trans h
    simp only [encFinish, encFull, hc, hs]

theorem encFinish_goesOn_of_none {e : Except EncRun EncRun} (h : s.session? s.enc.ch = none) (he : ∃ x, e = .ok x) :
    ∃ x, e = .ok x ∧ encFinish e ret s = .next { s with enc := { s.enc with regs := x.regs }, ret := ret x } := by
  obtain ⟨x, rfl⟩ := he
  exact ⟨x, rfl, encFinish_ok_of_none h⟩

theorem encFinish_overruns_of_none {e : Except EncRun EncRun} (h : s.session? s.enc.ch = none)
    (he : ∃ y, e = .error y ∧ SameWords x y) : encFinish e ret s = .fault (.noBuffer s.enc.ch) := by
  obtain ⟨y, rfl, -⟩ := he
  exact encFinish_error_of_none h

theorem encRun_of_session (h : s.session? s.enc.ch = some ss) :
    encCap s = ss.cfg.cap ∧ encRun s = ⟨s.enc.regs, ss.buf⟩ := by
  simp only [encCap, encRun, h, and_self]

theorem encRun_of_none (h : s.session? s.enc.ch = none) : encCap s = 0 ∧ encRun s = ⟨s.enc.regs, []⟩ := by
  simp only [encCap, encRun, h, and_self]

/-! ### The operations -/

theorem exec_encBit0 (s : State) :
    exec .encBit0 s = encFinish (encodeZero s.enc.chip (encCap s) (encRun s)) (fun _ => .nothing) s := rfl

theorem exec_encBit1 (s : State) :
    exec .encBit1 s = encFinish (encodeOne s.enc.chip (encCap s) (encRun s)) (fun _ => .nothing) s := rfl

theorem exec_encPad (s : State) :
    exec .encPad s = encFinish (encodePad s.enc.chip (encCap s) (encRun s)) (fun _ => .nothing) s := rfl

theorem exec_encode (s : State) :
    exec .encode s
      = encFinish (encodeFrame s.enc.chip (encCap s) s.enc.bytes (encRun s).buf) (fun x => .words x.regs.k) s := rfl

/-- Settles O26: an operation ends as its run does, on a session's buffer, on a full one, and without a session, which is
as a buffer of no capacity. -/
theorem encoderOpsComplete : Obligations.EncoderOpsComplete := by
  constructor
  · intro s c ss hc hs
    obtain ⟨hcap, hrun⟩ := encRun_of_session ((session?_of_channel hc).trans hs)
    rw [exec_encBit0, exec_encBit1, exec_encPad, exec_encode, hcap, hrun]
    refine ⟨fun h => encFinish_goesOn hc hs (encodeZero_goesOn h), fun h => encFinish_goesOn hc hs (encodeOne_goesOn h),
      fun h => encFinish_goesOn hc hs (encodePad_goesOn h), fun hk => ⟨fun h => ?_, fun h => ?_, fun h => ?_⟩,
      fun x h => ?_, fun x h => ?_, fun h => encodeFrame_of_bits_le _ h⟩
    · exact encFinish_overruns hc hs (encodeZero_overruns (p := s.enc.chip) (x := ⟨s.enc.regs, ss.buf⟩) hk h)
    · exact encFinish_overruns hc hs (encodeOne_overruns (x := ⟨s.enc.regs, ss.buf⟩) hk h)
    · exact encFinish_overruns hc hs (encodePad_overruns (x := ⟨s.enc.regs, ss.buf⟩) hk h)
    · rw [h]; exact encFinish_ok hc hs
    · rw [h]; exact encFinish_error hc hs
  · intro s hnone
    obtain ⟨hcap, hrun⟩ := encRun_of_none hnone
    rw [exec_encBit0, exec_encBit1, exec_encPad, exec_encode, hcap, hrun]
    have full : (0 : BitVec 16) ≤ s.enc.regs.k := Nat.zero_le _
    refine ⟨fun h => ?_, fun h => ?_, fun h => ?_, fun h => ?_,
      fun h => encFinish_goesOn_of_none hnone (encodeZero_goesOn (.inr h)),
      fun h => encFinish_goesOn_of_none hnone (encodeOne_goesOn (.inr h)), fun h => ?_, fun h => ?_⟩
    · exact encFinish_overruns_of_none hnone (encodeZero_overruns (p := s.enc.chip) (x := ⟨s.enc.regs, []⟩) full h)
    · exact encFinish_overruns_of_none hnone (encodeOne_overruns (x := ⟨s.enc.regs, []⟩) full h)
    · exact encFinish_overruns_of_none hnone (encodePad_overruns (x := ⟨s.enc.regs, []⟩) full h)
    · obtain ⟨y, hy⟩ := encodeFrame_overruns (p := s.enc.chip) (buf := []) h
      rw [hy, encFinish_error_of_none hnone]
    · rw [encodePad, trailing_fresh 64 h, encFinish_ok_of_none hnone]
    · rw [h]; exact encFinish_ok_of_none hnone

end Sys2Proof.Machine
end

section
/-! The two platform events at a live session (42_engine.md rules R192 to R201, 70_reset_and_hazards.md rule R355): which branch
of its rule a COMPLETE or a WAKE takes, and the whole state that it leaves. -/

namespace Sys2Proof.Machine

variable {rom : Rom} {s : State} {ch : ChanId} {c : Channel} {ss ss' : Session} {now : Ns64} {p : ChipProfile} {w : WaveWord}
  {cmds : List Instr}

theorem andThen_frameChip {α : Type} (hp : rom.chip ss.latch.chip = some p) (f : ChipProfile → Result α) :
    andThen (frameChip rom ch ss) f = f p := by rw [frameChip_of_some hp, andThen_of_next]

/-! ### COMPLETE (rules R195 to R199) -/

/-- A COMPLETE to a live session ends as the session's own rule does. -/
theorem exec_complete_of_live (hl : Live s ch c ss) (h : completeSession s.rom ch now ss = .next (ss', cmds)) :
    exec (.complete ch now) s = .next (commit ch c (some ss') cmds s) := by
  show execComplete ch now s = _
  rw [execComplete, onEvent_live hl.channel hl.session hl.alive, h, andThen_of_next]

theorem completeSession_stray (hst : ss.eng.st ≠ .sending) :
    completeSession rom ch now ss = .next ({ ss with stats := ss.stats.signalled }, []) := if_pos hst

theorem completeSession_inTime (hst : ss.eng.st = .sending)
    (htol : (now.toNat : Int) - ss.eng.expectT.toNat ≤ ss.latch.maxPassNs.toNat) :
    completeSession rom ch now ss
      = completeInTime rom ch now (delayOf now ss.eng.expectT) { ss with stats := ss.stats.signalled } :=
  (if_neg (not_not_intro hst)).trans (if_pos (decide_eq_true htol))

theorem completeSession_late (hst : ss.eng.st = .sending)
    (hlate : (ss.latch.maxPassNs.toNat : Int) < (now.toNat : Int) - ss.eng.expectT.toNat)
    (hp : rom.chip ss.latch.chip = some p) :
    completeSession rom ch now ss
      = .next (violation ch p now (delayOf now ss.eng.expectT) { ss with stats := ss.stats.signalled }) := by
  have hout : ¬withinTolerance (delayOf now ss.eng.expectT) ss.latch.maxPassNs = true :=
    fun h => absurd (of_decide_eq_true h) (Int.not_le.2 hlate)
  exact ((if_neg (not_not_intro hst)).trans (if_neg hout)).trans
    (andThen_frameChip (ss := { ss with stats := ss.stats.signalled }) hp _)

/-- Within tolerance and with words left, the next word is loaded. -/
theorem completeInTime_of_remain {delay : Int} (hrem : ss.eng.remain ≠ 0) (hlt : ss.eng.next < ss.eng.wcount)
    (hw : Memory.read ss.buf ss.eng.next.toNat = some w) :
    completeInTime rom ch now delay ss
      = .next ({ ss with stats := ss.stats.delayed delay, eng := ss.eng.loaded now w.dur }, [.genLoad ch w.bits]) :=
  (if_pos hrem).trans (loadNext_of_word (ss := { ss with stats := ss.stats.delayed delay }) hlt hw)

/-- Within tolerance and with no word left, the frame is finished. -/
theorem completeInTime_of_done {delay : Int} (hrem : ss.eng.remain = 0) (hp : rom.chip ss.latch.chip = some p) :
    completeInTime rom ch now delay ss = .next (finishFrame ch p now { ss with stats := ss.stats.delayed delay }) :=
  (if_neg (not_not_intro hrem)).trans (andThen_frameChip (ss := { ss with stats := ss.stats.delayed delay }) hp _)

/-- Settles O35: outside SENDING the signal is counted and no command is sent. -/
theorem strayCompleteOnlyCounts : Obligations.StrayCompleteOnlyCounts := by
  intro s ch c ss now hl hst
  rw [exec_complete_of_live hl (completeSession_stray hst), commit_nil]
  rfl

/-- Settles O32: `REMAIN` says that there is a next word, and `NEXT` where it stands. -/
theorem completeLoadsNextWord : Obligations.CompleteLoadsNextWord := by
  intro s ch c ss now w hl hst htol hrem hlt hw
  exact exec_complete_of_live hl ((completeSession_inTime hst htol).trans (completeInTime_of_remain hrem hlt hw))

/-- Settles O33: with no word left the frame is finished, and TMR_ARM is the one command. -/
theorem completeFinishesFrame : Obligations.CompleteFinishesFrame := by
  intro s ch c ss now p hl hst htol hrem hp
  exact exec_complete_of_live hl ((completeSession_inTime hst htol).trans (completeInTime_of_done hrem hp))

/-- Settles O34: of the two outcomes of a violation, the budget of retries selects the one. -/
theorem lateComplete : Obligations.LateComplete := by
  intro s ch c ss now p hl hst hlate hp
  have late := completeSession_late (ch := ch) hst hlate hp
  rcases violation_cases ch p now (delayOf now ss.eng.expectT) { ss with stats := ss.stats.signalled }
    with ⟨hbudget, hv⟩ | ⟨hbudget, hv⟩
  · have spent : ss.latch.maxRetry.toNat < (ss.eng.retry + 1).toNat := of_decide_eq_true hbudget
    exact ⟨fun left => absurd spent (Nat.not_lt.2 left), fun _ => exec_complete_of_live hl (hv ▸ late)⟩
  · have left : ¬ss.latch.maxRetry.toNat < (ss.eng.retry + 1).toNat := of_decide_eq_false hbudget
    exact ⟨fun _ => exec_complete_of_live hl (hv ▸ late), fun spent => absurd spent left⟩

/-! ### WAKE (rule R201) -/

/-- A WAKE to a live session ends as the session's own rule does. -/
theorem exec_wake_of_live (hl : Live s ch c ss) (h : wakeSession s.rom ch now ss = .next (ss', cmds)) :
    exec (.wake ch now) s = .next (commit ch c (some ss') cmds s) := by
  show execWake ch now s = _
  rw [execWake, onEvent_live hl.channel hl.session hl.alive, h, andThen_of_next]

theorem wakeDue_iff {e : EngineRegs} : wakeDue e now = true ↔ e.tmrArmed = true ∧ e.tmrDeadline.toNat ≤ now.toNat := by
  rw [wakeDue, Bool.and_eq_true, decide_eq_true_iff, BitVec.le_def]

theorem wakeSession_ignored (h : ¬wakeDue ss.eng now = true) : wakeSession rom ch now ss = .next (ss, []) := by
  rw [wakeSession, if_pos (by simpa using h)]

theorem wakeSession_idle (hdue : wakeDue ss.eng now = true) (hretry : ss.eng.pendRetry = false)
    (hnew : ss.eng.pendNew = false) :
    wakeSession rom ch now ss
      = .next ({ ss with eng := { ss.eng with tmrArmed := false, st := .idle, notReady := false } }, []) := by
  simp only [wakeSession, hdue, hretry, hnew, Bool.not_true, Bool.false_eq_true, if_false]

/-- The registers with which a due WAKE starts an attempt: those of a pending retry, or of a queued frame (rules R201 and
R202). -/
def EngineRegs.resumed (e : EngineRegs) (now : Ns64) : EngineRegs :=
  { e with
    tmrArmed := false
    pendRetry := false
    pendNew := if e.pendRetry then e.pendNew else false
    frameT0 := if e.pendRetry then e.frameT0 else now }

theorem wakeSession_attempt (hdue : wakeDue ss.eng now = true) (hpend : ss.eng.pendRetry = true ∨ ss.eng.pendNew = true)
    (hp : rom.chip ss.latch.chip = some p) :
    wakeSession rom ch now ss = startAttempt ch p now { ss with eng := ss.eng.resumed now } := by
  rw [wakeSession, if_neg (by simp [hdue]), andThen_frameChip hp, andThen_frameChip hp]
  unfold EngineRegs.resumed
  cases hretry : ss.eng.pendRetry with
  | true => rfl
  | false =>
    have hnew : ss.eng.pendNew = true := hpend.resolve_left (by simp [hretry])
    simp only [hretry, hnew, Bool.false_eq_true, if_false, if_true]

/-- Settles O36: a due WAKE starts an attempt from the resumed registers, and the attempt's commands set every field of the
generator. -/
theorem wakeStartsAttempt : Obligations.WakeStartsAttempt := by
  intro s ch c ss now p w hl harmed hdue hpend hp hcount hw
  have start := startAttempt_of_word (ch := ch) (p := p) (now := now) (ss := { ss with eng := ss.eng.resumed now }) hcount hw
  exact exec_wake_of_live hl ((wakeSession_attempt (wakeDue_iff.2 ⟨harmed, hdue⟩) hpend hp).trans start)

/-- Putting a channel back as it was changes nothing. -/
theorem setChannel_self (h : s.channel? ch = some c) : s.setChannel ch c = s := by
  obtain ⟨hlt, rfl⟩ := List.getElem?_eq_some_iff.1 h
  rw [State.setChannel, List.set_getElem_self]

/-- Settles O37: without a due request the session is put back as it was; with one and nothing pending, the window is over. -/
theorem wakeWithoutFrame : Obligations.WakeWithoutFrame := by
  intro s ch c ss now hl
  refine ⟨fun hearly => ?_, fun harmed hdue hretry hnew => ?_⟩
  · have ignored : ¬wakeDue ss.eng now = true := by
      rw [wakeDue_iff]
      rintro ⟨harmed, hdue⟩
      rcases hearly with h | h
      · rw [h] at harmed; cases harmed
      · exact absurd h (Nat.not_lt.2 hdue)
    rw [exec_wake_of_live hl (wakeSession_ignored ignored), commit_nil, ← hl.session, setChannel_self hl.channel]
  · rw [exec_wake_of_live hl (wakeSession_idle (wakeDue_iff.2 ⟨harmed, hdue⟩) hretry hnew), commit_nil]
    rfl

end Sys2Proof.Machine
end

section
/-! The devices of a channel (42_engine.md rules R205 to R210): what an output command sets, what a device's own move does, and
the wave of a word. -/

namespace Sys2Proof.Machine

variable {s : State} {ch : ChanId} {c : Channel} {now : Ns64} {k : Nat}

/-! ### The output commands -/

theorem toDevice_of_channel (h : s.channel? ch = some c) (f : Channel → Channel) :
    toDevice ch f s = .next (s.setChannel ch (f c)) := by simp only [toDevice, h]

theorem toDevice_of_none (h : s.channel? ch = none) (f : Channel → Channel) :
    toDevice ch f s = .fault (.noDevice ch) := by simp only [toDevice, h]

/-- Settles O40: every output command is its effect on the devices of its channel, if it has any. -/
theorem outputCommands : Obligations.OutputCommands := by
  refine ⟨fun s ch c hc => ?_, fun s ch hlen => ?_⟩
  · have sets := toDevice_of_channel hc
    exact ⟨fun _ _ _ => sets _, fun _ => sets _, sets _, sets _, fun _ => sets _, sets _⟩
  · have stops := toDevice_of_none (channel?_eq_none.2 hlen)
    exact ⟨fun _ _ _ => stops _, fun _ => stops _, stops _, stops _, fun _ => stops _, stops _⟩

/-! ### The devices' own moves -/

theorem Gen.busy_iff {g : Gen} : g.busy = true ↔ g.en = true ∧ g.word ≠ none := by
  rw [Gen.busy, Bool.and_eq_true, Option.isSome_iff_ne_none]

theorem Timer.due_iff {t : Timer} : t.due now = true ↔ ∃ d, t.req = some d ∧ d.toNat ≤ now.toNat := by
  unfold Timer.due
  cases t.req with
  | none => simp
  | some d => simp [BitVec.le_def]

theorem genDone_of_channel (h : s.channel? ch = some c) :
    genDone ch now k s
      = if c.gen.busy then raiseEvent (.complete ch now) k (s.setChannel ch { c with gen := c.gen.finish }) else s := by
  simp only [genDone, h]

theorem genLost_of_channel (h : s.channel? ch = some c) :
    genLost ch s = if c.gen.busy then s.setChannel ch { c with gen := c.gen.finish } else s := by
  simp only [genLost, h]

theorem tmrFire_of_channel (h : s.channel? ch = some c) :
    tmrFire ch now k s
      = if c.tmr.due now then raiseEvent (.wake ch now) k (s.setChannel ch { c with tmr := c.tmr.cancel }) else s := by
  simp only [tmrFire, h]

/-- Settles O42: a move happens exactly while the generator sends a word, or once the timer's request is due. -/
theorem deviceMoves : Obligations.DeviceMoves := by
  intro s ch c now k rest hc
  have hrest : State.channel? { s with inbox := rest } ch = some c := hc
  refine ⟨fun h => ?_, fun h => ?_, fun h => ?_⟩
  · rw [step_of_inbox h, handle, genDone_of_channel hrest]
    exact congrArg _ (if_congr Gen.busy_iff rfl rfl)
  · rw [step_of_inbox h, handle, genLost_of_channel hrest]
    exact congrArg _ (if_congr Gen.busy_iff rfl rfl)
  · rw [step_of_inbox h, handle, tmrFire_of_channel hrest]
    exact congrArg _ (if_congr Timer.due_iff rfl rfl)

/-! ### The wave of a word (rules R205 to R208, 70_reset_and_hazards.md rules R365 and R366) -/

@[simp] theorem Gen.length_wave (g : Gen) (bits : Slots) : (g.wave bits).length = 64 := by
  rw [Gen.wave, List.length_map, List.length_range]

theorem Gen.getElem?_wave (g : Gen) (bits : Slots) {q : Nat} (hq : q < 64) :
    (g.wave bits)[q]?
      = some (if bits.getLsbD (63 - q) then (!g.inv, g.activeNs.toNat) else (g.inv, g.passiveNs.toNat)) := by
  rw [Gen.wave, List.getElem?_map, List.getElem?_range hq]
  rfl

/-- The number of active slots is the number of the word's bits that are set. -/
theorem activeSlots_eq_card (bits : Slots) :
    activeSlots bits = ((Finset.range 64).filter fun q => bits.getLsbD q = true).card := by
  rw [activeSlots_eq_sum, Finset.card_filter]

/-- The passive slots are the rest of the 64. -/
theorem card_passiveSlots (bits : Slots) :
    ((Finset.range 64).filter fun q => ¬bits.getLsbD q = true).card = 64 - activeSlots bits := by
  have total := Finset.card_filter_add_card_filter_not (s := Finset.range 64) (fun q => bits.getLsbD q = true)
  rw [Finset.card_range] at total
  rw [activeSlots_eq_card]
  omega

/-- The slots of a word last as long as its active and its passive slots take, in whatever order they come. -/
theorem Gen.sum_wave (g : Gen) (bits : Slots) :
    ((g.wave bits).map Prod.snd).sum
      = activeSlots bits * g.activeNs.toNat + (64 - activeSlots bits) * g.passiveNs.toNat := by
  have slots : (g.wave bits).map Prod.snd
      = (List.range 64).map fun q => if bits.getLsbD (63 - q) then g.activeNs.toNat else g.passiveNs.toNat := by
    rw [Gen.wave, List.map_map]
    exact List.map_congr_left fun q _ => apply_ite Prod.snd _ _ _
  calc ((g.wave bits).map Prod.snd).sum
      = ∑ q ∈ Finset.range 64, if bits.getLsbD (64 - 1 - q) then g.activeNs.toNat else g.passiveNs.toNat := by
        rw [slots]; rfl
    _ = ∑ q ∈ Finset.range 64, if bits.getLsbD q then g.activeNs.toNat else g.passiveNs.toNat :=
        Finset.sum_range_reflect (fun q => if bits.getLsbD q then g.activeNs.toNat else g.passiveNs.toNat) 64
    _ = activeSlots bits * g.activeNs.toNat + (64 - activeSlots bits) * g.passiveNs.toNat := by
        rw [Finset.sum_ite, Finset.sum_const, Finset.sum_const, card_passiveSlots, ← activeSlots_eq_card, smul_eq_mul,
          smul_eq_mul]

/-- Settles O41: a wave lasts as long as rule R108 says of the word's slots, which is what the encoder recorded; the output is
the wave while a word is sent, and the passive level else. -/
theorem waveLastsItsDuration : Obligations.WaveLastsItsDuration := by
  refine ⟨fun p cap e buf x g k w hx hk hw hactive hpassive => ?_, fun g bits => ⟨fun hen => ?_, ?_, fun hdis => ?_, ?_, ?_⟩,
    fun g bits => ⟨g.length_wave bits, g.sum_wave bits, fun q hq => g.getElem?_wave bits hq⟩⟩
  · obtain ⟨w', hw', hdur, -⟩ := wordDurations p cap e buf x hx k hk
    cases hw.symm.trans hw'
    rw [hdur, g.sum_wave, hactive, hpassive]
  · exact Gen.output_busy (g := g.load bits) hen rfl
  · exact Gen.output_busy (g := (g.load bits).enable) rfl rfl
  · exact Gen.output_idle (g := g.load bits) (by simp [Gen.busy, hdis])
  · exact Gen.output_idle (g := g.finish) (by simp [Gen.busy])
  · exact Gen.output_idle (g := g.disable) (by simp [Gen.busy])

end Sys2Proof.Machine
end

section
/-! The checks of CFG (43_session.md rules R242 to R244) on the numbers that its operand bits stand for, and what a CFG that fails
answers (60_exceptions.md rules R300 and R301). -/

namespace Sys2Proof.Machine

variable {rom : Rom} {w0 w1 w2 w3 : BitVec 32} {m : Mode} {s : State} {ch : ChanId} {c : Channel} {ss : Session}

/-! ### The operand bits (30_encoding.md rule R97) -/

/-- A field of an operand is a quotient of the operand's number. -/
theorem extractLsb'_eq_ofNat_div (w : BitVec 32) (start len : Nat) :
    w.extractLsb' start len = BitVec.ofNat len (w.toNat / 2 ^ start) := by
  rw [← Nat.shiftRight_eq_div_pow]; rfl

/-- The top bits of an operand, from bit `start` on, are clear where the quotient is 0. -/
theorem extractLsb'_top_eq_zero_iff (w : BitVec 32) {start len : Nat} (h : start + len = 32) :
    w.extractLsb' start len = 0 ↔ w.toNat / 2 ^ start = 0 := by
  have bound : w.toNat / 2 ^ start < 2 ^ len := Nat.div_lt_of_lt_mul (by rw [← Nat.pow_add, h]; exact w.isLt)
  rw [extractLsb'_eq_ofNat_div, ← BitVec.toNat_inj, BitVec.toNat_ofNat, Nat.mod_eq_of_lt bound]
  rfl

theorem cfgReservedSet_iff :
    cfgReservedSet w0 w1 w2 = true ↔ w0.getLsbD 7 = true ∨ w1.toNat / 2 ^ 12 ≠ 0 ∨ w2.toNat / 2 ^ 8 ≠ 0 := by
  rw [cfgReservedSet, Bool.or_eq_true, Bool.or_eq_true, bne_iff_ne, bne_iff_ne, ne_eq, ne_eq,
    extractLsb'_top_eq_zero_iff w1 rfl, extractLsb'_top_eq_zero_iff w2 rfl, or_assoc]

theorem cfgModeBits_eq_ofNat : cfgModeBits w0 = BitVec.ofNat 2 (w0.toNat / 2 % 4) := by
  rw [cfgModeBits, extractLsb'_eq_ofNat_div]
  exact BitVec.eq_of_toNat_eq (by simp)

/-- `MODE` by its number (rule R97). -/
theorem modeOf_cfgModeBits :
    modeOf (cfgModeBits w0) = [some .predef, some .pair, some .perFrame, none].getD (w0.toNat / 2 % 4) none := by
  have bound : w0.toNat / 2 % 4 < 4 := Nat.mod_lt _ (by decide)
  rw [cfgModeBits_eq_ofNat]
  generalize w0.toNat / 2 % 4 = k at bound
  revert k
  decide

theorem modeOf_isNone_iff : (modeOf (cfgModeBits w0)).isNone = true ↔ w0.toNat / 2 % 4 = 3 := by
  have bound : w0.toNat / 2 % 4 < 4 := Nat.mod_lt _ (by decide)
  rw [modeOf_cfgModeBits]
  generalize w0.toNat / 2 % 4 = k at bound
  revert k
  decide

theorem toNat_cfgLedCount : (cfgLedCount w1).toNat = w1.toNat % 2 ^ 12 := BitVec.toNat_ofNat w1.toNat 12

/-! ### The conditions of the checks (43_session.md rule R242) -/

/-- Check 1: a reserved bit is set, or the reserved mode is selected. -/
abbrev CfgReserved (w0 w1 w2 : BitVec 32) : Prop :=
  w0.getLsbD 7 = true ∨ w1.toNat / 2 ^ 12 ≠ 0 ∨ w2.toNat / 2 ^ 8 ≠ 0 ∨ (w0.getLsbD 4 = true ∧ w0.toNat / 2 % 4 = 3)

/-- Check 2: there is no LED count or no selector. -/
abbrev CfgMissing (w0 : BitVec 32) : Prop := w0.getLsbD 3 = false ∨ w0.getLsbD 4 = false

/-- Check 3: the LED count is out of range. -/
abbrev CfgBadCount (w1 : BitVec 32) : Prop := w1.toNat % 2 ^ 12 = 0 ∨ 2048 < w1.toNat % 2 ^ 12

theorem cfgReserved_iff :
    (cfgReservedSet w0 w1 w2 || (cfgHasSel w0 && (modeOf (cfgModeBits w0)).isNone)) = true ↔ CfgReserved w0 w1 w2 := by
  rw [Bool.or_eq_true, Bool.and_eq_true, cfgReservedSet_iff, modeOf_isNone_iff, or_assoc, or_assoc, cfgHasSel]

theorem cfgMissing_iff : (!cfgHasLed w0 || !cfgHasSel w0) = true ↔ CfgMissing w0 := by
  rw [Bool.or_eq_true, Bool.not_eq_true', Bool.not_eq_true', cfgHasLed, cfgHasSel]

theorem cfgBadCount_iff :
    (decide (cfgLedCount w1 = 0) || decide (Config.ledMaxLimit < (cfgLedCount w1).toNat)) = true ↔ CfgBadCount w1 := by
  rw [Bool.or_eq_true, decide_eq_true_iff, decide_eq_true_iff, ← BitVec.toNat_inj, toNat_cfgLedCount]
  rfl

/-! ### The checks in their order -/

theorem cfgCheck_reserved (h : CfgReserved w0 w1 w2) : cfgCheck rom w0 w1 w2 = .error .cfgReserved := by
  rw [cfgCheck, if_pos (cfgReserved_iff.2 h)]

theorem cfgCheck_insufficient (hr : ¬CfgReserved w0 w1 w2) (h : CfgMissing w0) :
    cfgCheck rom w0 w1 w2 = .error .cfgInsufficient := by
  rw [cfgCheck, if_neg (mt cfgReserved_iff.1 hr), if_pos (cfgMissing_iff.2 h)]

theorem cfgCheck_ledCount (hr : ¬CfgReserved w0 w1 w2) (hm : ¬CfgMissing w0) (h : CfgBadCount w1) :
    cfgCheck rom w0 w1 w2 = .error .cfgLedCount := by
  rw [cfgCheck, if_neg (mt cfgReserved_iff.1 hr), if_neg (mt cfgMissing_iff.1 hm), if_pos (cfgBadCount_iff.2 h)]

/-- Behind the first three checks the selection of the mode decides (rule R243). -/
theorem cfgCheck_selection (hr : ¬CfgReserved w0 w1 w2) (hm : ¬CfgMissing w0) (hb : ¬CfgBadCount w1)
    (hmode : modeOf (cfgModeBits w0) = some m) :
    cfgCheck rom w0 w1 w2 = (cfgSelection rom m w0).map fun ids => (m, ids) := by
  rw [cfgCheck, if_neg (mt cfgReserved_iff.1 hr), if_neg (mt cfgMissing_iff.1 hm), if_neg (mt cfgBadCount_iff.1 hb), hmode]
  dsimp only
  cases cfgSelection rom m w0 <;> rfl

theorem cfgSelection_pair_error (h : rom.layout (cfgLayout w0) = none ∨ rom.chip (cfgChip w0) = none) :
    cfgSelection rom .pair w0 = .error .cfgId := by
  rcases h with h | h <;> simp [cfgSelection, h]

theorem cfgSelection_pair_ok (hl : rom.layout (cfgLayout w0) ≠ none) (hp : rom.chip (cfgChip w0) ≠ none) :
    cfgSelection rom .pair w0 = .ok (cfgLayout w0, cfgChip w0) := by
  simp [cfgSelection, Option.isSome_iff_ne_none, hl, hp]

/-- Settles O11: behind the checks on the bits, the mode's selection asks the ROM. -/
theorem cfgCheckOrder : Obligations.CfgCheckOrder := by
  intro rom w0 w1 w2 reserved missing badCount predef lay chp
  have mode : modeOf (cfgModeBits w0) = _ := modeOf_cfgModeBits
  have hpredef : cfgPredef w0 = predef := extractLsb'_eq_ofNat_div w0 8 8
  have hlay : cfgLayout w0 = lay := extractLsb'_eq_ofNat_div w0 16 8
  have hchp : cfgChip w0 = chp := extractLsb'_eq_ofNat_div w0 24 8
  refine ⟨cfgCheck_reserved, cfgCheck_insufficient, cfgCheck_ledCount, fun hr hm hb hk hnone => ?_,
    fun hr hm hb hk hnone => ?_, fun hr hm hb hk e he => ?_, fun hr hm hb hk hl hp => ?_, fun hr hm hb hk => ?_⟩ <;>
    rw [hk] at mode <;> rw [cfgCheck_selection hr hm hb mode]
  · simp [cfgSelection, hpredef, hnone, Except.map]
  · rw [cfgSelection_pair_error (hlay ▸ hchp ▸ hnone)]; rfl
  · simp [cfgSelection, hpredef, he, Except.map]
  · rw [cfgSelection_pair_ok (hlay ▸ hl) (hchp ▸ hp), hlay, hchp]; rfl
  · rfl

/-! ### A CFG that fails -/

/-- A selection is rejected for an id alone. -/
theorem cfgSelection_error {e : Code} (h : cfgSelection rom m w0 = .error e) : e = .cfgId := by
  cases m with
  | predef =>
    simp only [cfgSelection] at h
    split at h
    · cases h
    · cases h; rfl
  | pair =>
    simp only [cfgSelection] at h
    split at h
    · cases h
    · cases h; rfl
  | perFrame => cases h

/-- The four codes of the checks. -/
theorem cfgCheck_error {e : Code} (h : cfgCheck rom w0 w1 w2 = .error e) :
    e = .cfgReserved ∨ e = .cfgInsufficient ∨ e = .cfgLedCount ∨ e = .cfgId := by
  by_cases hr : CfgReserved w0 w1 w2
  · rw [cfgCheck_reserved hr] at h; cases h; exact .inl rfl
  by_cases hm : CfgMissing w0
  · rw [cfgCheck_insufficient hr hm] at h; cases h; exact .inr (.inl rfl)
  by_cases hb : CfgBadCount w1
  · rw [cfgCheck_ledCount hr hm hb] at h; cases h; exact .inr (.inr (.inl rfl))
  have hsel : cfgHasSel w0 = true := by simpa [cfgHasSel] using fun h => hm (.inr h)
  obtain ⟨m, hmode⟩ : ∃ m, modeOf (cfgModeBits w0) = some m := by
    refine Option.ne_none_iff_exists'.1 fun hnone => hr ?_
    exact .inr (.inr (.inr ⟨hsel, modeOf_isNone_iff.1 (by rw [hnone]; rfl)⟩))
  rw [cfgCheck_selection hr hm hb hmode] at h
  cases hids : cfgSelection rom m w0 with
  | ok ids => rw [hids] at h; cases h
  | error e' =>
    rw [hids] at h
    cases h
    exact .inr (.inr (.inr (cfgSelection_error hids)))

theorem execCfg_full (hc : s.channel? ch = some c) (hs : c.session = some ss) :
    execCfg ch w0 w1 w2 w3 s = answerOnly (if ss.eng.fatal then .fatal else .cfgExists) s := by
  simp only [execCfg, hc, hs]
  split <;> rfl

theorem execCfg_failed {e : Code} (hc : s.channel? ch = some c) (hs : c.session = none)
    (hk : cfgCheck s.rom w0 w1 w2 = .error e) : execCfg ch w0 w1 w2 w3 s = answerOnly e s := by
  simp only [execCfg, hc, hs, hk]

/-- VARIABLE mode over an empty `LAYOUT_ROM` has no `CMAX` (70_reset_and_hazards.md rule R353, condition 5). -/
theorem execCfg_noLayout {ids : RomId × RomId} (hc : s.channel? ch = some c) (hs : c.session = none)
    (hk : cfgCheck s.rom w0 w1 w2 = .ok (.perFrame, ids)) (hrom : s.rom.tables.layouts = []) :
    execCfg ch w0 w1 w2 w3 s = .refused (.noLayoutForVariable ch) := by
  simp only [execCfg, hc, hs, hk, createSession, cfgChannels, Rom.cmax, hrom]

/-- Settles O12: a full slot is looked at before the checks, and a check that fails has one of four codes. -/
theorem cfgErrorsChangeNothing : Obligations.CfgErrorsChangeNothing := by
  intro s ch c w0 w1 w2 w3 hc
  refine ⟨fun ss hs hf => ?_, fun ss hs hf => ?_, fun e hs hk => ?_, fun ids hs hk => execCfg_noLayout hc hs hk⟩
  · exact (execCfg_full hc hs).trans (by rw [hf]; rfl)
  · exact (execCfg_full hc hs).trans (by rw [hf]; rfl)
  · refine ⟨e.byte, ?_, execCfg_failed hc hs hk⟩
    rcases cfgCheck_error hk with rfl | rfl | rfl | rfl <;> decide

end Sys2Proof.Machine
end

section
/-! The two frame formats (43_session.md rules R246 to R251): what the in-band header and the configuration give a frame, and the
frames that SUBMIT rejects or has nothing to encode of (rules R253 and R257). -/

namespace Sys2Proof.Machine

variable {rom : Rom} {cfg : CfgRegs} {frame : List Byte} {hd : FrameHead} {l : LayoutProfile} {p : ChipProfile} {e : Code}
  {f : Frame} {s : State} {ch : ChanId} {c : Channel} {ss : Session} {now : Ns64}

/-! ### A frame by its head -/

theorem parseFrame_badHead (h : frameHead cfg frame = .error e) : parseFrame rom cfg frame = .error e := by
  simp only [parseFrame, h]

/-- An id that the ROM does not hold rejects the frame (rule R248). -/
theorem parseFrame_badId (h : frameHead cfg frame = .ok hd) (hid : rom.layout hd.layout = none ∨ rom.chip hd.chip = none) :
    parseFrame rom cfg frame = .error .frameId := by
  rw [parseFrame, h]
  dsimp only
  split
  · rename_i hl hp
    simp [hl, hp] at hid
  · rfl

theorem parseFrame_ok (h : frameHead cfg frame = .ok hd) (hl : rom.layout hd.layout = some l)
    (hp : rom.chip hd.chip = some p) :
    parseFrame rom cfg frame
      = .ok ⟨hd.layout, hd.chip, l, p, frameTolerance cfg hd p, frameBudget cfg hd, hd.payload⟩ := by
  simp only [parseFrame, h, hl, hp]

/-! ### VARIABLE mode -/

theorem frameMalformed_iff :
    frameMalformed frame = true
      ↔ frame = [] ∨ (byteAt frame 0).toNat < 5 ∨ frame.length < (byteAt frame 0).toNat + 1 := by
  simp only [frameMalformed, Bool.or_eq_true, decide_eq_true_iff, or_assoc, Nat.lt_one_iff, List.length_eq_zero_iff]
  rfl

/-- The head of a well-formed variable-mode frame, at its byte offsets (rules R101 to R105). -/
def inBandHead (frame : List Byte) : FrameHead :=
  ⟨byteAt frame 1, byteAt frame 2, byteAt frame 3 ++ byteAt frame 4, byteAt frame 5,
    frame.drop ((byteAt frame 0).toNat + 1)⟩

theorem frameHead_malformed (hm : cfg.mode = .perFrame) (h : frameMalformed frame = true) :
    frameHead cfg frame = .error .frameMalformed := by
  simp only [frameHead, hm, variableHead, h, if_true]

theorem frameHead_inBand (hm : cfg.mode = .perFrame) (h : ¬frameMalformed frame = true) :
    frameHead cfg frame = .ok (inBandHead frame) := by
  rw [frameHead, hm]
  exact if_neg h

theorem toNat_append_bytes (a b : Byte) : (a ++ b).toNat = a.toNat * 256 + b.toNat := by
  rw [BitVec.toNat_append, ← Nat.shiftLeft_add_eq_or_of_lt b.isLt, Nat.shiftLeft_eq]

/-- The tolerance of a variable-mode frame is exact in nanoseconds: 65,535 microseconds fit in 32 bits (rule R249). -/
theorem toNat_frameTolerance (hm : cfg.mode = .perFrame) {us : Nat} (hus : hd.passUs.toNat = us) :
    (frameTolerance cfg hd p).toNat = if us = 0 then p.tPassiveMaxNs.toNat else us * 1000 := by
  have bound := hd.passUs.isLt
  have zero : hd.passUs = 0 ↔ us = 0 := by rw [← BitVec.toNat_inj, hus]; rfl
  simp only [frameTolerance, hm, zero]
  split
  · rfl
  · rw [BitVec.toNat_ofNat, hus, Nat.mod_eq_of_lt (by omega)]

theorem frameBudget_perFrame (hm : cfg.mode = .perFrame) :
    frameBudget cfg hd = if hd.retries = 0 then cfg.maxRetry else hd.retries := by
  simp only [frameBudget, hm]

/-- Settles O14: a header that is not malformed gives the head of the frame, whose ids the ROM holds or not. -/
theorem variableHeader : Obligations.VariableHeader := by
  intro rom cfg frame hm h malformed
  have wellFormed (hok : ¬malformed) : frameHead cfg frame = .ok (inBandHead frame) :=
    frameHead_inBand hm (mt frameMalformed_iff.1 hok)
  refine ⟨fun hbad => parseFrame_badHead (frameHead_malformed hm (frameMalformed_iff.2 hbad)),
    fun hok hid => parseFrame_badId (wellFormed hok) hid, fun hok l p hl hp => ?_⟩
  refine ⟨_, parseFrame_ok (wellFormed hok) hl hp, rfl, rfl, rfl, rfl, ?_, frameBudget_perFrame hm, rfl⟩
  exact toNat_frameTolerance hm (toNat_append_bytes _ _)

/-! ### The fixed modes -/

theorem frameHead_fixed (hm : cfg.mode ≠ .perFrame) : frameHead cfg frame = .ok (fixedHead cfg frame) := by
  cases hmode : cfg.mode with
  | perFrame => exact absurd hmode hm
  | predef => simp only [frameHead, hmode]
  | pair => simp only [frameHead, hmode]

theorem frameTolerance_fixed (hm : cfg.mode ≠ .perFrame) :
    frameTolerance cfg hd p = if cfg.maxPassNs ≠ 0 then cfg.maxPassNs else p.tPassiveMaxNs := by
  cases hmode : cfg.mode with
  | perFrame => exact absurd hmode hm
  | predef => simp only [frameTolerance, hmode, ite_not]
  | pair => simp only [frameTolerance, hmode, ite_not]

theorem frameBudget_fixed (hm : cfg.mode ≠ .perFrame) : frameBudget cfg hd = cfg.maxRetry := by
  cases hmode : cfg.mode with
  | perFrame => exact absurd hmode hm
  | predef => simp only [frameBudget, hmode]
  | pair => simp only [frameBudget, hmode]

/-- Settles O15: the head of a fixed-mode frame is the configuration's, with the whole frame as payload. -/
theorem fixedModeFrame : Obligations.FixedModeFrame := by
  intro rom cfg frame l p hm hl hp
  rw [parseFrame_ok (frameHead_fixed hm) hl hp, frameTolerance_fixed hm, frameBudget_fixed hm]
  rfl

/-! ### Frames with no effect -/

/-- A SUBMIT to a live session is its own rule there (rule R245). -/
theorem exec_submit_of_live (hl : Live s ch c ss) :
    exec (.submit ch now frame) s = submitSession ch now frame c ss s :=
  withSession_live hl.channel hl.session hl.alive

theorem submitSession_rejected (hm : ss.cfg.mode = .perFrame) (h : parseFrame s.rom ss.cfg frame = .error e) :
    submitSession ch now frame c ss s = answerOnly e s := by
  rw [submitSession, h]
  exact if_neg (not_not_intro hm)

theorem submitSession_dangling (hm : ss.cfg.mode ≠ .perFrame) (h : parseFrame s.rom ss.cfg frame = .error e) :
    submitSession ch now frame c ss s = .refused (.danglingProfile ch) := by
  rw [submitSession, h]
  exact if_pos hm

theorem submitSession_noLed (h : parseFrame s.rom ss.cfg frame = .ok f) (hn : f.leds ss.cfg = 0) :
    submitSession ch now frame c ss s = .next (answer .ok (bytes32 0) s) := by
  rw [submitSession, h]
  exact if_pos hn

/-- Settles O17: a frame is rejected with one of two codes, in the fixed modes for the session's own ids. -/
theorem rejectedFrameChangesNothing : Obligations.RejectedFrameChangesNothing := by
  intro s ch c ss now frame hl
  rw [exec_submit_of_live hl]
  refine ⟨fun e hm he => ⟨e.byte, ?_, submitSession_rejected hm he⟩, fun hm hid => ?_⟩
  · rcases parseFrame_error he with rfl | rfl <;> decide
  · exact submitSession_dangling hm (parseFrame_badId (frameHead_fixed hm) hid)

/-- Settles O18: a frame with no whole LED is answered before the engine is asked. -/
theorem zeroLedFrame : Obligations.ZeroLedFrame := by
  intro s ch c ss now frame f hl parsed hn
  rw [exec_submit_of_live hl, submitSession_noLed parsed hn]
  rfl

end Sys2Proof.Machine
end

section
/-! An accepted frame (43_session.md rules R245 and R254 to R256): what SUBMIT leaves of the session before the engine is asked,
and what each state of the engine makes of it (42_engine.md rules R192, R193, R203 and R204). -/

namespace Sys2Proof.Machine

variable {s : State} {ch : ChanId} {c : Channel} {ss ss1 ss2 : Session} {now : Ns64} {frame : List Byte} {f : Frame}
  {x : EncRun} {w : WaveWord} {p : ChipProfile} {cmds1 cmds2 : List Instr}

/-! ### The overrun count and the abort (rules R203 and R254) -/

theorem abort_countOverrun_idle (hst : ss.eng.st = .idle) :
    abort ch (countOverrun ss) = ({ ss with eng := { ss.eng with pendRetry := false } }, []) := by
  rw [countOverrun, if_pos hst, abort_other (by rw [hst]; nofun)]

theorem countOverrun_busy (hst : ss.eng.st ≠ .idle) :
    countOverrun ss = { ss with stats := { ss.stats with overruns := ss.stats.overruns + 1 } } := if_neg hst

theorem abort_countOverrun_sending (hst : ss.eng.st = .sending) :
    abort ch (countOverrun ss)
      = ({ ss with
           stats := { ss.stats with overruns := ss.stats.overruns + 1 }
           eng := { ss.eng with remain := 0, pendRetry := false } }, [.genDisable ch]) := by
  rw [countOverrun_busy (by rw [hst]; nofun)]
  exact abort_sending hst

theorem abort_countOverrun_window (hst : ss.eng.st = .await ∨ ss.eng.st = .failed) :
    abort ch (countOverrun ss)
      = ({ ss with
           stats := { ss.stats with overruns := ss.stats.overruns + 1 }
           eng := { ss.eng with pendRetry := false } }, []) := by
  have busy : ss.eng.st ≠ .idle ∧ ss.eng.st ≠ .sending := by rcases hst with h | h <;> rw [h] <;> decide
  rw [countOverrun_busy busy.1]
  exact abort_other busy.2

/-! ### SUBMIT of a frame with an LED (rule R245) -/

theorem submitSession_frame (parsed : parseFrame s.rom ss.cfg frame = .ok f) (hn : 1 ≤ f.leds ss.cfg) :
    submitSession ch now frame c ss s = submitFrame ch now f c ss s := by
  rw [submitSession, parsed]
  exact if_neg (Nat.ne_of_gt hn)

/-- A frame that is encoded is latched and handed to the engine, behind the overrun count and the abort, and the answer gives
its number of words. -/
theorem exec_submit_accepted (hl : Live s ch c ss) (parsed : parseFrame s.rom ss.cfg frame = .ok f)
    (hn : 1 ≤ f.leds ss.cfg) (run : encodeFrame f.chip ss.cfg.cap (f.encoded ss.cfg) ss.buf = .ok x)
    (aborted : abort ch (countOverrun ss) = (ss1, cmds1))
    (accepted : accept ch f.chip now (latchFrame f x ss1) = .next (ss2, cmds2)) :
    exec (.submit ch now frame) s
      = .next
        (answer .ok (bytes32 (BitVec.ofNat 32 x.regs.k.toNat))
          (commit ch c (some ss2) (cmds1 ++ cmds2) { s with enc := encDiscarded ch f.chip (f.encoded ss.cfg) })) := by
  have hbuf : ss1.buf = ss.buf := by
    obtain ⟨-, abuf, -⟩ := abort_keeps ch (countOverrun ss)
    obtain ⟨-, -, kbuf, -⟩ := countOverrun_keeps ss
    exact (congrArg (fun r => r.1.buf) aborted).symm.trans (abuf.trans kbuf)
  have count : x.regs.k.setWidth 32 = BitVec.ofNat 32 x.regs.k.toNat := BitVec.eq_of_toNat_eq (by simp)
  rw [exec_submit_of_live hl, submitSession_frame parsed hn]
  simp only [submitFrame, aborted, hbuf, run, accepted, andThen_of_next, count]

/-- A frame with an LED has a first word (rules R151, R160 and R252). -/
theorem firstWord_of_run {rom : Rom} {cfg : CfgRegs} {buf : Buffer} (parsed : parseFrame rom cfg frame = .ok f)
    (hn : 1 ≤ f.leds cfg) (run : encodeFrame f.chip cfg.cap (f.encoded cfg) buf = .ok x) :
    (∃ w, Memory.read x.buf 0 = some w) ∧ 1 ≤ x.regs.k.toNat := by
  obtain ⟨words, one⟩ := encodeFrame_words run (Frame.encoded_ne_nil parsed (Nat.ne_of_gt hn))
  exact ⟨Option.isSome_iff_exists.1 (words.written 0 one), one⟩

/-! ### The engine (42_engine.md rule R204) -/

/-- In a window the frame is queued. -/
theorem accept_window (hst : ss.eng.st = .await ∨ ss.eng.st = .failed) :
    accept ch p now ss = .next ({ ss with eng := { ss.eng with pendNew := true, st := .await } }, []) := by
  rcases hst with hst | hst <;> simp only [accept, hst]

/-- Outside the windows the first attempt starts at once. -/
theorem accept_starts (hst : ss.eng.st = .idle ∨ ss.eng.st = .sending) (hcount : 0 < ss.eng.wcount)
    (hw : Memory.read ss.buf 0 = some w) :
    accept ch p now ss
      = .next ({ ss with eng := (({ ss.eng with frameT0 := now } : EngineRegs).rewound.loaded now w.dur).started },
          [.genConfigure ch p.t0ActiveNs p.tPassiveMinNs ss.cfg.inv, .genLoad ch w.bits, .genEnable ch]) := by
  have start := startAttempt_of_word (ch := ch) (p := p) (now := now)
    (ss := { ss with eng := { ss.eng with frameT0 := now } }) hcount hw
  rcases hst with hst | hst <;> simpa only [accept, hst] using start

/-- Settles O19: nothing is counted and nothing aborted, and the engine starts the frame's first attempt. -/
theorem submitWhenIdle : Obligations.SubmitWhenIdle := by
  intro s ch c ss now frame f x hl hst parsed hn run
  obtain ⟨⟨w, hw⟩, one⟩ := firstWord_of_run parsed hn run
  exact ⟨w, hw, one,
    exec_submit_accepted hl parsed hn run (abort_countOverrun_idle hst) (accept_starts (.inl hst) one hw)⟩

/-- Settles O20: an overrun is counted and the running attempt is aborted, and the engine starts the new frame's first
attempt. -/
theorem submitWhenSending : Obligations.SubmitWhenSending := by
  intro s ch c ss now frame f x hl hst parsed hn run
  obtain ⟨⟨w, hw⟩, one⟩ := firstWord_of_run parsed hn run
  exact ⟨w, hw, one,
    exec_submit_accepted hl parsed hn run (abort_countOverrun_sending hst) (accept_starts (.inr hst) one hw)⟩

/-- Settles O21: an overrun is counted and a pending retry is dropped, and the engine queues the frame. -/
theorem submitInWindow : Obligations.SubmitInWindow := by
  intro s ch c ss now frame f x hl hst parsed hn run
  rw [exec_submit_accepted hl parsed hn run (abort_countOverrun_window hst) (accept_window hst), List.append_nil, commit_nil]
  rfl

end Sys2Proof.Machine
end

section
/-! STATUS, STATUS_READ and SHUTDOWN (43_session.md rules R260 to R262), and what a FATAL session does with a command or an event
(rule R263). -/

namespace Sys2Proof.Machine

variable {rom : Rom} {capTable : List ((Nat × Nat) × BitVec 16)} {enc : EncUnit} {s : State} {ch : ChanId} {c : Channel}
  {ss ss' : Session} {i : Instr} {cmds : List Instr} {n : Option Session} {maxLen : BitVec 32}

/-! ### STATUS (rules R259 and R260) -/

theorem exec_status_of_live (hl : Live s ch c ss) :
    exec (.status ch) s = .next (answer .ok (snapshotRecord ss) s) :=
  withSession_live hl.channel hl.session hl.alive

/-- An operation on a port that is no SUBMIT, COMPLETE, WAKE or SHUTDOWN writes the snapshot of a session at most. -/
theorem SessionMove.snap_only (h : SessionMove rom capTable enc ch c i n cmds) (hs : c.session = some ss)
    (hport : portOf i ≠ .internal)
    (hquiet : (∀ now frame, i ≠ .submit ch now frame) ∧ (∀ now, i ≠ .complete ch now) ∧ (∀ now, i ≠ .wake ch now)
      ∧ i ≠ .shutdown ch) : ∃ snap, n = some { ss with snap := snap } := by
  obtain ⟨noSubmit, noComplete, noWake, noShutdown⟩ := hquiet
  cases h with
  | create w0 w1 w2 w3 m ids k empty => rw [empty] at hs; cases hs
  | overrun ss1 now frame => exact absurd rfl (noSubmit now frame)
  | frame ss1 now frame => exact absurd rfl (noSubmit now frame)
  | read ss1 maxLen full => cases full.symm.trans hs; exact ⟨_, rfl⟩
  | shutdown => exact absurd rfl noShutdown
  | complete ss1 ss2 now => exact absurd rfl (noComplete now)
  | wake ss1 ss2 now => exact absurd rfl (noWake now)
  | encoded i ss1 x op => exact absurd (portOf_of_encoderOp op) hport
  | encOverrun i ss1 x op => exact absurd (portOf_of_encoderOp op) hport

/-- Settles O54: the operation writes the session's snapshot at most, which the record of rule R99 does not show. -/
theorem statusIsRepeatable : Obligations.StatusIsRepeatable := by
  intro i s t ch c ss a hport h hl hquiet hstatus
  have hs : s.session? ch = some ss := (session?_of_channel hl.channel).trans hl.session
  obtain ⟨snap, hsnap⟩ : ∃ snap, t.session? ch = some { ss with snap := snap } := by
    rcases (exec_move h).2.session ch with e | ⟨c1, n, cmds, htarget, hc, move, e⟩
    · exact ⟨ss.snap, e.trans hs⟩
    · rw [e]
      exact move.snap_only ((session?_of_channel hc).symm.trans hs) hport (hquiet htarget)
  obtain ⟨c', hc', hs'⟩ := session?_eq_some.1 hsnap
  rw [exec_status_of_live hl] at hstatus
  have ha : Code.ok.byte :: snapshotRecord ss = a := by simpa [answer] using hstatus
  rw [exec_status_of_live ⟨hc', hs', hl.alive⟩, ← ha]
  rfl

/-! ### STATUS_READ (rule R261) -/

theorem exec_statusRead_of_live (hl : Live s ch c ss) (hmax : maxLen ≠ 0) :
    exec (.statusRead ch maxLen) s = readSession ch maxLen c ss s :=
  (if_neg hmax).trans (withSession_live hl.channel hl.session hl.alive)

theorem freshSnap_text (ss : Session) :
    (freshSnap ss).text = if ss.snap.valid then ss.snap.text else Config.renderStatus (snapshotRecord ss) := by
  unfold freshSnap; split <;> rfl

theorem freshSnap_off (ss : Session) : (freshSnap ss).off = if ss.snap.valid then ss.snap.off else 0 := by
  unfold freshSnap; split <;> rfl

/-- Settles O44: the chunk is read at the offset of the snapshot, which moves on by the chunk's length. -/
theorem statusReadChunk : Obligations.StatusReadChunk := by
  intro s ch c ss maxLen hl hmax text off n
  have htext : (freshSnap ss).text = text := freshSnap_text ss
  have hoff : (freshSnap ss).off = off := freshSnap_off ss
  have hn : chunkLen (freshSnap ss) maxLen = n := by rw [chunkLen, htext, hoff]
  refine ⟨(advanceSnap (freshSnap ss) maxLen).off, by rw [advanceSnap_off, hoff, hn], ?_⟩
  rw [exec_statusRead_of_live hl hmax, readSession, commit_nil, chunkOf, advanceSnap, htext, hoff, hn]
  rfl

/-! ### SHUTDOWN (rule R262) -/

theorem map_encode_shutdownCommands (ch : ChanId) (e : EngineRegs) :
    (shutdownCommands ch e).map encode
      = (if e.st = .sending then [[0x83, ch]] else []) ++ (if e.tmrArmed then [[0x91, ch]] else []) := by
  rw [shutdownCommands, List.map_append, apply_ite (List.map encode), apply_ite (List.map encode)]
  rfl

/-- SHUTDOWN stops the generator and the timer (42_engine.md rules R208 and R210). -/
theorem deviceEffects_shutdownCommands (ch : ChanId) (e : EngineRegs) (c : Channel) :
    deviceEffects (shutdownCommands ch e) c
      = { session := c.session
          gen := if e.st = .sending then c.gen.disable else c.gen
          tmr := if e.tmrArmed then c.tmr.cancel else c.tmr } := by
  unfold shutdownCommands
  split <;> split <;> rfl

/-- Settles O45: the slot is emptied whatever the session, and the two commands reach the two devices. -/
theorem shutdownEmptiesSlot : Obligations.ShutdownEmptiesSlot := by
  intro s ch c ss hc hs
  show execShutdown ch s = _
  simp only [execShutdown, hc, hs, commit, answer, map_encode_shutdownCommands, deviceEffects_shutdownCommands,
    List.append_assoc]
  rfl

/-! ### FATAL sessions (rule R263) -/

section

variable (hc : s.channel? ch = some c) (hs : c.session = some ss) (hf : ss.eng.fatal = true)
include hc hs hf

theorem withSession_fatal (f : Channel → Session → Result State) : withSession ch s f = answerOnly .fatal s := by
  simp only [withSession, hc, hs, hf, if_true]

theorem onEvent_fatal (f : Channel → Session → Result State) : onEvent ch s f = .next s := by
  simp only [onEvent, hc, hs, hf, if_true]

end

/-- Settles O46: FATAL is asked for before the rule of a command or an event, by CFG as well. -/
theorem fatalSessionIsDead : Obligations.FatalSessionIsDead := by
  intro s ch c ss hc hs hf
  have answered := withSession_fatal hc hs hf
  have ignored := onEvent_fatal hc hs hf
  refine ⟨fun w0 w1 w2 w3 => (execCfg_full hc hs).trans (by rw [hf]; rfl), fun now frame => answered _, answered _,
    fun maxLen hmax => (if_neg hmax).trans (answered _), fun now => ignored _, fun now => ignored _⟩

end Sys2Proof.Machine
end

section
/-! The capacity fault (60_exceptions.md rules R305 and R311): what the overrun count, the abort and the fault leave of the
session, and that their commands are those of SHUTDOWN. -/

namespace Sys2Proof.Machine

variable {s : State} {ch : ChanId} {c : Channel} {ss : Session} {now : Ns64} {frame : List Byte} {f : Frame} {x : EncRun}
  {buf : Buffer}

/-- The session that a SUBMIT whose frame overruns the capacity leaves, with the words written before the fault. -/
def Session.faulted (ss : Session) (buf : Buffer) : Session :=
  { ss with
    buf := buf
    stats := { ss.stats with overruns := if ss.eng.st = .idle then ss.stats.overruns else ss.stats.overruns + 1 }
    eng :=
      { ss.eng with
        fatal := true, notReady := true, pendNew := false, pendRetry := false, remain := 0, tmrArmed := false } }

/-- The fault behind the overrun count and the abort, by the engine's state (42_engine.md rule R203). -/
theorem capacityFault_abort_session (ch : ChanId) (ss : Session) (buf : Buffer) :
    (capacityFault ch { (abort ch (countOverrun ss)).1 with buf := buf }).1 = ss.faulted buf := by
  cases hst : ss.eng.st with
  | idle => simp only [abort_countOverrun_idle hst, capacityFault, Session.faulted, hst, if_true]
  | sending =>
    simp only [abort_countOverrun_sending hst, capacityFault, Session.faulted, hst, reduceCtorEq, if_false]
  | await =>
    simp only [abort_countOverrun_window (.inl hst), capacityFault, Session.faulted, hst, reduceCtorEq, if_false]
  | failed =>
    simp only [abort_countOverrun_window (.inr hst), capacityFault, Session.faulted, hst, reduceCtorEq, if_false]

theorem abort_countOverrun_commands (ch : ChanId) (ss : Session) :
    (abort ch (countOverrun ss)).2 = if ss.eng.st = .sending then [.genDisable ch] else [] := by
  obtain ⟨-, eng, -⟩ := countOverrun_keeps ss
  rw [abort, eng]
  split <;> rfl

/-- The abort stops a SENDING generator and the fault cancels an armed timer, as SHUTDOWN does (43_session.md rule R262). -/
theorem capacityFault_abort_commands (ch : ChanId) (ss : Session) (buf : Buffer) :
    (abort ch (countOverrun ss)).2 ++ (capacityFault ch { (abort ch (countOverrun ss)).1 with buf := buf }).2
      = shutdownCommands ch ss.eng := by
  obtain ⟨-, -, -, -, -, -, armed, -⟩ := abort_keeps ch (countOverrun ss)
  obtain ⟨-, eng, -⟩ := countOverrun_keeps ss
  rw [abort_countOverrun_commands, shutdownCommands, capacityFault, armed, eng]

/-- A frame that overruns the capacity is answered `F_CAPACITY`, and what the step did before the fault stays. -/
theorem exec_submit_capacity (hl : Live s ch c ss) (parsed : parseFrame s.rom ss.cfg frame = .ok f)
    (hn : 1 ≤ f.leds ss.cfg) (run : encodeFrame f.chip ss.cfg.cap (f.encoded ss.cfg) ss.buf = .error x) :
    exec (.submit ch now frame) s
      = .next
        (answer .capacity []
          (commit ch c (some (ss.faulted x.buf)) (shutdownCommands ch ss.eng)
            { s with enc := encDiscarded ch f.chip (f.encoded ss.cfg) })) := by
  have hbuf : (abort ch (countOverrun ss)).1.buf = ss.buf := by
    obtain ⟨-, abuf, -⟩ := abort_keeps ch (countOverrun ss)
    obtain ⟨-, -, kbuf, -⟩ := countOverrun_keeps ss
    exact abuf.trans kbuf
  rw [exec_submit_of_live hl, submitSession_frame parsed hn]
  simp only [submitFrame, hbuf, run, capacityFault_abort_session, capacityFault_abort_commands]

/-- Settles O22: the fault is the whole end of the step, and its commands reach the two devices as SHUTDOWN's do. -/
theorem capacityFaultInSubmit : Obligations.CapacityFaultInSubmit := by
  intro s ch c ss now frame f x hl parsed hn run
  refine ⟨_, _, exec_submit_capacity hl parsed hn run, channel?_set_same hl.channel rfl, deviceEffects_session .., rfl, ?_,
    ?_, ?_, fun ch' hne => channel?_set_other hne rfl, rfl, rfl, rfl, rfl⟩
  · rw [answer_outs, commit_outs, map_encode_shutdownCommands, List.append_assoc]
  · rw [deviceEffects_shutdownCommands]; rfl
  · rw [deviceEffects_shutdownCommands]; rfl

end Sys2Proof.Machine
end

section
/-! The output commands of an operation (60_exceptions.md rule R314, 70_reset_and_hazards.md rule R369): how many each of the
engine's procedures sends, and of which kinds. -/

namespace Sys2Proof.Machine

variable {rom : Rom} {capTable : List ((Nat × Nat) × BitVec 16)} {enc : EncUnit} {s t : State} {ch : ChanId} {c : Channel}
  {ss ss' : Session} {now : Ns64} {p : ChipProfile} {i : Instr} {n : Option Session} {l1 l2 cmds : List Instr}
  {k k1 k2 : Nat} {kinds kinds1 kinds2 : List Op}

/-- At most `k` commands, each of one of the kinds. -/
def SendsAtMost (k : Nat) (kinds : List Op) (cmds : List Instr) : Prop := cmds.length ≤ k ∧ ∀ x ∈ cmds, x.op ∈ kinds

theorem SendsAtMost.nil : SendsAtMost k kinds [] := ⟨Nat.zero_le k, nofun⟩

theorem SendsAtMost.mono (h : SendsAtMost k1 kinds1 cmds) (hk : k1 ≤ k2) (hkinds : kinds1 ⊆ kinds2) :
    SendsAtMost k2 kinds2 cmds := ⟨h.1.trans hk, fun x hx => hkinds (h.2 x hx)⟩

theorem SendsAtMost.append (h1 : SendsAtMost k1 kinds1 l1) (h2 : SendsAtMost k2 kinds2 l2) :
    SendsAtMost (k1 + k2) (kinds1 ++ kinds2) (l1 ++ l2) := by
  refine ⟨?_, List.forall_mem_append.2 ⟨fun x hx => ?_, fun x hx => ?_⟩⟩
  · rw [List.length_append]
    exact Nat.add_le_add h1.1 h2.1
  · exact List.mem_append_left _ (h1.2 x hx)
  · exact List.mem_append_right _ (h2.2 x hx)

theorem sendsAtMost_singleton (j : Instr) : SendsAtMost 1 [j.op] [j] :=
  ⟨Nat.le_refl 1, fun _ hx => List.mem_singleton.2 (congrArg Instr.op (List.mem_singleton.1 hx))⟩

/-- The most commands that an operation sends, and their kinds (rules R314 and R369). That an encoder operation on its own may
send a TMR_CANCEL is the model's choice (assumption log 4). -/
def sendLimit : Op → Nat × List Op
  | .submit => (4, [.genConfigure, .genLoad, .genEnable, .genDisable, .tmrCancel])
  | .complete => (1, [.genLoad, .tmrArm])
  | .wake => (3, [.genConfigure, .genLoad, .genEnable])
  | .shutdown => (2, [.genDisable, .tmrCancel])
  | .encBit0 | .encBit1 | .encPad | .encode => (1, [.tmrCancel])
  | _ => (0, [])

/-! ### The procedures -/

theorem startAttempt_sends (h : startAttempt ch p now ss = .next (ss', cmds)) :
    SendsAtMost 3 [.genConfigure, .genLoad, .genEnable] cmds := by
  obtain ⟨w, -, -, -, rfl⟩ := startAttempt_next h
  exact ((sendsAtMost_singleton _).append (sendsAtMost_singleton _)).append (sendsAtMost_singleton _)

theorem accept_sends (h : accept ch p now ss = .next (ss', cmds)) :
    SendsAtMost 3 [.genConfigure, .genLoad, .genEnable] cmds := by
  rcases accept_next h with ⟨-, -, rfl⟩ | ⟨-, h⟩
  · exact .nil
  · exact startAttempt_sends h

theorem abort_sends (ch : ChanId) (ss : Session) : SendsAtMost 1 [.genDisable] (abort ch (countOverrun ss)).2 := by
  rw [abort_countOverrun_commands]
  split
  · exact sendsAtMost_singleton _
  · exact .nil

theorem capacityFault_sends (ch : ChanId) (ss : Session) : SendsAtMost 1 [.tmrCancel] (capacityFault ch ss).2 := by
  simp only [capacityFault]
  split
  · exact sendsAtMost_singleton _
  · exact .nil

/-- SHUTDOWN sends what an abort and a capacity fault send together. -/
theorem shutdownCommands_sends (ch : ChanId) (ss : Session) :
    SendsAtMost 2 [.genDisable, .tmrCancel] (shutdownCommands ch ss.eng) :=
  capacityFault_abort_commands ch ss ss.buf ▸ (abort_sends ch ss).append (capacityFault_sends ch _)

theorem completeSession_sends (h : completeSession rom ch now ss = .next (ss', cmds)) :
    SendsAtMost 1 [.genLoad, .tmrArm] cmds := by
  have arms (d : Ns64) : SendsAtMost 1 [.genLoad, .tmrArm] [.tmrArm ch d] :=
    (sendsAtMost_singleton _).mono (Nat.le_refl 1) (by simp [Instr.op])
  rcases completeSession_next h with ⟨-, -, rfl⟩ | ⟨-, -, -, h⟩ | ⟨-, -, -, p, -, h⟩ | ⟨-, -, p, -, h⟩
  · exact .nil
  · obtain ⟨w, -, -, -, rfl⟩ := loadNext_next h
    exact (sendsAtMost_singleton _).mono (Nat.le_refl 1) (by simp [Instr.op])
  · cases h
    exact arms _
  · rcases violation_cases ch p now (delayOf now ss.eng.expectT) { ss with stats := ss.stats.signalled }
      with ⟨-, e⟩ | ⟨-, e⟩ <;>
    · rw [e] at h
      cases h
      exact arms _

theorem wakeSession_sends (h : wakeSession rom ch now ss = .next (ss', cmds)) :
    SendsAtMost 3 [.genConfigure, .genLoad, .genEnable] cmds := by
  rcases wakeSession_next h with ⟨-, -, rfl⟩ | ⟨-, -, p, -, h⟩ | ⟨-, -, -, p, -, h⟩ | ⟨-, -, -, -, rfl⟩
  · exact .nil
  · exact startAttempt_sends h
  · exact startAttempt_sends h
  · exact .nil

/-! ### Every operation -/

theorem sendLimit_of_encoderOp (h : i ∈ [Instr.encBit0, .encBit1, .encPad, .encode]) :
    sendLimit i.op = (1, [.tmrCancel]) := by
  simp only [List.mem_cons, List.not_mem_nil, or_false] at h
  rcases h with rfl | rfl | rfl | rfl <;> rfl

theorem SessionMove.sends (h : SessionMove rom capTable enc ch c i n cmds) :
    SendsAtMost (sendLimit i.op).1 (sendLimit i.op).2 cmds := by
  cases h with
  | create => exact .nil
  | overrun ss now frame f x =>
    rw [capacityFault_abort_commands]
    exact (shutdownCommands_sends ch ss).mono (by decide : 2 ≤ 4) (by simp [sendLimit, Instr.op])
  | frame ss now frame f x ss2 cmds2 _ _ _ _ _ accepted =>
    exact ((abort_sends ch ss).append (accept_sends accepted)).mono (Nat.le_refl 4) (by simp [sendLimit, Instr.op])
  | read => exact .nil
  | shutdown ss => exact shutdownCommands_sends ch ss
  | complete ss ss' now cmds _ _ moved => exact completeSession_sends moved
  | wake ss ss' now cmds _ _ moved => exact wakeSession_sends moved
  | encoded => exact .nil
  | encOverrun i ss x op =>
    rw [sendLimit_of_encoderOp op]
    exact capacityFault_sends ch _

theorem exec_sends (h : exec i s = .next t) :
    ∃ cmds, t.outs = s.outs ++ cmds.map encode ∧ SendsAtMost (sendLimit i.op).1 (sendLimit i.op).2 cmds := by
  rcases (exec_move h).2 with ⟨-, same⟩ | ⟨ch, c, n, cmds, -, -, move, -, sent⟩ | ⟨ch, c, -, -, -, -, same⟩
  · exact ⟨[], same.trans (List.append_nil _).symm, .nil⟩
  · exact ⟨cmds, sent, move.sends⟩
  · exact ⟨[], same.trans (List.append_nil _).symm, .nil⟩

/-- Settles O55: an operation sends the commands of its one move, if it makes one, and a limit of 0 leaves none. -/
theorem commandsOfAStep : Obligations.CommandsOfAStep := by
  intro i s t h
  obtain ⟨cmds, sent, within⟩ := exec_sends h
  refine ⟨cmds, sent, ?_⟩
  cases i with
  | submit => exact within
  | complete => exact within
  | wake => exact within
  | shutdown => exact within
  | encBit0 => exact within
  | encBit1 => exact within
  | encPad => exact within
  | encode => exact within
  | _ => exact List.length_eq_zero_iff.1 (Nat.le_zero.1 within.1)

end Sys2Proof.Machine
end

section
/-! An empty slot (60_exceptions.md rule R306, 10_state.md rule R53). -/

namespace Sys2Proof.Machine

section

variable {s : State} {ch : ChanId} {c : Channel} (hc : s.channel? ch = some c) (hs : c.session = none)
include hc hs

theorem withSession_empty (f : Channel → Session → Result State) : withSession ch s f = answerOnly .noSession s := by
  simp only [withSession, hc, hs]

theorem onEvent_empty (f : Channel → Session → Result State) : onEvent ch s f = .next s := by
  simp only [onEvent, hc, hs]

theorem execShutdown_empty : execShutdown ch s = answerOnly .noSession s := by
  simp only [execShutdown, hc, hs]

end

/-- Settles O47: behind the channel, the session is the first thing that each command and event asks for. -/
theorem emptySlotAnswers : Obligations.EmptySlotAnswers := by
  intro s ch c hc hs
  have answered := withSession_empty hc hs
  have ignored := onEvent_empty hc hs
  exact ⟨fun now frame => answered _, answered _, fun maxLen hmax => (if_neg hmax).trans (answered _),
    execShutdown_empty hc hs, fun now => ignored _, fun now => ignored _⟩

end Sys2Proof.Machine
end

section
/-! Power-on (70_reset_and_hazards.md rule R350): with no session, no event and both devices of a channel at rest, every
invariant holds. -/

namespace Sys2Proof.Machine

/-- There are 1 to 256 channels (00_scope.md rule R5). -/
theorem reset_channelCount : 1 ≤ State.reset.chans.length ∧ State.reset.chans.length ≤ 256 := by
  have count : State.reset.chans.length = Config.lastChannel.toNat + 1 := length_powerOnChannels ..
  have below := Config.lastChannel.isLt
  omega

theorem not_session?_reset {ch : ChanId} {ss : Session} : State.reset.session? ch ≠ some ss := by
  rw [reset_session?]; exact (Option.some_ne_none ss).symm

theorem not_live_reset {ch : ChanId} {c : Channel} {ss : Session} : ¬Live State.reset ch c ss := fun h =>
  not_session?_reset (session?_eq_some.2 ⟨c, h.channel, h.session⟩)

theorem reset_not_busy {ch : ChanId} {c : Channel} (h : State.reset.channel? ch = some c) : c.gen.busy = false := by
  obtain ⟨level, rfl⟩ := reset_channel? h; rfl

/-- Settles O56: power-on has no session, no word in a generator and no event that an invariant could speak of. -/
theorem powerOnInvariants : Obligations.PowerOnInvariants := by
  refine ⟨?sound, reset_memory_wf, ?agree, ?free, ⟨?one, ?owned⟩, ?wakes⟩
  case sound => exact fun ch ss hs => absurd hs not_session?_reset
  case agree => exact fun ch c ss hl => absurd hl not_live_reset
  case free => exact fun ch c hc busy => absurd busy (Bool.eq_false_iff.1 (reset_not_busy hc))
  case one => exact fun ch => Nat.zero_le 1
  case owned => exact fun ch x hx => absurd hx List.not_mem_nil
  case wakes => exact fun ch => ⟨Nat.zero_le 1, fun x hx => absurd hx List.not_mem_nil⟩

end Sys2Proof.Machine
end

section
/-! Launching the block (70_reset_and_hazards.md rules R353 and R371): what the check of the tables asks, and which states a
launch takes. -/

namespace Sys2Proof.Machine

/-! ### The tables (rule R353, conditions 1 to 4) -/

theorem hasKey_iff {α : Type} {m : List (RomId × α)} {id : RomId} : hasKey m id = true ↔ ∃ a, (id, a) ∈ m := by
  refine ⟨fun h => ?_, fun ⟨a, ha⟩ => hasKey_of_mem ha⟩
  obtain ⟨a, ha⟩ := Option.isSome_iff_exists.1 (entryOf_of_hasKey h)
  exact ⟨a, mem_of_entryOf ha⟩

theorem hasKey_eq_false_iff {α : Type} {m : List (RomId × α)} {id : RomId} :
    hasKey m id = false ↔ ∀ a, (id, a) ∉ m := by
  rw [← Bool.not_eq_true, hasKey_iff, not_exists]

theorem ChipProfile.wf_iff {p : ChipProfile} :
    ChipProfile.wf p = true ↔ p.tPassiveMinNs.toNat ≤ p.tPassiveMaxNs.toNat := decide_eq_true_iff

theorem LayoutProfile.wf_iff {l : LayoutProfile} :
    LayoutProfile.wf l = true ↔
      (l.channels = 3 ∨ l.channels = 4) ∧ l.map.length = l.channels ∧ ∀ o ∈ l.map, o < l.channels := by
  simp [LayoutProfile.wf, and_assoc]

theorem RomTables.wf_iff (t : RomTables) :
    RomTables.wf t = true ↔
      RisingKeys t.chips ∧ RisingKeys t.layouts ∧ RisingKeys t.predefs
        ∧ (∀ p, (0, p) ∉ t.chips) ∧ (∀ l, (0, l) ∉ t.layouts)
        ∧ (∀ id p, (id, p) ∈ t.chips → p.tPassiveMinNs.toNat ≤ p.tPassiveMaxNs.toNat)
        ∧ (∀ id l, (id, l) ∈ t.layouts →
            (l.channels = 3 ∨ l.channels = 4) ∧ l.map.length = l.channels ∧ ∀ o ∈ l.map, o < l.channels)
        ∧ ∀ ix lay chp, (ix, lay, chp) ∈ t.predefs → (∃ l, (lay, l) ∈ t.layouts) ∧ ∃ p, (chp, p) ∈ t.chips := by
  simp only [RomTables.wf, Bool.and_eq_true, decide_eq_true_eq, Bool.not_eq_true', List.all_eq_true, Prod.forall,
    hasKey_iff, hasKey_eq_false_iff, ChipProfile.wf_iff, LayoutProfile.wf_iff, and_assoc]

/-! ### The states a launch takes -/

/-- What a launch asks of a state beside well-formed tables: a layout for a session in VARIABLE mode (rule R353, condition 5),
registers within 10_state.md rule R54, and 1 to 256 channels. -/
def Launchable (t : RomTables) (s : State) : Prop :=
  (∀ ch ss, s.session? ch = some ss → ss.cfg.mode = .perFrame → t.layouts ≠ [])
    ∧ (∀ ch ss, s.session? ch = some ss → ss.eng.fatal = false → EngineSound ss)
    ∧ 1 ≤ s.chans.length ∧ s.chans.length ≤ 256

variable {t : RomTables} {s u : State}

/-- The check of rule R353's condition 5, as claims have it. -/
theorem layoutsMissing_iff (hn : s.chans.length ≤ 256) :
    (usesLayouts s.chans && t.layouts.isEmpty) = true ↔
      ¬∀ ch ss, s.session? ch = some ss → ss.cfg.mode = .perFrame → t.layouts ≠ [] := by
  rw [Bool.and_eq_true, usesLayouts_iff hn, List.isEmpty_iff]
  push Not
  constructor
  · rintro ⟨⟨ch, ss, hs, hm⟩, empty⟩; exact ⟨ch, ss, hs, hm, empty⟩
  · rintro ⟨ch, ss, hs, hm, empty⟩; exact ⟨⟨ch, ss, hs, hm⟩, empty⟩

theorem launchFrom_illFormed (h : ¬RomTables.wf t = true) : launchFrom t s = .refused .illFormedRom := dif_neg h

theorem launchFrom_launchable (h : RomTables.wf t = true) (hl : Launchable t s) :
    launchFrom t s = .next { s with rom := ⟨t, h⟩ } := by
  obtain ⟨layouts, registers, count⟩ := hl
  have enough := mt (layoutsMissing_iff count.2).1 (not_not_intro layouts)
  have fit := (channelsFit_iff s).2 ⟨count, registers⟩
  rw [launchFrom, dif_pos h, if_neg enough, if_pos fit]

theorem launchFrom_not_launchable (hl : ¬Launchable t s) : ∃ r, launchFrom t s = .refused r := by
  by_cases h : RomTables.wf t = true
  · rw [launchFrom, dif_pos h]
    split
    · exact ⟨_, rfl⟩
    · rename_i enough
      refine ⟨_, if_neg fun fit => hl ?_⟩
      obtain ⟨count, registers⟩ := (channelsFit_iff s).1 fit
      exact ⟨not_not.1 (mt (layoutsMissing_iff count.2).2 enough), registers, count⟩
  · exact ⟨_, launchFrom_illFormed h⟩

/-- A launch that goes on changes nothing but the ROM. -/
theorem launchFrom_next (h : launchFrom t s = .next u) : ∃ hwf, u = { s with rom := ⟨t, hwf⟩ } := by
  by_cases hl : Launchable t s
  · by_cases hwf : RomTables.wf t = true
    · rw [launchFrom_launchable hwf hl] at h; cases h; exact ⟨hwf, rfl⟩
    · rw [launchFrom_illFormed hwf] at h; cases h
  · obtain ⟨r, hr⟩ := launchFrom_not_launchable hl
    rw [hr] at h; cases h

/-- Power-on has no session that a launch could refuse. -/
theorem launchable_reset : Launchable t State.reset :=
  ⟨fun _ _ hs => absurd hs not_session?_reset, fun _ _ hs => absurd hs not_session?_reset, reset_channelCount⟩

/-- Settles O8: a launch asks for well-formed tables and a launchable state, and power-on is one. -/
theorem powerOnState : Obligations.PowerOnState := by
  refine ⟨reset_channelCount.1, reset_channelCount.2, reset_session?, rfl, rfl, rfl, ?fromPowerOn,
    fun t s u => launchFrom_next, fun t => ?launches⟩
  case fromPowerOn =>
    intro t s h
    obtain ⟨hwf, rfl⟩ := launchFrom_next h
    exact ⟨rfl, rfl, rfl, reset_session?⟩
  case launches =>
    intro ok
    have wf : RomTables.wf t = true ↔ ok := RomTables.wf_iff t
    refine ⟨fun h => ⟨_, launchFrom_launchable (wf.2 h) launchable_reset⟩, fun h => launchFrom_illFormed (mt wf.1 h),
      fun s => ?_⟩
    intro layouts registers count
    exact ⟨fun h hlay hreg hcount => ⟨_, launchFrom_launchable (wf.2 h) ⟨hlay, hreg, hcount⟩⟩,
      fun h => launchFrom_illFormed (mt wf.1 h), launchFrom_not_launchable⟩

end Sys2Proof.Machine
end
